-- ==== Sys2Proof/Word.lean ====
section
/-!
DEFINITION. The plain word types of the block: bytes (channels, packed bytes, format ids), the 16-bit command word,
handles, and the type of the Tile Order Table.
-/

namespace Sys2Proof

/-- A byte: a channel, a packed byte, a format id (00_scope.md R7: `u8`). -/
abbrev Byte := BitVec 8

/-- A 16-bit word: a command word (30_encoding.md R70) or a 16-bit pixel (20_memory.md R46). -/
abbrev Half := BitVec 16

/-- The name of a host-owned buffer, image or file (10_state.md R26). -/
abbrev Handle := Nat

/-- The Tile Order Table: 64 entries, each in 0..63 (10_state.md R20, 40_tile_order.md R98 (a)). -/
abbrev TileTable := Vector (Fin 64) 64

end Sys2Proof
end

