-- ==== Sys2Proof/Syntax.lean ====
section
/-!
DEFINITION. The commands: one constructor for each of the 36 rows of spec/opcode_table.json.
-/

namespace Sys2Proof

/-- A command as the decoder reads it. The operands in buffers, images, files and argument fields are no part of the word:
the command interface carries them (10_state.md R26). -/
inductive Instr where
  /-- ENCODE.RGBA8 (41_codec_engines.md R116) -/
  | encodeRgba8
  /-- ENCODE.RGB8 (41_codec_engines.md R117) -/
  | encodeRgb8
  /-- ENCODE.A8 (41_codec_engines.md R118) -/
  | encodeA8
  /-- ENCODE.RGB565 (41_codec_engines.md R119) -/
  | encodeRgb565
  /-- ENCODE.RGBA4 (41_codec_engines.md R120) -/
  | encodeRgba4
  /-- ENCODE.RGBA5551 (41_codec_engines.md R121) -/
  | encodeRgba5551
  /-- ENCODE.ETC1 (41_codec_engines.md R122) -/
  | encodeEtc1
  /-- DECODE.RGBA8 (41_codec_engines.md R123) -/
  | decodeRgba8
  /-- DECODE.RGB8 (41_codec_engines.md R124) -/
  | decodeRgb8
  /-- DECODE.A8 (41_codec_engines.md R125) -/
  | decodeA8
  /-- DECODE.RGB565 (41_codec_engines.md R126) -/
  | decodeRgb565
  /-- DECODE.RGBA4 (41_codec_engines.md R127) -/
  | decodeRgba4
  /-- DECODE.RGBA5551 (41_codec_engines.md R128) -/
  | decodeRgba5551
  /-- DECODE.ETC1 (41_codec_engines.md R129) -/
  | decodeEtc1
  /-- PXPACK.RGBA8 (42_pixel_formats.md R140) -/
  | pxpackRgba8
  /-- PXPACK.RGB8 (42_pixel_formats.md R142) -/
  | pxpackRgb8
  /-- PXPACK.A8 (42_pixel_formats.md R144) -/
  | pxpackA8
  /-- PXPACK.RGB565 (42_pixel_formats.md R146) -/
  | pxpackRgb565
  /-- PXPACK.RGBA4 (42_pixel_formats.md R148) -/
  | pxpackRgba4
  /-- PXPACK.RGBA5551 (42_pixel_formats.md R150) -/
  | pxpackRgba5551
  /-- PXPACK.ETC1 (42_pixel_formats.md R152) -/
  | pxpackEtc1
  /-- PXUNPACK.RGBA8 (42_pixel_formats.md R141) -/
  | pxunpackRgba8
  /-- PXUNPACK.RGB8 (42_pixel_formats.md R143) -/
  | pxunpackRgb8
  /-- PXUNPACK.A8 (42_pixel_formats.md R145) -/
  | pxunpackA8
  /-- PXUNPACK.RGB565 (42_pixel_formats.md R147) -/
  | pxunpackRgb565
  /-- PXUNPACK.RGBA4 (42_pixel_formats.md R149) -/
  | pxunpackRgba4
  /-- PXUNPACK.RGBA5551 (42_pixel_formats.md R151) -/
  | pxunpackRgba5551
  /-- PXUNPACK.ETC1 (42_pixel_formats.md R153) -/
  | pxunpackEtc1
  /-- ENCODE.#nn: a format id in 3, 8..255 (30_encoding.md R79, 41_codec_engines.md R115) -/
  | encodeInvalid (fmt : Byte)
  /-- DECODE.#nn: a format id in 3, 8..255 (30_encoding.md R79, 41_codec_engines.md R115) -/
  | decodeInvalid (fmt : Byte)
  /-- PXPACK.#nn: a format id in 3, 8..255 (30_encoding.md R79, 42_pixel_formats.md R157) -/
  | pxpackInvalid (fmt : Byte)
  /-- PXUNPACK.#nn: a format id in 3, 8..255 (30_encoding.md R79, 42_pixel_formats.md R157) -/
  | pxunpackInvalid (fmt : Byte)
  /-- HDR_WRITE.<f>, every format id (43_container.md R195) -/
  | hdrWrite (fmt : Byte)
  /-- HDR_READ (43_container.md R197) -/
  | hdrRead
  /-- FMT_RESOLVE.<f>, every format id (43_container.md R193) -/
  | fmtResolve (fmt : Byte)
  /-- TILE_LOOKUP idx, 0..63 (40_tile_order.md R100, 30_encoding.md R75) -/
  | tileLookup (idx : BitVec 6)
  deriving DecidableEq, Repr

end Sys2Proof
end

