-- ==== Sys2Proof/WellFormed.lean ====
section
/-!
DEFINITION. Which terms of Instr stand for a row of the opcode table: a catch-all row `#nn` carries only a format id that no
other row of its class carries.
-/

namespace Sys2Proof

/-- The format ids of 30_encoding.md R73 that have a name: the rows with a full mask carry them. -/
def namedFormatId (fmt : Byte) : Bool :=
  fmt.toNat < 8 && fmt.toNat != 3

/-- A term that a command word can decode to (30_encoding.md R79: `#nn` is for 3 and 8..255). -/
def Instr.wellFormed : Instr → Bool
  | .encodeInvalid fmt => !namedFormatId fmt
  | .decodeInvalid fmt => !namedFormatId fmt
  | .pxpackInvalid fmt => !namedFormatId fmt
  | .pxunpackInvalid fmt => !namedFormatId fmt
  | .encodeRgba8 | .encodeRgb8 | .encodeA8 | .encodeRgb565 | .encodeRgba4 | .encodeRgba5551 | .encodeEtc1 => true
  | .decodeRgba8 | .decodeRgb8 | .decodeA8 | .decodeRgb565 | .decodeRgba4 | .decodeRgba5551 | .decodeEtc1 => true
  | .pxpackRgba8 | .pxpackRgb8 | .pxpackA8 | .pxpackRgb565 | .pxpackRgba4 | .pxpackRgba5551 | .pxpackEtc1 => true
  | .pxunpackRgba8 | .pxunpackRgb8 | .pxunpackA8 | .pxunpackRgb565 | .pxunpackRgba4 | .pxunpackRgba5551 => true
  | .pxunpackEtc1 => true
  | .hdrWrite _ | .hdrRead | .fmtResolve _ | .tileLookup _ => true

end Sys2Proof
end

