-- ==== Sys2Proof/Decode.lean ====
section
/-!
DEFINITION. The decoder of 30_encoding.md R78, total on every 16-bit word and rejecting by name; after it the encoder, from the same
table (30_encoding.md R70 to R73, R89).
-/

namespace Sys2Proof

/-- Why a word is illegal (30_encoding.md R80). -/
inductive DecodeReject where
  /-- `CMD[15:12]` is not 0000 (R77) -/
  | reservedBits
  /-- class 0x0 or 0x9..0xF (R71) -/
  | unassignedClass
  /-- HDR_READ with an argument other than 0x00 (R76) -/
  | hdrReadArgument
  /-- TILE_LOOKUP with `arg[7:6]` not 00 (R75) -/
  | tileIndexRange
  deriving DecidableEq, Repr

/-- `CMD[15:12]` (R70). -/
def Half.rsv (w : Half) : BitVec 4 := w.extractLsb' 12 4

/-- `CMD[11:8]` (R70). -/
def Half.cls (w : Half) : BitVec 4 := w.extractLsb' 8 4

/-- `CMD[7:0]` (R70). -/
def Half.arg (w : Half) : Byte := w.extractLsb' 0 8

/-- ENCODE with this format id (R72, R73). -/
def encodeOfFmt (fmt : Byte) : Instr :=
  match fmt.toNat with
  | 0 => .encodeRgba8
  | 1 => .encodeRgb8
  | 2 => .encodeA8
  | 4 => .encodeEtc1
  | 5 => .encodeRgba5551
  | 6 => .encodeRgb565
  | 7 => .encodeRgba4
  | _ => .encodeInvalid fmt

/-- DECODE with this format id (R72, R73). -/
def decodeOfFmt (fmt : Byte) : Instr :=
  match fmt.toNat with
  | 0 => .decodeRgba8
  | 1 => .decodeRgb8
  | 2 => .decodeA8
  | 4 => .decodeEtc1
  | 5 => .decodeRgba5551
  | 6 => .decodeRgb565
  | 7 => .decodeRgba4
  | _ => .decodeInvalid fmt

/-- PXPACK with this format id (R72, R73). -/
def pxpackOfFmt (fmt : Byte) : Instr :=
  match fmt.toNat with
  | 0 => .pxpackRgba8
  | 1 => .pxpackRgb8
  | 2 => .pxpackA8
  | 4 => .pxpackEtc1
  | 5 => .pxpackRgba5551
  | 6 => .pxpackRgb565
  | 7 => .pxpackRgba4
  | _ => .pxpackInvalid fmt

/-- PXUNPACK with this format id (R72, R73). -/
def pxunpackOfFmt (fmt : Byte) : Instr :=
  match fmt.toNat with
  | 0 => .pxunpackRgba8
  | 1 => .pxunpackRgb8
  | 2 => .pxunpackA8
  | 4 => .pxunpackEtc1
  | 5 => .pxunpackRgba5551
  | 6 => .pxunpackRgb565
  | 7 => .pxunpackRgba4
  | _ => .pxunpackInvalid fmt

/-- The decoder (R78). -/
def decode (w : Half) : Except DecodeReject Instr :=
  if w.rsv ≠ 0 then .error .reservedBits
  else
    match w.cls.toNat with
    | 0x1 => .ok (encodeOfFmt w.arg)
    | 0x2 => .ok (decodeOfFmt w.arg)
    | 0x3 => .ok (.hdrWrite w.arg)
    | 0x4 => if w.arg = 0 then .ok .hdrRead else .error .hdrReadArgument
    | 0x5 => .ok (.fmtResolve w.arg)
    | 0x6 => if w.arg.extractLsb' 6 2 = 0 then .ok (.tileLookup (w.arg.extractLsb' 0 6)) else .error .tileIndexRange
    | 0x7 => .ok (pxpackOfFmt w.arg)
    | 0x8 => .ok (pxunpackOfFmt w.arg)
    | _ => .error .unassignedClass

/-- A command word of its two fields, the reserved bits 0000 (R70). -/
def commandWord (cls : BitVec 4) (arg : Byte) : Half :=
  (0#4 ++ cls) ++ arg

/-- The encoder: the word of each command (R71 to R76, R89). -/
def encode : Instr → Half
  | .encodeRgba8 => commandWord 0x1 0
  | .encodeRgb8 => commandWord 0x1 1
  | .encodeA8 => commandWord 0x1 2
  | .encodeEtc1 => commandWord 0x1 4
  | .encodeRgba5551 => commandWord 0x1 5
  | .encodeRgb565 => commandWord 0x1 6
  | .encodeRgba4 => commandWord 0x1 7
  | .encodeInvalid fmt => commandWord 0x1 fmt
  | .decodeRgba8 => commandWord 0x2 0
  | .decodeRgb8 => commandWord 0x2 1
  | .decodeA8 => commandWord 0x2 2
  | .decodeEtc1 => commandWord 0x2 4
  | .decodeRgba5551 => commandWord 0x2 5
  | .decodeRgb565 => commandWord 0x2 6
  | .decodeRgba4 => commandWord 0x2 7
  | .decodeInvalid fmt => commandWord 0x2 fmt
  | .hdrWrite fmt => commandWord 0x3 fmt
  | .hdrRead => commandWord 0x4 0
  | .fmtResolve fmt => commandWord 0x5 fmt
  | .tileLookup idx => commandWord 0x6 (0#2 ++ idx)
  | .pxpackRgba8 => commandWord 0x7 0
  | .pxpackRgb8 => commandWord 0x7 1
  | .pxpackA8 => commandWord 0x7 2
  | .pxpackEtc1 => commandWord 0x7 4
  | .pxpackRgba5551 => commandWord 0x7 5
  | .pxpackRgb565 => commandWord 0x7 6
  | .pxpackRgba4 => commandWord 0x7 7
  | .pxpackInvalid fmt => commandWord 0x7 fmt
  | .pxunpackRgba8 => commandWord 0x8 0
  | .pxunpackRgb8 => commandWord 0x8 1
  | .pxunpackA8 => commandWord 0x8 2
  | .pxunpackEtc1 => commandWord 0x8 4
  | .pxunpackRgba5551 => commandWord 0x8 5
  | .pxunpackRgb565 => commandWord 0x8 6
  | .pxunpackRgba4 => commandWord 0x8 7
  | .pxunpackInvalid fmt => commandWord 0x8 fmt

/-- The command word the host's opcode table numbers: its low `nbits` bits are `w`'s, every higher bit is 0. The command
word is one 16-bit value without a byte order (30_encoding.md R70, log 22). -/
def tableWord (nbits w : Nat) : Half :=
  BitVec.ofNat 16 (w % 2 ^ nbits)

/-- What the decoder reads from the opcode table's numbering of a word. -/
def decodeTableWord (nbits w : Nat) : Option Instr :=
  (decode (tableWord nbits w)).toOption

end Sys2Proof
end

