-- ==== Sys2Proof/Config.lean ====
section
/-!
DEFINITION. The fixed parameters of 00_scope.md R6, and the free values the spec leaves to the environment. A free value
is a constant without a body: no proof can learn what it is. The open parameters `TILE_ORDER` and `RGB8_DECODE_ALPHA` stand in
State (no command writes them), `N_INSTANCES` is the length of a list there.
-/

namespace Sys2Proof.Config

/-- The block's identity string (00_scope.md R1). -/
def identity : String := "pixel_format_codec_engines/3DSTTool-v7"

/-- `MAX_DIM` (00_scope.md R6). -/
def maxDim : Nat := 32767

/-- `BLOCK`: the block edge in pixels (00_scope.md R6). -/
def blockEdge : Nat := 8

/-- `HEADER_SIZE` (00_scope.md R6). -/
def headerSize : Nat := 0x80

/-- `PAYLOAD_OFFSET` (00_scope.md R6). -/
def payloadOffset : Nat := 0x80

/-- `IO_FAIL` (00_scope.md R6, 20_memory.md R59): whether an access of an instance fails, by the instance's lane and the access's number. A free
value (log 8). -/
opaque ioFail : Nat → Nat → Bool

/-- A byte of a buffer that an instance has freshly allocated (43_container.md R200, D11): a free draw, by the instance's lane and the draw's number
(log 9). -/
opaque freeByte : Nat → Nat → Byte

/-- The width of the image operand where `IMG` holds this and names no image. A free value: the spec states none (log 12). -/
opaque absentWidth : Option Handle → Nat

/-- The height of the image operand where `IMG` holds this and names no image. A free value: the spec states none (log 12). -/
opaque absentHeight : Option Handle → Nat

/-- The bytes of the packed buffer operand where `BUF` holds this and names no buffer. A free value: the spec states none (log 12). -/
opaque absentBuffer : Option Handle → List Byte

/-- The bytes of the container file operand where `FILE` holds this and names no file. A free value: the spec states none (log 12). -/
opaque absentFile : Option Handle → List Byte

end Sys2Proof.Config
end

