-- ==== Sys2Proof/Machine/Tables.lean ====
section
/-!
DEFINITION. The constant values that State.reset and the container header start from: the default Tile Order Table and the magic.
-/

namespace Sys2Proof.Machine

/-- The default of `TILE_ORDER` (40_tile_order.md R97). PRESUMED, unsafe for any claim that rests on one of these values:
the spec takes them from general knowledge (log 3). -/
def defaultTileOrder : TileTable := #v[
   0,  1,  8,  9,  2,  3, 10, 11,
  16, 17, 24, 25, 18, 19, 26, 27,
   4,  5, 12, 13,  6,  7, 14, 15,
  20, 21, 28, 29, 22, 23, 30, 31,
  32, 33, 40, 41, 34, 35, 42, 43,
  48, 49, 56, 57, 50, 51, 58, 59,
  36, 37, 44, 45, 38, 39, 46, 47,
  52, 53, 60, 61, 54, 55, 62, 63]

/-- The default of `RGB8_DECODE_ALPHA` (00_scope.md R6). DESIGN CHOICE of the spec, unsafe for a claim that rests on 255 (log 4). -/
def defaultRgb8DecodeAlpha : Byte := 255

/-- `MAGIC`: ASCII "texture" (00_scope.md R9). PRESUMED: the code values are the spec's general knowledge (log 21). -/
def magic : List Byte := [0x74, 0x65, 0x78, 0x74, 0x75, 0x72, 0x65]

end Sys2Proof.Machine
end

