-- ==== Sys2Proof/Machine/State.lean ====
section
/-!
DEFINITION. The state of the block and of what its host owns, as plain data; the two kinds of stop; the state after reset.
-/

namespace Sys2Proof.Machine

/-- The six formats that have a codec (41_codec_engines.md R105, 30_encoding.md R73). -/
inductive PixelFormat where
  | rgba8
  | rgb8
  | a8
  | rgb565
  | rgba4
  | rgba5551
  deriving DecidableEq, Repr

/-- The statuses of 60_exceptions.md R238. `invalidOutputFormat` is reserved: the block never raises it (R239). -/
inductive Status where
  | ok
  | invalidMagic
  | invalidFormatId
  | unsupportedFormat
  | ioError
  | invalidOutputFormat
  | illegalCommand
  deriving DecidableEq, Repr

/-- The reasons of a model fault (60_exceptions.md R246 to R249). -/
inductive FaultReason where
  | bufferUnderrun
  | dimensionOutOfRange
  | imageBounds
  | unwrittenPixel
  deriving DecidableEq, Repr

/-- A pixel record: four u8 channels (20_memory.md R41). -/
structure Pixel where
  r : Byte
  g : Byte
  b : Byte
  a : Byte
  deriving DecidableEq, Repr

/-- A raster image (20_memory.md R41): its size, and its written pixels by the key `y * w + x`, keys strictly rising.
A pixel that is not listed is unwritten. Width and height are naturals: an image has no negative size (log 23). -/
structure Image where
  w : Nat
  h : Nat
  px : List (Nat × Pixel)
  deriving DecidableEq, Repr

/-- The host-owned memory (20_memory.md R40 to R42): packed buffers, raster images and container files by handle, handles
strictly rising. A buffer or file is its byte sequence, the byte at offset `o` at position `o` (log 15). -/
structure Memory where
  bufs : List (Handle × List Byte)
  imgs : List (Handle × Image)
  files : List (Handle × List Byte)
  deriving DecidableEq, Repr

/-- What `RESULT` holds (10_state.md R26, R27). -/
inductive Result where
  /-- no output: at reset, and after every status other than OK (R27) -/
  | empty
  /-- the bytes of PXPACK or the header of HDR_WRITE -/
  | bytes (bs : List Byte)
  /-- the pixel of PXUNPACK -/
  | pixel (px : Pixel)
  /-- HDR_READ's `(W, H, fmt)` -/
  | header (w h : Int) (fmt : Byte)
  /-- FMT_RESOLVE's `(name, bpp)` -/
  | format (name : PixelFormat) (bytesPerPixel : Nat)
  /-- TILE_LOOKUP's `(p, p % 8, p / 8)` -/
  | tile (p x y : Nat)
  /-- ENCODE's buffer: what `BUF` holds -/
  | buffer (h : Option Handle)
  /-- DECODE's image, which is what `IMG` holds, or CONTAINER_READ's -/
  | image (h : Option Handle)
  /-- CONTAINER_WRITE's file -/
  | file (h : Handle)
  deriving DecidableEq, Repr

/-- What the host can ask of an instance: a command word (30_encoding.md R70), or one of the two whole-container sequences, which
have no word of their own (30_encoding.md R90; log 19). -/
inductive Command where
  | word (w : Half)
  | containerWrite (fmt : Byte)
  | containerRead
  deriving DecidableEq, Repr

/-- The argument fields of the command interface (10_state.md R26). -/
structure Operands where
  argW : Int
  argH : Int
  argPixel : Pixel
  argBytes : List Byte
  img : Option Handle
  buf : Option Handle
  file : Option Handle
  deriving DecidableEq, Repr

/-- The command interface of one engine instance (10_state.md R26, 60_exceptions.md R257): the pending command, its operands, and what the
last command that ended left in `STATUS` and `RESULT`. The last four fields are the model's own: they give each instance free values and
fresh objects that no other instance's commands touch (20_memory.md R60; logs 8, 9, 14). -/
structure Port where
  cmd : Option Command
  ops : Operands
  status : Byte
  result : Result
  /-- a number that no two instances share, naming the instance's own free values and fresh objects -/
  lane : Nat
  /-- answers of `IO_FAIL` to this instance that are already settled, the next access first; after them `Config.ioFail` answers -/
  ioAnswers : List Bool
  /-- number of file accesses of this instance so far -/
  ioCount : Nat
  /-- number of free draws of this instance so far -/
  drawCount : Nat
  deriving DecidableEq, Repr

/-- What the host can do to the block and to its own memory (log 2). -/
inductive HostAction where
  /-- issue a command with its operands to the instance whose turn it is (00_scope.md R10) -/
  | issue (c : Command) (ops : Operands)
  /-- wait for the pending command of that instance (20_memory.md R58) -/
  | complete
  /-- turn to the next instance (60_exceptions.md R257) -/
  | turn
  /-- start one more instance (60_exceptions.md R257) -/
  | start
  /-- create or rewrite a packed buffer -/
  | putBuffer (h : Handle) (bs : List Byte)
  /-- create or rewrite a raster image of this size with these pixels `(x, y, px)` written and no others -/
  | putImage (h : Handle) (width height : Nat) (px : List (Nat × Nat × Pixel))
  /-- create or rewrite a container file -/
  | putFile (h : Handle) (bs : List Byte)
  /-- reset the block (70_reset_and_hazards.md R272) -/
  | reset
  deriving DecidableEq, Repr

/-- Why the machine stops with a fault. -/
inductive Fault where
  /-- The sticky mark `FAULTED` is set: no command has a step (10_state.md R32, 60_exceptions.md R245). Raised by `step` and by every
  command in such a state. Safe: nothing is claimed of behaviour the source calls undefined (log 10). -/
  | faulted (reason : FaultReason)
  deriving DecidableEq, Repr

/-- Why the model gives no meaning. -/
inductive Refusal where
  /-- An instruction that has no meaning yet; raised by `exec`'s arms only. Safe. -/
  | notModelled (mnemonic : String)
  /-- The mark `REFUSED` is set: the model gives the run no meaning (60_exceptions.md R251). Raised by `step` and by every command in such
  a state. Safe (log 11). -/
  | refusedRun
  deriving DecidableEq, Repr

/-- The machine: the constant table and parameter, the instance whose turn it is, the other instances, the host's memory, the
inputs that are still to come, and the two sticky marks. -/
structure State where
  /-- `TILE_ORDER` (10_state.md R20): no command writes it -/
  tileOrder : TileTable
  /-- `RGB8_DECODE_ALPHA` (00_scope.md R6): no command writes it -/
  rgb8DecodeAlpha : Byte
  /-- the command interface of the instance whose turn it is (10_state.md R26) -/
  port : Port
  /-- the command interfaces of the other instances (60_exceptions.md R257), the next in turn first -/
  others : List Port
  /-- the buffers, images and files (20_memory.md R40 to R42) -/
  mem : Memory
  /-- the host's coming actions, the first one first (the model's own field, log 2) -/
  host : List HostAction
  /-- `FAULTED` (10_state.md R32) -/
  faulted : Option FaultReason
  /-- `REFUSED` (60_exceptions.md R251) -/
  refused : Bool
  deriving DecidableEq, Repr

/-- The argument fields after reset. DESIGN CHOICE, unsafe: 70_reset_and_hazards.md R270 leaves `ARG_W`, `ARG_H`, `ARG_PIXEL` and `ARG_BYTES`
unspecified (log 5); the handles are none, as it says. -/
def Operands.reset : Operands where
  argW := 0
  argH := 0
  argPixel := { r := 0, g := 0, b := 0, a := 0 }
  argBytes := []
  img := none
  buf := none
  file := none

/-- The command interface of an instance of this lane right after its start (70_reset_and_hazards.md R270): no command pending, `RESULT` empty.
`STATUS` is unspecified there; 0 is a DESIGN CHOICE, unsafe (log 6). -/
def Port.reset (lane : Nat) : Port where
  cmd := none
  ops := Operands.reset
  status := 0
  result := .empty
  lane := lane
  ioAnswers := []
  ioCount := 0
  drawCount := 0

/-- The machine right after reset (70_reset_and_hazards.md R270): the constant table at its default, no command pending, no mark set. No other
instance is started and the host owns nothing yet (logs 14, 16). -/
def State.reset : State where
  tileOrder := defaultTileOrder
  rgb8DecodeAlpha := defaultRgb8DecodeAlpha
  port := Port.reset 0
  others := []
  mem := { bufs := [], imgs := [], files := [] }
  host := []
  faulted := none
  refused := false

end Sys2Proof.Machine
end

