-- ==== Sys2Proof/Machine/Flags.lean ====
section
/-!
DEFINITION. The block has no flags or condition codes (10_state.md R25): the status code is its only outcome indicator.
-/

namespace Sys2Proof.Machine

/-- The code of a status (60_exceptions.md R238). -/
def Status.code : Status → Byte
  | .ok => 0
  | .invalidMagic => 1
  | .invalidFormatId => 2
  | .unsupportedFormat => 3
  | .ioError => 4
  | .invalidOutputFormat => 5
  | .illegalCommand => 6

/-- The codes the block ever writes: 5 and 7..255 are never written (60_exceptions.md R238, R239). -/
def writtenCode (c : Byte) : Bool :=
  c.toNat < 7 && c.toNat != 5

end Sys2Proof.Machine
end

