-- ==== Sys2Proof/Machine/Formats.lean ====
section
/-!
DEFINITION. The two constant tables of the format ids: the dispatch table and the bytes per pixel (10_state.md R21, R22).
-/

namespace Sys2Proof.Machine

/-- `resolve`: the one place a format id turns into a codec (43_container.md R191, R192). -/
def resolve (fmt : Byte) : Except Status PixelFormat :=
  match fmt.toNat with
  | 0 => .ok .rgba8
  | 1 => .ok .rgb8
  | 2 => .ok .a8
  | 5 => .ok .rgba5551
  | 6 => .ok .rgb565
  | 7 => .ok .rgba4
  | 4 => .error .unsupportedFormat
  | _ => .error .invalidFormatId

/-- The format id of a format (30_encoding.md R73). -/
def PixelFormat.id : PixelFormat → Byte
  | .rgba8 => 0
  | .rgb8 => 1
  | .a8 => 2
  | .rgba5551 => 5
  | .rgb565 => 6
  | .rgba4 => 7

/-- `bpp`: bytes per pixel (10_state.md R22, 30_encoding.md R73). -/
def bpp : PixelFormat → Nat
  | .rgba8 => 4
  | .rgb8 => 3
  | .a8 => 1
  | .rgb565 => 2
  | .rgba4 => 2
  | .rgba5551 => 2

end Sys2Proof.Machine
end

