-- ==== Sys2Proof/Machine/Store.lean ====
section
/-!
DEFINITION. Sparse tables: a list of key and value pairs whose keys rise strictly. Buffers, images, files (by handle) and the written
pixels of an image (by position) are kept so. A key that is not listed holds nothing.
-/

namespace Sys2Proof.Machine

/-- The value at a key, if one is listed. -/
def Store.find? {α : Type} : List (Nat × α) → Nat → Option α
  | [], _ => none
  | (k', v) :: m, k => if k' = k then some v else Store.find? m k

/-- Write a value at a key, keeping the keys in rising order. -/
def Store.put {α : Type} : List (Nat × α) → Nat → α → List (Nat × α)
  | [], k, v => [(k, v)]
  | (k', v') :: m, k, v =>
    if k < k' then (k, v) :: (k', v') :: m
    else if k = k' then (k, v) :: m
    else (k', v') :: Store.put m k v

/-- The canonical form: keys strictly rising, so no key is listed twice. -/
def Store.rising {α : Type} : List (Nat × α) → Bool
  | [] => true
  | [_] => true
  | a :: b :: m => a.1 < b.1 && Store.rising (b :: m)

/-- The key with this number in a lane: the keys of two lanes are never equal (log 14). -/
def Store.laneKey (lane n : Nat) : Nat :=
  n * 2 ^ (lane + 1) + 2 ^ lane

/-- A number above that of every listed key of a lane. -/
def Store.laneNext {α : Type} (lane : Nat) : List (Nat × α) → Nat
  | [] => 0
  | (k, _) :: m =>
    if k % 2 ^ (lane + 1) = 2 ^ lane then max (k / 2 ^ (lane + 1) + 1) (Store.laneNext lane m) else Store.laneNext lane m

/-- A key of a lane that is not listed: the handle of a fresh object. It depends on the listed keys of that lane only (log 14). -/
def Store.fresh {α : Type} (lane : Nat) (m : List (Nat × α)) : Nat :=
  Store.laneKey lane (Store.laneNext lane m)

end Sys2Proof.Machine
end

