-- ==== Sys2Proof/Machine/Operands.lean ====
section
/-!
DEFINITION. The operand forms: byte order, the primitives MemRead, MemWrite, PixelRead and PixelWrite of 00_scope.md R8, the operands
that the handles of the command interface name, the tile position, and the dimension check.
-/

namespace Sys2Proof.Machine

/-- `LE16(v)` (00_scope.md R8). PRESUMED: the least significant byte has the lower offset (log 21). -/
def le16 (v : Half) : List Byte :=
  [v.extractLsb' 0 8, v.extractLsb' 8 8]

/-- `fromLE16(b0, b1)` (00_scope.md R8). -/
def fromLe16 (b0 b1 : Byte) : Half :=
  b0.zeroExtend 16 ||| (b1.zeroExtend 16 <<< 8)

/-- `sext_16` (00_scope.md R7): the two's-complement value of a 16-bit word. -/
def sext16 (v : Half) : Int :=
  v.toInt

/-- Whether a width or height is in 0..MAX_DIM (41_codec_engines.md R112). -/
def dimOk (v : Int) : Bool :=
  0 ≤ v && v ≤ Config.maxDim

/-- `MemRead(buf, off, n)`; outside the sequence the fault BufferUnderrun (00_scope.md R8). -/
def memRead (buf : List Byte) (off n : Nat) : Except FaultReason (List Byte) :=
  if off + n ≤ buf.length then .ok ((buf.drop off).take n) else .error .bufferUnderrun

/-- `MemWrite(buf, off, n, v)` with `n` the length of `v`; outside the sequence the fault BufferUnderrun (00_scope.md R8). -/
def memWrite (buf : List Byte) (off : Nat) (v : List Byte) : Except FaultReason (List Byte) :=
  if off + v.length ≤ buf.length then .ok (buf.take off ++ v ++ buf.drop (off + v.length)) else .error .bufferUnderrun

/-- A W×H image with every pixel unwritten (20_memory.md R41, D12). -/
def Image.fresh (w h : Nat) : Image where
  w := w
  h := h
  px := []

/-- The key of the pixel at column x and row y. -/
def Image.key (img : Image) (x y : Nat) : Nat :=
  y * img.w + x

/-- `PixelRead(img, x, y)` (00_scope.md R8, 60_exceptions.md R248, R249). -/
def Image.read (img : Image) (x y : Nat) : Except FaultReason Pixel :=
  if x < img.w ∧ y < img.h then
    match Store.find? img.px (img.key x y) with
    | some p => .ok p
    | none => .error .unwrittenPixel
  else .error .imageBounds

/-- `PixelWrite(img, x, y, px)` (00_scope.md R8, 60_exceptions.md R248). -/
def Image.write (img : Image) (x y : Nat) (p : Pixel) : Except FaultReason Image :=
  if x < img.w ∧ y < img.h then .ok { img with px := Store.put img.px (img.key x y) p } else .error .imageBounds

/-- The position of a traversal index within its block: column and row (40_tile_order.md R95). -/
def tilePos (t : TileTable) (i : Fin 64) : Nat × Nat :=
  (t[i].val % Config.blockEdge, t[i].val / Config.blockEdge)

/-- `TILE_INV`: the traversal index of the block-local position (x, y), the first one that the table sends there (40_tile_order.md R99). -/
def tileInv (t : TileTable) (x y : Nat) : Option (Fin 64) :=
  (List.finRange 64).find? fun i => t[i].val == Config.blockEdge * y + x

/-- The image that `IMG` names, with its handle. -/
def State.imgOperand (s : State) : Option (Handle × Image) :=
  s.port.ops.img.bind fun h => (Store.find? s.mem.imgs h).map fun img => (h, img)

/-- The packed buffer that `BUF` names, with its handle. -/
def State.bufOperand (s : State) : Option (Handle × List Byte) :=
  s.port.ops.buf.bind fun h => (Store.find? s.mem.bufs h).map fun buf => (h, buf)

/-- The container file that `FILE` names, with its handle. -/
def State.fileOperand (s : State) : Option (Handle × List Byte) :=
  s.port.ops.file.bind fun h => (Store.find? s.mem.files h).map fun f => (h, f)

/-- The image that a command takes from `IMG`. Where `IMG` names none the spec states neither a size nor a pixel: the size is a free value and
no pixel is written (log 12). -/
def State.imgValue (s : State) : Image :=
  match s.imgOperand with
  | some (_, img) => img
  | none => Image.fresh (Config.absentWidth s.port.ops.img) (Config.absentHeight s.port.ops.img)

/-- The bytes that a command takes from `BUF`; a free value where it names no buffer (log 12). -/
def State.bufValue (s : State) : List Byte :=
  match s.bufOperand with
  | some (_, buf) => buf
  | none => Config.absentBuffer s.port.ops.buf

/-- The bytes that a command takes from `FILE`; a free value where it names no file (log 12). -/
def State.fileValue (s : State) : List Byte :=
  match s.fileOperand with
  | some (_, f) => f
  | none => Config.absentFile s.port.ops.file

end Sys2Proof.Machine
end

