-- ==== Sys2Proof/Machine/Ops.lean ====
section
/-!
DEFINITION. The named operations: the three ways a command ends (60_exceptions.md R230), the check that the machine may run, writing the
host's memory, file accesses, free draws, and which operands a pending command uses.
-/

namespace Sys2Proof.Machine

/-- A command ends with status OK and its outputs (10_state.md R27); no command is pending then. -/
def State.endOk (s : State) (r : Result) : State :=
  { s with port := { s.port with cmd := none, status := Status.ok.code, result := r } }

/-- `raise <Status>`: a command ends with this status, `RESULT` empty, every operand unchanged (60_exceptions.md R242). -/
def State.endStatus (s : State) (st : Status) : State :=
  { s with port := { s.port with cmd := none, status := st.code, result := .empty } }

/-- `fault <Reason>`: TAKING A FAULT. The command ends, the sticky mark is set, neither `STATUS` nor `RESULT` is written
(10_state.md R27, R32; 60_exceptions.md R245). There is no return from one (R244). The operands stay as they were: DESIGN CHOICE, unsafe where a
claim rests on the operands of a faulted state (log 10). -/
def State.takeFault (s : State) (r : FaultReason) : State :=
  { s with port := { s.port with cmd := none }, faulted := some r }

/-- The mark `REFUSED` (60_exceptions.md R251). -/
def State.setRefused (s : State) : State :=
  { s with refused := true }

/-- While `FAULTED` or `REFUSED` is set no command has a step (10_state.md R32, 60_exceptions.md R245, R251). -/
def guarded (s : State) (o : Host.Outcome State Fault Refusal) : Host.Outcome State Fault Refusal :=
  match s.faulted with
  | some r => .fault (.faulted r)
  | none => if s.refused then .refused .refusedRun else o

/-- Write a packed buffer. -/
def State.setBuf (s : State) (h : Handle) (bs : List Byte) : State :=
  { s with mem := { s.mem with bufs := Store.put s.mem.bufs h bs } }

/-- Write a raster image. -/
def State.setImg (s : State) (h : Handle) (img : Image) : State :=
  { s with mem := { s.mem with imgs := Store.put s.mem.imgs h img } }

/-- Write a container file. -/
def State.setFile (s : State) (h : Handle) (bs : List Byte) : State :=
  { s with mem := { s.mem with files := Store.put s.mem.files h bs } }

/-- `BUF <- bs`: write the buffer that `BUF` names. Where it names none there is no buffer to write (log 12). -/
def State.writeBuf (s : State) (bs : List Byte) : State :=
  match s.bufOperand with
  | some (h, _) => s.setBuf h bs
  | none => s

/-- `IMG <- img`: write the image that `IMG` names. Where it names none there is no image to write (log 12). -/
def State.writeImg (s : State) (img : Image) : State :=
  match s.imgOperand with
  | some (h, _) => s.setImg h img
  | none => s

/-- Whether this instance's file access that comes after `k` more ones fails: `IO_FAIL` (20_memory.md R59, log 8). -/
def State.ioFails (s : State) (k : Nat) : Bool :=
  match s.port.ioAnswers[k]? with
  | some answer => answer
  | none => Config.ioFail s.port.lane (s.port.ioCount + k)

/-- The state after `n` file accesses of this instance. -/
def State.afterIo (s : State) (n : Nat) : State :=
  { s with port := { s.port with ioAnswers := s.port.ioAnswers.drop n, ioCount := s.port.ioCount + n } }

/-- A fresh byte sequence of `n` bytes, each a free draw of this instance (43_container.md R200, D11; log 9). -/
def State.freshBytes (s : State) (n : Nat) : List Byte :=
  (List.range n).map fun k => Config.freeByte s.port.lane (s.port.drawCount + k)

/-- The state after `n` free draws of this instance. -/
def State.afterDraws (s : State) (n : Nat) : State :=
  { s with port := { s.port with drawCount := s.port.drawCount + n } }

/-- The handle of the file that a CONTAINER_WRITE of this instance makes next (43_container.md R200; log 14). -/
def State.freshFile (s : State) : Handle :=
  Store.fresh s.port.lane s.mem.files

/-- The handle of the image that a CONTAINER_READ of this instance makes next (43_container.md R201; log 14). -/
def State.freshImage (s : State) : Handle :=
  Store.fresh s.port.lane s.mem.imgs

/-- An image is canonical: its pixels' keys rise strictly and lie within its size. -/
def Image.wf (img : Image) : Bool :=
  Store.rising img.px && img.px.all fun e => e.1 < img.w * img.h

/-- The canonical form of the host's memory: handles rise strictly, and every image is canonical. -/
def Memory.wf (m : Memory) : Bool :=
  Store.rising m.bufs && Store.rising m.imgs && Store.rising m.files && m.imgs.all fun e => e.2.wf

/-- The three kinds of operand that a handle names. -/
inductive ObjectKind where
  | buffer
  | image
  | file
  deriving DecidableEq, Repr

/-- One operand that a command uses, and whether it writes it. -/
structure Access where
  kind : ObjectKind
  handle : Handle
  writes : Bool
  deriving DecidableEq, Repr

/-- The operand that a handle field names, if it names one. -/
def accessOf (kind : ObjectKind) (writes : Bool) (h : Option Handle) : List Access :=
  match h with
  | some x => [{ kind := kind, handle := x, writes := writes }]
  | none => []

/-- The operands that the command of a word uses, from the classes of 30_encoding.md R71: an illegal word and a format id without a codec read
none (R79, R80). -/
def wordFootprint (ops : Operands) (cls : Nat) (fmt : Byte) : List Access :=
  match cls, resolve fmt with
  | 0x1, .ok _ => accessOf .image false ops.img ++ accessOf .buffer true ops.buf
  | 0x2, .ok _ => accessOf .buffer false ops.buf ++ accessOf .image true ops.img
  | 0x4, _ => if fmt = 0 then accessOf .file false ops.file else []
  | _, _ => []

/-- Two uses of one object, at least one of them a write (20_memory.md R61). -/
def Access.conflicts (a b : Access) : Bool :=
  a.kind == b.kind && a.handle == b.handle && (a.writes || b.writes)

end Sys2Proof.Machine
end

