-- ==== Sys2Proof/Machine/Pixels.lean ====
section
/-!
DEFINITION. The per-pixel functions Pack_f and Unpack_f (42_pixel_formats.md R140 to R151) and the commands that expose them, PXPACK and PXUNPACK.
-/

namespace Sys2Proof.Machine

/-- `c >> 3` as a field of a 16-bit word (42_pixel_formats.md R154). -/
def field5 (c : Byte) : Half := c.zeroExtend 16 >>> 3

/-- `c >> 2` as a field of a 16-bit word (42_pixel_formats.md R154). -/
def field6 (c : Byte) : Half := c.zeroExtend 16 >>> 2

/-- `c / 16` as a 4-bit field of a byte (42_pixel_formats.md R148, R154). -/
def field4 (c : Byte) : Byte := c / 16

/-- `a / 255` as a field of a 16-bit word (42_pixel_formats.md R150, R154). -/
def field1 (a : Byte) : Half := (a / 255).zeroExtend 16

/-- The 16-bit word of an RGB565 pixel (42_pixel_formats.md R146). -/
def word565 (p : Pixel) : Half :=
  (field5 p.r <<< 11) ||| (field6 p.g <<< 5) ||| field5 p.b

/-- The 16-bit word of an RGBA5551 pixel (42_pixel_formats.md R150). DEDUCED, unsafe if wrong: the source does not state the colour shift, the spec
derives `c >> 3` from its round-trip property (log 20). -/
def word5551 (p : Pixel) : Half :=
  (field5 p.r <<< 11) ||| (field5 p.g <<< 6) ||| (field5 p.b <<< 1) ||| field1 p.a

/-- `Pack_f`: one pixel to `bpp(f)` bytes (42_pixel_formats.md R140, R142, R144, R146, R148, R150). -/
def pack (f : PixelFormat) (p : Pixel) : List Byte :=
  match f with
  | .rgba8 => [p.a, p.b, p.g, p.r]
  | .rgb8 => [p.b, p.g, p.r]
  | .a8 => [p.a]
  | .rgb565 => le16 (word565 p)
  | .rgba4 => [field4 p.a ||| (field4 p.b <<< 4), field4 p.g ||| (field4 p.r <<< 4)]
  | .rgba5551 => le16 (word5551 p)

/-- A 5-bit field of a 16-bit word at this bit, widened by `<< 3` (42_pixel_formats.md R155). -/
def widen5 (v : Half) (lo : Nat) : Byte := (v.extractLsb' lo 5).zeroExtend 8 <<< 3

/-- A 6-bit field of a 16-bit word at this bit, widened by `<< 2` (42_pixel_formats.md R155). -/
def widen6 (v : Half) (lo : Nat) : Byte := (v.extractLsb' lo 6).zeroExtend 8 <<< 2

/-- A 4-bit field of a byte at this bit, times 16 (42_pixel_formats.md R149). -/
def widen4 (v : Byte) (lo : Nat) : Byte := (v.extractLsb' lo 4).zeroExtend 8 * 16

/-- The 1-bit alpha of RGBA5551, 255 or 0 (42_pixel_formats.md R151). -/
def widen1 (v : Half) : Byte := if v.extractLsb' 0 1 = 1#1 then 255 else 0

/-- The pixel of an RGB565 word (42_pixel_formats.md R147). -/
def unpack565 (v : Half) : Pixel where
  r := widen5 v 11
  g := widen6 v 5
  b := widen5 v 0
  a := 255

/-- The pixel of an RGBA5551 word (42_pixel_formats.md R151). -/
def unpack5551 (v : Half) : Pixel where
  r := widen5 v 11
  g := widen5 v 6
  b := widen5 v 1
  a := widen1 v

/-- `Unpack_f`: the first `bpp(f)` bytes to one pixel (42_pixel_formats.md R141, R143, R145, R147, R149, R151); further bytes are ignored, and with fewer
bytes it is the fault BufferUnderrun (R157). `alpha` is `RGB8_DECODE_ALPHA`. -/
def unpack (alpha : Byte) (f : PixelFormat) (bs : List Byte) : Except FaultReason Pixel :=
  match f, bs with
  | .rgba8, b0 :: b1 :: b2 :: b3 :: _ => .ok { r := b3, g := b2, b := b1, a := b0 }
  | .rgb8, b0 :: b1 :: b2 :: _ => .ok { r := b2, g := b1, b := b0, a := alpha }
  | .a8, b0 :: _ => .ok { r := 0, g := 0, b := 0, a := b0 }
  | .rgb565, b0 :: b1 :: _ => .ok (unpack565 (fromLe16 b0 b1))
  | .rgba4, b0 :: b1 :: _ => .ok { r := widen4 b1 4, g := widen4 b1 0, b := widen4 b0 4, a := widen4 b0 0 }
  | .rgba5551, b0 :: b1 :: _ => .ok (unpack5551 (fromLe16 b0 b1))
  | _, _ => .error .bufferUnderrun

/-- PXPACK with a format id: resolve it, then pack `ARG_PIXEL` (42_pixel_formats.md R157). -/
def pxpackCommand (fmt : Byte) (s : State) : Host.Outcome State Fault Refusal :=
  guarded s <|
    match resolve fmt with
    | .error st => .next (s.endStatus st)
    | .ok f => .next (s.endOk (.bytes (pack f s.port.ops.argPixel)))

/-- PXUNPACK with a format id: resolve it, then unpack `ARG_BYTES` (42_pixel_formats.md R157). -/
def pxunpackCommand (fmt : Byte) (s : State) : Host.Outcome State Fault Refusal :=
  guarded s <|
    match resolve fmt with
    | .error st => .next (s.endStatus st)
    | .ok f =>
      match unpack s.rgb8DecodeAlpha f s.port.ops.argBytes with
      | .error r => .next (s.takeFault r)
      | .ok p => .next (s.endOk (.pixel p))

/-- PXPACK.RGBA8 (42_pixel_formats.md R140) -/
def execPxpackRgba8 (s : State) : Host.Outcome State Fault Refusal := pxpackCommand 0 s

/-- PXPACK.RGB8 (42_pixel_formats.md R142) -/
def execPxpackRgb8 (s : State) : Host.Outcome State Fault Refusal := pxpackCommand 1 s

/-- PXPACK.A8 (42_pixel_formats.md R144) -/
def execPxpackA8 (s : State) : Host.Outcome State Fault Refusal := pxpackCommand 2 s

/-- PXPACK.RGB565 (42_pixel_formats.md R146) -/
def execPxpackRgb565 (s : State) : Host.Outcome State Fault Refusal := pxpackCommand 6 s

/-- PXPACK.RGBA4 (42_pixel_formats.md R148) -/
def execPxpackRgba4 (s : State) : Host.Outcome State Fault Refusal := pxpackCommand 7 s

/-- PXPACK.RGBA5551 (42_pixel_formats.md R150) -/
def execPxpackRgba5551 (s : State) : Host.Outcome State Fault Refusal := pxpackCommand 5 s

/-- PXPACK.ETC1 (42_pixel_formats.md R152) -/
def execPxpackEtc1 (s : State) : Host.Outcome State Fault Refusal := pxpackCommand 4 s

/-- PXPACK.#nn (42_pixel_formats.md R157, 30_encoding.md R79) -/
def execPxpackInvalid (fmt : Byte) (s : State) : Host.Outcome State Fault Refusal := pxpackCommand fmt s

/-- PXUNPACK.RGBA8 (42_pixel_formats.md R141) -/
def execPxunpackRgba8 (s : State) : Host.Outcome State Fault Refusal := pxunpackCommand 0 s

/-- PXUNPACK.RGB8 (42_pixel_formats.md R143) -/
def execPxunpackRgb8 (s : State) : Host.Outcome State Fault Refusal := pxunpackCommand 1 s

/-- PXUNPACK.A8 (42_pixel_formats.md R145) -/
def execPxunpackA8 (s : State) : Host.Outcome State Fault Refusal := pxunpackCommand 2 s

/-- PXUNPACK.RGB565 (42_pixel_formats.md R147) -/
def execPxunpackRgb565 (s : State) : Host.Outcome State Fault Refusal := pxunpackCommand 6 s

/-- PXUNPACK.RGBA4 (42_pixel_formats.md R149) -/
def execPxunpackRgba4 (s : State) : Host.Outcome State Fault Refusal := pxunpackCommand 7 s

/-- PXUNPACK.RGBA5551 (42_pixel_formats.md R151) -/
def execPxunpackRgba5551 (s : State) : Host.Outcome State Fault Refusal := pxunpackCommand 5 s

/-- PXUNPACK.ETC1 (42_pixel_formats.md R153) -/
def execPxunpackEtc1 (s : State) : Host.Outcome State Fault Refusal := pxunpackCommand 4 s

/-- PXUNPACK.#nn (42_pixel_formats.md R157, 30_encoding.md R79) -/
def execPxunpackInvalid (fmt : Byte) (s : State) : Host.Outcome State Fault Refusal := pxunpackCommand fmt s

end Sys2Proof.Machine
end

