-- ==== Sys2Proof/Machine/Codec.lean ====
section
/-!
DEFINITION. The codec engines: the shared block iteration (41_codec_engines.md R105 to R115) and the ENCODE and DECODE commands.
-/

namespace Sys2Proof.Machine

/-- The traversal cursor `(by, bx, i, cursor)` (10_state.md R24): block row, block column, traversal index, and the byte offset of the block. -/
structure Cursor where
  row : Nat
  col : Nat
  idx : Fin 64
  byte : Nat
  deriving DecidableEq, Repr

/-- The blocks of an `nbx` × `nby` grid in row-major order, `(by, bx)` (41_codec_engines.md R106). -/
def blocks (nbx nby : Nat) : List (Nat × Nat) :=
  (List.range nby).flatMap fun r => (List.range nbx).map fun c => (r, c)

/-- The 64 cursors of one block (41_codec_engines.md R106). -/
def blockCursors (b : Nat × Nat) (byte : Nat) : List Cursor :=
  (List.finRange 64).map fun i => { row := b.1, col := b.2, idx := i, byte := byte }

/-- The cursors of these blocks: the byte cursor advances by `64 * n` after each block (41_codec_engines.md R106). -/
def cursorsFrom (n : Nat) : Nat → List (Nat × Nat) → List Cursor
  | _, [] => []
  | byte, b :: bs => blockCursors b byte ++ cursorsFrom n (byte + 64 * n) bs

/-- The whole traversal: the byte cursor starts at 0 (41_codec_engines.md R106). -/
def traversal (n nbx nby : Nat) : List Cursor :=
  cursorsFrom n 0 (blocks nbx nby)

/-- The packed buffer offset of a cursor's pixel group, `cursor + i * bpp` (41_codec_engines.md R107). DEDUCED, unsafe if wrong: the spec derives it (log 20). -/
def Cursor.offset (n : Nat) (c : Cursor) : Nat :=
  c.byte + c.idx.val * n

/-- The image column of a cursor's pixel (41_codec_engines.md R108). -/
def Cursor.x (t : TileTable) (c : Cursor) : Nat :=
  c.col * Config.blockEdge + (tilePos t c.idx).1

/-- The image row of a cursor's pixel (41_codec_engines.md R108). -/
def Cursor.y (t : TileTable) (c : Cursor) : Nat :=
  c.row * Config.blockEdge + (tilePos t c.idx).2

/-- `off(bx, by, i)` (41_codec_engines.md R107), `by` being the block row: the closed form, which the traversal's offsets are proved to have; it never wraps (log 26). -/
def groupOffset (f : PixelFormat) (nbx bx row i : Nat) : Nat :=
  ((row * nbx + bx) * 64 + i) * bpp f

/-- `need(f, W, H)`: the bytes a W×H command touches (41_codec_engines.md R111). -/
def need (f : PixelFormat) (w h : Nat) : Nat :=
  (w / Config.blockEdge) * (h / Config.blockEdge) * 64 * bpp f

/-- The inner loop of BlockEncode (41_codec_engines.md R113). -/
def encodeLoop (t : TileTable) (f : PixelFormat) (img : Image) : List Cursor → List Byte → Except FaultReason (List Byte)
  | [], buf => .ok buf
  | c :: cs, buf =>
    match img.read (c.x t) (c.y t) with
    | .error r => .error r
    | .ok p =>
      match memWrite buf (c.offset (bpp f)) (pack f p) with
      | .error r => .error r
      | .ok buf' => encodeLoop t f img cs buf'

/-- BlockEncode (41_codec_engines.md R113): the new contents of the packed buffer. -/
def blockEncode (t : TileTable) (f : PixelFormat) (img : Image) (buf : List Byte) : Except FaultReason (List Byte) :=
  if !(dimOk img.w && dimOk img.h) then .error .dimensionOutOfRange
  else if buf.length < need f img.w img.h then .error .bufferUnderrun
  else encodeLoop t f img (traversal (bpp f) (img.w / Config.blockEdge) (img.h / Config.blockEdge)) buf

/-- The inner loop of BlockDecode (41_codec_engines.md R114). -/
def decodeLoop (t : TileTable) (alpha : Byte) (f : PixelFormat) (buf : List Byte) : List Cursor → Image → Except FaultReason Image
  | [], img => .ok img
  | c :: cs, img =>
    match memRead buf (c.offset (bpp f)) (bpp f) with
    | .error r => .error r
    | .ok bs =>
      match unpack alpha f bs with
      | .error r => .error r
      | .ok p =>
        match img.write (c.x t) (c.y t) p with
        | .error r => .error r
        | .ok img' => decodeLoop t alpha f buf cs img'

/-- BlockDecode (41_codec_engines.md R114): the new contents of the image. -/
def blockDecode (t : TileTable) (alpha : Byte) (f : PixelFormat) (buf : List Byte) (w h : Int) (img : Image) :
    Except FaultReason Image :=
  if !(dimOk w && dimOk h) then .error .dimensionOutOfRange
  else if buf.length < need f w.toNat h.toNat then .error .bufferUnderrun
  else
    decodeLoop t alpha f buf (traversal (bpp f) (w.toNat / Config.blockEdge) (h.toNat / Config.blockEdge)) img

/-- The state after ENCODE of a resolved format: `BUF <- BlockEncode(f, IMG, BUF)`, `RESULT <- BUF`, or the fault (41_codec_engines.md R113). -/
def State.afterEncode (s : State) (f : PixelFormat) : State :=
  match blockEncode s.tileOrder f s.imgValue s.bufValue with
  | .error r => s.takeFault r
  | .ok out => (s.writeBuf out).endOk (.buffer s.port.ops.buf)

/-- ENCODE with a format id (41_codec_engines.md R115): resolve it, then BlockEncode `IMG` into `BUF`. -/
def encodeCommand (fmt : Byte) (s : State) : Host.Outcome State Fault Refusal :=
  guarded s <|
    match resolve fmt with
    | .error st => .next (s.endStatus st)
    | .ok f => .next (s.afterEncode f)

/-- The state after DECODE of a resolved format: `IMG <- BlockDecode(f, BUF, W, H, IMG)`, `RESULT <- IMG`, or the fault (41_codec_engines.md
R114). -/
def State.afterDecode (s : State) (f : PixelFormat) : State :=
  match blockDecode s.tileOrder s.rgb8DecodeAlpha f s.bufValue s.port.ops.argW s.port.ops.argH s.imgValue with
  | .error r => s.takeFault r
  | .ok out => (s.writeImg out).endOk (.image s.port.ops.img)

/-- DECODE with a format id (41_codec_engines.md R115): resolve it, then BlockDecode `BUF`, `ARG_W`, `ARG_H` into `IMG`. -/
def decodeCommand (fmt : Byte) (s : State) : Host.Outcome State Fault Refusal :=
  guarded s <|
    match resolve fmt with
    | .error st => .next (s.endStatus st)
    | .ok f => .next (s.afterDecode f)

/-- ENCODE.RGBA8 (41_codec_engines.md R116) -/
def execEncodeRgba8 (s : State) : Host.Outcome State Fault Refusal := encodeCommand 0 s

/-- ENCODE.RGB8 (41_codec_engines.md R117) -/
def execEncodeRgb8 (s : State) : Host.Outcome State Fault Refusal := encodeCommand 1 s

/-- ENCODE.A8 (41_codec_engines.md R118) -/
def execEncodeA8 (s : State) : Host.Outcome State Fault Refusal := encodeCommand 2 s

/-- ENCODE.RGB565 (41_codec_engines.md R119) -/
def execEncodeRgb565 (s : State) : Host.Outcome State Fault Refusal := encodeCommand 6 s

/-- ENCODE.RGBA4 (41_codec_engines.md R120) -/
def execEncodeRgba4 (s : State) : Host.Outcome State Fault Refusal := encodeCommand 7 s

/-- ENCODE.RGBA5551 (41_codec_engines.md R121) -/
def execEncodeRgba5551 (s : State) : Host.Outcome State Fault Refusal := encodeCommand 5 s

/-- ENCODE.ETC1 (41_codec_engines.md R122) -/
def execEncodeEtc1 (s : State) : Host.Outcome State Fault Refusal := encodeCommand 4 s

/-- ENCODE.#nn (41_codec_engines.md R115, 30_encoding.md R79) -/
def execEncodeInvalid (fmt : Byte) (s : State) : Host.Outcome State Fault Refusal := encodeCommand fmt s

/-- DECODE.RGBA8 (41_codec_engines.md R123) -/
def execDecodeRgba8 (s : State) : Host.Outcome State Fault Refusal := decodeCommand 0 s

/-- DECODE.RGB8 (41_codec_engines.md R124) -/
def execDecodeRgb8 (s : State) : Host.Outcome State Fault Refusal := decodeCommand 1 s

/-- DECODE.A8 (41_codec_engines.md R125) -/
def execDecodeA8 (s : State) : Host.Outcome State Fault Refusal := decodeCommand 2 s

/-- DECODE.RGB565 (41_codec_engines.md R126) -/
def execDecodeRgb565 (s : State) : Host.Outcome State Fault Refusal := decodeCommand 6 s

/-- DECODE.RGBA4 (41_codec_engines.md R127) -/
def execDecodeRgba4 (s : State) : Host.Outcome State Fault Refusal := decodeCommand 7 s

/-- DECODE.RGBA5551 (41_codec_engines.md R128) -/
def execDecodeRgba5551 (s : State) : Host.Outcome State Fault Refusal := decodeCommand 5 s

/-- DECODE.ETC1 (41_codec_engines.md R129) -/
def execDecodeEtc1 (s : State) : Host.Outcome State Fault Refusal := decodeCommand 4 s

/-- DECODE.#nn (41_codec_engines.md R115, 30_encoding.md R79) -/
def execDecodeInvalid (fmt : Byte) (s : State) : Host.Outcome State Fault Refusal := decodeCommand fmt s

end Sys2Proof.Machine
end

