-- ==== Sys2Proof/Machine/Container.lean ====
section
/-!
DEFINITION. The container header serializer and format dispatch (43_container.md): HDR_WRITE, HDR_READ, FMT_RESOLVE, and the two whole-container
sequences CONTAINER_WRITE and CONTAINER_READ.
-/

namespace Sys2Proof.Machine

/-- The 128-byte header (43_container.md R195, 20_memory.md R53): nine reserved bytes at 0x07 (90_conflicts.md C1). -/
def headerBytes (fmt : Byte) (w h : Int) : List Byte :=
  magic ++ List.replicate 9 0 ++ le16 (BitVec.ofInt 16 w) ++ le16 (BitVec.ofInt 16 h) ++ [fmt] ++ List.replicate 0x6B 0

/-- FMT_RESOLVE.<f> (43_container.md R193) -/
def execFmtResolve (fmt : Byte) (s : State) : Host.Outcome State Fault Refusal :=
  guarded s <|
    match resolve fmt with
    | .error st => .next (s.endStatus st)
    | .ok f => .next (s.endOk (.format f (bpp f)))

/-- HDR_WRITE.<f> W, H (43_container.md R195) -/
def execHdrWrite (fmt : Byte) (s : State) : Host.Outcome State Fault Refusal :=
  guarded s <|
    match resolve fmt with
    | .error st => .next (s.endStatus st)
    | .ok _ =>
      if dimOk s.port.ops.argW && dimOk s.port.ops.argH then
        .next (s.endOk (.bytes (headerBytes fmt s.port.ops.argW s.port.ops.argH)))
      else .next (s.takeFault .dimensionOutOfRange)

/-- What HDR_READ leaves of a header (10_state.md R30). -/
structure HeaderFields where
  w : Int
  h : Int
  fmt : Byte
  deriving DecidableEq, Repr

/-- The byte at an offset of a file; used within the file only. -/
def fileByte (f : List Byte) (o : Nat) : Byte :=
  f.getD o 0

/-- The fields at 0x10..0x14 (43_container.md R194, R197). -/
def headerFields (f : List Byte) : HeaderFields where
  w := sext16 (fromLe16 (fileByte f 0x10) (fileByte f 0x11))
  h := sext16 (fromLe16 (fileByte f 0x12) (fileByte f 0x13))
  fmt := fileByte f 0x14

/-- HDR_READ's pseudocode (43_container.md R196, R197) on a file, with the two answers of `IO_FAIL`: what it gives, and how many file accesses
it has made. -/
def readHeader (f : List Byte) (fails0 fails1 : Bool) : Except Status HeaderFields × Nat :=
  if fails0 then (.error .ioError, 1)
  else if f.length < 7 ∨ f.take 7 ≠ magic then (.error .invalidMagic, 1)
  else if f.length < 0x15 then (.error .ioError, 1)
  else if fails1 then (.error .ioError, 2)
  else (.ok (headerFields f), 2)

/-- The state after HDR_READ of a file. -/
def State.afterHdrRead (s : State) (f : List Byte) : State :=
  let r := readHeader f (s.ioFails 0) (s.ioFails 1)
  match r.1 with
  | .error st => (s.afterIo r.2).endStatus st
  | .ok d => (s.afterIo r.2).endOk (.header d.w d.h d.fmt)

/-- HDR_READ file (43_container.md R197) -/
def execHdrRead (s : State) : Host.Outcome State Fault Refusal :=
  guarded s (.next (s.afterHdrRead s.fileValue))

/-- The state after CONTAINER_WRITE of an image in a resolved format (43_container.md R200): header, fresh buffer, encode, then the one file
access; the file gets a fresh handle (log 14). -/
def State.afterContainerWrite (s : State) (fmt : Byte) (f : PixelFormat) (img : Image) : State :=
  if !(dimOk img.w && dimOk img.h) then s.takeFault .dimensionOutOfRange
  else
    let n := img.w * img.h * bpp f
    let s' := s.afterDraws n
    match blockEncode s.tileOrder f img (s.freshBytes n) with
    | .error r => s'.takeFault r
    | .ok payload =>
      if s.ioFails 0 then (s'.afterIo 1).endStatus .ioError
      else ((s'.afterIo 1).setFile s.freshFile (headerBytes fmt img.w img.h ++ payload)).endOk (.file s.freshFile)

/-- CONTAINER_WRITE.<f> img -> file (43_container.md R200) -/
def containerWrite (fmt : Byte) (s : State) : Host.Outcome State Fault Refusal :=
  guarded s <|
    match resolve fmt with
    | .error st => .next (s.endStatus st)
    | .ok f => .next (s.afterContainerWrite fmt f s.imgValue)

/-- CONTAINER_READ after its header, from format resolution on (43_container.md R199, R201; the order of 60_exceptions.md R240), `n` file accesses made.
The image gets a fresh handle (log 14). -/
def State.afterPayload (s : State) (file : List Byte) (d : HeaderFields) (n : Nat) : State :=
  match resolve d.fmt with
  | .error st => (s.afterIo n).endStatus st
  | .ok f =>
    if file.length < Config.headerSize then (s.afterIo n).endStatus .ioError
    else if s.ioFails n then (s.afterIo (n + 1)).endStatus .ioError
    else if !(dimOk d.w && dimOk d.h) then (s.afterIo (n + 1)).takeFault .dimensionOutOfRange
    else
      match blockDecode s.tileOrder s.rgb8DecodeAlpha f (file.drop Config.payloadOffset) d.w d.h
          (Image.fresh d.w.toNat d.h.toNat) with
      | .error r => (s.afterIo (n + 1)).takeFault r
      | .ok img => ((s.afterIo (n + 1)).setImg s.freshImage img).endOk (.image (some s.freshImage))

/-- The state after CONTAINER_READ of a file (43_container.md R201). -/
def State.afterContainerRead (s : State) (file : List Byte) : State :=
  let r := readHeader file (s.ioFails 0) (s.ioFails 1)
  match r.1 with
  | .error st => (s.afterIo r.2).endStatus st
  | .ok d => s.afterPayload file d r.2

/-- CONTAINER_READ file -> img (43_container.md R201) -/
def containerRead (s : State) : Host.Outcome State Fault Refusal :=
  guarded s (.next (s.afterContainerRead s.fileValue))

end Sys2Proof.Machine
end

