-- ==== Sys2Proof/Machine/Tile.lean ====
section
/-!
DEFINITION. TILE_LOOKUP (40_tile_order.md R100).
-/

namespace Sys2Proof.Machine

/-- TILE_LOOKUP idx: the table's entry and its column and row (40_tile_order.md R100). -/
def execTileLookup (idx : BitVec 6) (s : State) : Host.Outcome State Fault Refusal :=
  guarded s <|
    let pos := tilePos s.tileOrder idx.toFin
    .next (s.endOk (.tile s.tileOrder[idx.toFin].val pos.1 pos.2))

end Sys2Proof.Machine
end

