-- ==== Sys2Proof/Machine/Dispatch.lean ====
section
/-!
DEFINITION. What each command does: one arm for each row of the opcode table.
-/

namespace Sys2Proof.Machine

def exec (i : Instr) (s : State) : Host.Outcome State Fault Refusal :=
  match i with
  | .encodeRgba8 => Sys2Proof.Machine.execEncodeRgba8 s
  | .encodeRgb8 => Sys2Proof.Machine.execEncodeRgb8 s
  | .encodeA8 => Sys2Proof.Machine.execEncodeA8 s
  | .encodeRgb565 => Sys2Proof.Machine.execEncodeRgb565 s
  | .encodeRgba4 => Sys2Proof.Machine.execEncodeRgba4 s
  | .encodeRgba5551 => Sys2Proof.Machine.execEncodeRgba5551 s
  | .encodeEtc1 => Sys2Proof.Machine.execEncodeEtc1 s
  | .decodeRgba8 => Sys2Proof.Machine.execDecodeRgba8 s
  | .decodeRgb8 => Sys2Proof.Machine.execDecodeRgb8 s
  | .decodeA8 => Sys2Proof.Machine.execDecodeA8 s
  | .decodeRgb565 => Sys2Proof.Machine.execDecodeRgb565 s
  | .decodeRgba4 => Sys2Proof.Machine.execDecodeRgba4 s
  | .decodeRgba5551 => Sys2Proof.Machine.execDecodeRgba5551 s
  | .decodeEtc1 => Sys2Proof.Machine.execDecodeEtc1 s
  | .pxpackRgba8 => Sys2Proof.Machine.execPxpackRgba8 s
  | .pxpackRgb8 => Sys2Proof.Machine.execPxpackRgb8 s
  | .pxpackA8 => Sys2Proof.Machine.execPxpackA8 s
  | .pxpackRgb565 => Sys2Proof.Machine.execPxpackRgb565 s
  | .pxpackRgba4 => Sys2Proof.Machine.execPxpackRgba4 s
  | .pxpackRgba5551 => Sys2Proof.Machine.execPxpackRgba5551 s
  | .pxpackEtc1 => Sys2Proof.Machine.execPxpackEtc1 s
  | .pxunpackRgba8 => Sys2Proof.Machine.execPxunpackRgba8 s
  | .pxunpackRgb8 => Sys2Proof.Machine.execPxunpackRgb8 s
  | .pxunpackA8 => Sys2Proof.Machine.execPxunpackA8 s
  | .pxunpackRgb565 => Sys2Proof.Machine.execPxunpackRgb565 s
  | .pxunpackRgba4 => Sys2Proof.Machine.execPxunpackRgba4 s
  | .pxunpackRgba5551 => Sys2Proof.Machine.execPxunpackRgba5551 s
  | .pxunpackEtc1 => Sys2Proof.Machine.execPxunpackEtc1 s
  | .encodeInvalid fmt => Sys2Proof.Machine.execEncodeInvalid fmt s
  | .decodeInvalid fmt => Sys2Proof.Machine.execDecodeInvalid fmt s
  | .pxpackInvalid fmt => Sys2Proof.Machine.execPxpackInvalid fmt s
  | .pxunpackInvalid fmt => Sys2Proof.Machine.execPxunpackInvalid fmt s
  | .hdrWrite fmt => Sys2Proof.Machine.execHdrWrite fmt s
  | .hdrRead => Sys2Proof.Machine.execHdrRead s
  | .fmtResolve fmt => Sys2Proof.Machine.execFmtResolve fmt s
  | .tileLookup idx => Sys2Proof.Machine.execTileLookup idx s

end Sys2Proof.Machine
end

