-- ==== Sys2Proof/Machine/Engine.lean ====
section
/-!
DEFINITION. Running: the pending command of the instance whose turn it is, the host's actions, and one step of the whole machine.
-/

namespace Sys2Proof.Machine

/-- The operands of a command of an instance: the objects that its handle fields name, as far as the command uses them. -/
def Port.commandOperands (p : Port) : Command → List Access
  | .word w =>
    match decode w with
    | .ok _ => wordFootprint p.ops w.cls.toNat w.arg
    | .error _ => []
  | .containerWrite fmt =>
    match resolve fmt with
    | .ok _ => accessOf .image false p.ops.img
    | .error _ => []
  | .containerRead => accessOf .file false p.ops.file

/-- The objects that a command of an instance uses (20_memory.md R61): its operands, and the file that CONTAINER_WRITE makes and writes, or the
image that CONTAINER_READ makes and writes, under the instance's next fresh handle (log 14). -/
def Port.commandFootprint (p : Port) (m : Memory) (c : Command) : List Access :=
  match c with
  | .word _ => p.commandOperands c
  | .containerWrite fmt =>
    match resolve fmt with
    | .ok _ => p.commandOperands c ++ accessOf .file true (some (Store.fresh p.lane m.files))
    | .error _ => []
  | .containerRead => p.commandOperands c ++ accessOf .image true (some (Store.fresh p.lane m.imgs))

/-- The operands of the command that an instance runs now; none if no command is pending. -/
def Port.operands (p : Port) : List Access :=
  match p.cmd with
  | some c => p.commandOperands c
  | none => []

/-- The objects that the command of an instance uses now; none if no command is pending. -/
def Port.footprint (p : Port) (m : Memory) : List Access :=
  match p.cmd with
  | some c => p.commandFootprint m c
  | none => []

/-- Two commands that run concurrently overlap in an object that one of them writes (20_memory.md R61). -/
def Port.overlaps (p q : Port) (m : Memory) : Bool :=
  (p.footprint m).any fun a => (q.footprint m).any fun b => a.conflicts b

/-- The pending command of this instance overlaps with a command that is pending on another one (20_memory.md R61, 60_exceptions.md R251). -/
def State.overlapped (s : State) : Bool :=
  s.others.any fun q => s.port.overlaps q s.mem

/-- An illegal command word: status IllegalCommand and nothing else (30_encoding.md R80). -/
def illegalCommand (s : State) : Host.Outcome State Fault Refusal :=
  guarded s (.next (s.endStatus .illegalCommand))

/-- Run a command: decode a word and run its instruction (30_encoding.md R78), or run a whole-container sequence. -/
def runCommand (c : Command) (s : State) : Host.Outcome State Fault Refusal :=
  match c with
  | .word w =>
    match decode w with
    | .ok i => exec i s
    | .error _ => illegalCommand s
  | .containerWrite fmt => containerWrite fmt s
  | .containerRead => containerRead s

/-- The next instance has its turn; the one that had it comes last (60_exceptions.md R257; log 16). -/
def State.turn (s : State) : State :=
  match s.others with
  | [] => s
  | q :: qs => { s with port := q, others := qs ++ [s.port] }

/-- The instance whose turn it is runs its pending command to its end, or is passed over when none is pending (log 1). Commands
that overlap set the mark `REFUSED` (20_memory.md R61). -/
def runPending (s : State) : Host.Outcome State Fault Refusal :=
  match s.port.cmd with
  | none => .next s.turn
  | some c => if s.overlapped then .next s.setRefused else runCommand c s

/-- An object is an operand of a command that runs now on some instance (70_reset_and_hazards.md R277). -/
def State.inUse (s : State) (kind : ObjectKind) (h : Handle) : Bool :=
  (s.port :: s.others).any fun p => p.operands.any fun a => a.kind == kind && a.handle == h

/-- Write one listed pixel `(x, y, px)`; a pixel outside the image is passed over. -/
def Image.writeListed (img : Image) (e : Nat × Nat × Pixel) : Image :=
  match img.write e.1 e.2.1 e.2.2 with
  | .ok img' => img'
  | .error _ => img

/-- An image of this size with these pixels written, one after the other. -/
def Image.ofPixels (w h : Nat) (px : List (Nat × Nat × Pixel)) : Image :=
  px.foldl Image.writeListed (Image.fresh w h)

/-- The interface of an instance after a reset of the block (70_reset_and_hazards.md R270): its command interface at the reset values; its lane and the
numbers of its free values go on (log 17). -/
def Port.restart (p : Port) : Port :=
  { Port.reset p.lane with ioAnswers := p.ioAnswers, ioCount := p.ioCount, drawCount := p.drawCount }

/-- Reset of the block (70_reset_and_hazards.md R270, R272): every command interface is at its reset value, no mark is set, what the host
owns stays as it was; the constant table and parameter stay (log 17). -/
def State.resetBlock (s : State) : State :=
  { s with port := s.port.restart, others := s.others.map Port.restart, faulted := none, refused := false }

/-- A lane that no started instance has (log 14). -/
def State.nextLane (s : State) : Nat :=
  (s.port :: s.others).foldr (fun p n => max (p.lane + 1) n) 0

/-- What a host action does. A write to an operand of a running command, or of the command field of an instance that runs one, sets
`REFUSED` (70_reset_and_hazards.md R277; log 24). -/
def hostStep (a : HostAction) (s : State) : Host.Outcome State Fault Refusal :=
  match a with
  | .issue c ops =>
    if s.port.cmd.isSome then .next s.setRefused
    else .next { s with port := { s.port with cmd := some c, ops := ops } }
  | .complete => runPending s
  | .turn => .next s.turn
  | .start => .next { s with others := s.others ++ [Port.reset s.nextLane] }
  | .putBuffer h bs => if s.inUse .buffer h then .next s.setRefused else .next (s.setBuf h bs)
  | .putImage h w ht px => if s.inUse .image h then .next s.setRefused else .next (s.setImg h (Image.ofPixels w ht px))
  | .putFile h bs => if s.inUse .file h then .next s.setRefused else .next (s.setFile h bs)
  | .reset => .next s.resetBlock

/-- One step: the host's next action if one is to come, else the instance whose turn it is goes on (log 1). With a mark set there is
no step (10_state.md R32, 60_exceptions.md R245, R251). -/
def stepState (s : State) : Host.Outcome State Fault Refusal :=
  guarded s <|
    match s.host with
    | [] => runPending s
    | a :: rest => hostStep a { s with host := rest }

/-- Give `IMG` an empty image where it names none. -/
def State.supplyImg (s : State) : State :=
  match s.imgOperand with
  | some _ => s
  | none =>
    let h := Store.fresh s.port.lane s.mem.imgs
    { s.setImg h (Image.fresh 0 0) with port := { s.port with ops := { s.port.ops with img := some h } } }

/-- Give `BUF` an empty buffer where it names none. -/
def State.supplyBuf (s : State) : State :=
  match s.bufOperand with
  | some _ => s
  | none =>
    let h := Store.fresh s.port.lane s.mem.bufs
    { s.setBuf h [] with port := { s.port with ops := { s.port.ops with buf := some h } } }

/-- Give `FILE` an empty file where it names none. -/
def State.supplyFile (s : State) : State :=
  match s.fileOperand with
  | some _ => s
  | none =>
    let h := Store.fresh s.port.lane s.mem.files
    { s.setFile h [] with port := { s.port with ops := { s.port.ops with file := some h } } }

/-- The host hands the instance this word with its operands and waits for it (00_scope.md R10): the word becomes the pending command, a
handle that names nothing gets an empty object, and the host's next action is to wait for the command (log 18). -/
def State.issueWord (s : State) (w : Half) : State :=
  let s' := s.supplyImg.supplyBuf.supplyFile
  { s' with port := { s'.port with cmd := some (.word w) }, host := .complete :: s'.host }

end Sys2Proof.Machine
end

