-- ==== Sys2Proof/Machine/Step.lean ====
section
/-!
DEFINITION. One step of the machine, and the placing of a command word for the next step.
-/

namespace Sys2Proof.Machine

/-- One step: a host action, or the pending command of the instance whose turn it is. -/
def step (s : State) : Host.Outcome State Fault Refusal :=
  stepState s

/-- `s` with the command whose table bits are `w` issued, so that the very next step runs it (log 18). -/
def State.withFetchWord (s : State) (nbits w : Nat) : State :=
  s.issueWord (tableWord nbits w)

end Sys2Proof.Machine
end

