-- ==== Sys2Proof/Machine/Assembler.lean ====
section
/-!
DEFINITION. The assembler notation of a command (30_encoding.md R89).
-/

namespace Sys2Proof.Machine

/-- A hexadecimal digit. -/
def hexDigit (n : Nat) : String :=
  (["0", "1", "2", "3", "4", "5", "6", "7", "8", "9", "A", "B", "C", "D", "E", "F"][n]?).getD "?"

/-- The format part of a mnemonic: the name of 30_encoding.md R73, or `#nn` for an undefined id (R89). -/
def formatSuffix (fmt : Byte) : String :=
  match fmt.toNat with
  | 0 => "RGBA8"
  | 1 => "RGB8"
  | 2 => "A8"
  | 4 => "ETC1"
  | 5 => "RGBA5551"
  | 6 => "RGB565"
  | 7 => "RGBA4"
  | n => "#" ++ hexDigit (n / 16) ++ hexDigit (n % 16)

/-- ENCODE's form. -/
def asmEncode (fmt : Byte) : String := "ENCODE." ++ formatSuffix fmt ++ " img, buf"

/-- DECODE's form. -/
def asmDecode (fmt : Byte) : String := "DECODE." ++ formatSuffix fmt ++ " buf, W, H, img"

/-- PXPACK's form. -/
def asmPxpack (fmt : Byte) : String := "PXPACK." ++ formatSuffix fmt ++ " r, g, b, a"

/-- PXUNPACK's form, with as many bytes as the format reads; with the fewest where it has no length. -/
def asmPxunpack (fmt : Byte) : String :=
  "PXUNPACK." ++ formatSuffix fmt ++
    match resolve fmt with
    | .ok f =>
      match bpp f with
      | 4 => " b0, b1, b2, b3"
      | 3 => " b0, b1, b2"
      | 2 => " b0, b1"
      | _ => " b0"
    | .error _ => " b0"

/-- The assembler form of a command, its operands by the names of 30_encoding.md R89. -/
def assembly : Instr → String
  | .encodeRgba8 => asmEncode 0
  | .encodeRgb8 => asmEncode 1
  | .encodeA8 => asmEncode 2
  | .encodeEtc1 => asmEncode 4
  | .encodeRgba5551 => asmEncode 5
  | .encodeRgb565 => asmEncode 6
  | .encodeRgba4 => asmEncode 7
  | .encodeInvalid fmt => asmEncode fmt
  | .decodeRgba8 => asmDecode 0
  | .decodeRgb8 => asmDecode 1
  | .decodeA8 => asmDecode 2
  | .decodeEtc1 => asmDecode 4
  | .decodeRgba5551 => asmDecode 5
  | .decodeRgb565 => asmDecode 6
  | .decodeRgba4 => asmDecode 7
  | .decodeInvalid fmt => asmDecode fmt
  | .pxpackRgba8 => asmPxpack 0
  | .pxpackRgb8 => asmPxpack 1
  | .pxpackA8 => asmPxpack 2
  | .pxpackEtc1 => asmPxpack 4
  | .pxpackRgba5551 => asmPxpack 5
  | .pxpackRgb565 => asmPxpack 6
  | .pxpackRgba4 => asmPxpack 7
  | .pxpackInvalid fmt => asmPxpack fmt
  | .pxunpackRgba8 => asmPxunpack 0
  | .pxunpackRgb8 => asmPxunpack 1
  | .pxunpackA8 => asmPxunpack 2
  | .pxunpackEtc1 => asmPxunpack 4
  | .pxunpackRgba5551 => asmPxunpack 5
  | .pxunpackRgb565 => asmPxunpack 6
  | .pxunpackRgba4 => asmPxunpack 7
  | .pxunpackInvalid fmt => asmPxunpack fmt
  | .hdrWrite fmt => "HDR_WRITE." ++ formatSuffix fmt ++ " W, H"
  | .hdrRead => "HDR_READ file"
  | .fmtResolve fmt => "FMT_RESOLVE." ++ formatSuffix fmt
  | .tileLookup idx => "TILE_LOOKUP " ++ toString idx.toNat

end Sys2Proof.Machine
end

