-- ==== Sys2Proof/Safety.lean ====
section
/-!
DEFINITION. The terms the claims use: when the machine may run, what the source says of the Tile Order Table, the invariant, and the
operand preconditions of 70_reset_and_hazards.md R274.
-/

namespace Sys2Proof.Machine

/-- No sticky mark is set, so that commands have steps (10_state.md R32, 60_exceptions.md R251). -/
abbrev State.Live (s : State) : Prop :=
  s.faulted = none ∧ s.refused = false

/-- No value of the table appears twice; with 64 entries in 0..63 each then appears exactly once (40_tile_order.md R96). -/
abbrev TileInjective (t : TileTable) : Prop :=
  ∀ i j : Fin 64, t[i] = t[j] → i = j

/-- Traversal indices `k*len .. k*len + len - 1` fall in one aligned `edge` × `edge` square (40_tile_order.md R98 (d)). -/
abbrev TileNested (t : TileTable) (len edge : Nat) : Prop :=
  ∀ i j : Fin 64, i.val / len = j.val / len →
    (tilePos t i).1 / edge = (tilePos t j).1 / edge ∧ (tilePos t i).2 / edge = (tilePos t j).2 / edge

/-- What the source fixes of `TILE_ORDER` (40_tile_order.md R98 (a) to (d)). -/
abbrev TileOk (t : TileTable) : Prop :=
  TileInjective t ∧ TileNested t 4 2 ∧ TileNested t 16 4

/-- A command interface shows a code the block writes, and no output beside a status other than OK (60_exceptions.md R238, 10_state.md R27). -/
abbrev Port.Ok (p : Port) : Prop :=
  writtenCode p.status = true ∧ (p.status ≠ Status.ok.code → p.result = .empty)

/-- No two instances share a lane, so that no two share a free value or a fresh handle (logs 8, 9, 14). -/
abbrev State.LanesDiffer (s : State) : Prop :=
  ((s.port :: s.others).map Port.lane).Nodup

/-- The invariant: the host's memory is canonical, the table meets 40_tile_order.md R98, every interface is as `Port.Ok` says, no two instances
share a lane, and at most one mark is set. -/
abbrev State.Inv (s : State) : Prop :=
  s.mem.wf = true ∧ TileOk s.tileOrder ∧ s.port.Ok ∧ (∀ p ∈ s.others, p.Ok) ∧ s.LanesDiffer ∧ (s.faulted = none ∨ s.refused = false)

/-- Every pixel that ENCODE visits is written (70_reset_and_hazards.md R274 (c)). -/
abbrev Image.Covered (img : Image) : Prop :=
  ∀ x < img.w / Config.blockEdge * Config.blockEdge, ∀ y < img.h / Config.blockEdge * Config.blockEdge, (img.read x y).isOk = true

/-- ENCODE's operands: `IMG` names an image in range whose visited pixels are written, `BUF` a long enough buffer
(70_reset_and_hazards.md R274). -/
abbrev EncodeReady (s : State) (f : PixelFormat) (ih : Handle) (img : Image) (bh : Handle) (buf : List Byte) : Prop :=
  s.imgOperand = some (ih, img) ∧ s.bufOperand = some (bh, buf) ∧ dimOk img.w = true ∧ dimOk img.h = true ∧
    need f img.w img.h ≤ buf.length ∧ img.Covered

/-- DECODE's operands: `ARG_W` and `ARG_H` are in range, `BUF` is long enough, `IMG` covers the visited region
(70_reset_and_hazards.md R274). -/
abbrev DecodeReady (s : State) (f : PixelFormat) (bh : Handle) (buf : List Byte) (ih : Handle) (img : Image) (w h : Nat) : Prop :=
  s.bufOperand = some (bh, buf) ∧ s.imgOperand = some (ih, img) ∧ s.port.ops.argW = w ∧ s.port.ops.argH = h ∧
    w ≤ Config.maxDim ∧ h ≤ Config.maxDim ∧ need f w h ≤ buf.length ∧
    w / Config.blockEdge * Config.blockEdge ≤ img.w ∧ h / Config.blockEdge * Config.blockEdge ≤ img.h

/-- A run of `k` steps ends in a state without a mark: no fault, no refusal on the way. -/
def SafeRun : Nat → State → Prop
  | 0, s => s.Live
  | k + 1, s => ∃ t, step s = .next t ∧ SafeRun k t

end Sys2Proof.Machine
end

