-- ==== Sys2Proof/Certificates/Slice0/Obligations.lean ====
section
/-!
DEFINITION. The statements about the machine, one `def Obligations.<Name> : Prop` each. Those marked `stated` in OBLIGATIONS.json
formalise numbered rules of the spec.
-/

namespace Sys2Proof.Claims

open Sys2Proof.Machine

/-- ENCODE of a format that has a codec. -/
def encodeInstr : PixelFormat → Instr
  | .rgba8 => .encodeRgba8
  | .rgb8 => .encodeRgb8
  | .a8 => .encodeA8
  | .rgb565 => .encodeRgb565
  | .rgba4 => .encodeRgba4
  | .rgba5551 => .encodeRgba5551

/-- DECODE of a format that has a codec. -/
def decodeInstr : PixelFormat → Instr
  | .rgba8 => .decodeRgba8
  | .rgb8 => .decodeRgb8
  | .a8 => .decodeA8
  | .rgb565 => .decodeRgb565
  | .rgba4 => .decodeRgba4
  | .rgba5551 => .decodeRgba5551

/-- PXPACK of a format that has a codec. -/
def pxpackInstr : PixelFormat → Instr
  | .rgba8 => .pxpackRgba8
  | .rgb8 => .pxpackRgb8
  | .a8 => .pxpackA8
  | .rgb565 => .pxpackRgb565
  | .rgba4 => .pxpackRgba4
  | .rgba5551 => .pxpackRgba5551

/-- PXUNPACK of a format that has a codec. -/
def pxunpackInstr : PixelFormat → Instr
  | .rgba8 => .pxunpackRgba8
  | .rgb8 => .pxunpackRgb8
  | .a8 => .pxunpackA8
  | .rgb565 => .pxunpackRgb565
  | .rgba4 => .pxunpackRgba4
  | .rgba5551 => .pxunpackRgba5551

/-- The two bytes of a 16-bit number, the low byte first (00_scope.md R8), in plain arithmetic. -/
def bytesOf16 (v : Nat) : List Byte :=
  [BitVec.ofNat 8 (v % 256), BitVec.ofNat 8 (v / 256)]

/-- The bits `lo .. lo + len - 1` of a number (00_scope.md R7), in plain arithmetic. -/
def bitsOf (v lo len : Nat) : Nat :=
  v / 2 ^ lo % 2 ^ len

/-- The 16-bit number of two bytes, the low byte first (00_scope.md R8), in plain arithmetic. -/
def numberOf (b0 b1 : Byte) : Nat :=
  b0.toNat + 256 * b1.toNat

/-- What a round trip through a format leaves of a pixel (42_pixel_formats.md R155 (a), 41_codec_engines.md R130 to R134). -/
def storedPixel (alpha : Byte) (f : PixelFormat) (p : Pixel) : Pixel :=
  match f with
  | .rgba8 => p
  | .rgb8 => { p with a := alpha }
  | .a8 => { r := 0, g := 0, b := 0, a := p.a }
  | .rgb565 => { r := (p.r >>> 3) <<< 3, g := (p.g >>> 2) <<< 2, b := (p.b >>> 3) <<< 3, a := 255 }
  | .rgba4 => { r := p.r / 16 * 16, g := p.g / 16 * 16, b := p.b / 16 * 16, a := p.a / 16 * 16 }
  | .rgba5551 =>
    { r := (p.r >>> 3) <<< 3, g := (p.g >>> 3) <<< 3, b := (p.b >>> 3) <<< 3, a := if p.a = 255 then 255 else 0 }

/-- A packed group as one little-endian number of 32 bits, zero above the group. -/
def groupNumber (bs : List Byte) : BitVec 32 :=
  BitVec.ofNat 32 (bs.foldr (fun b n => b.toNat + 256 * n) 0)

/-- The four channels. -/
inductive Channel where
  | red
  | green
  | blue
  | alpha
  deriving DecidableEq, Repr

/-- The value of one channel. -/
def channelOf : Channel → Pixel → Byte
  | .red, p => p.r
  | .green, p => p.g
  | .blue, p => p.b
  | .alpha, p => p.a

/-- The bits of a channel's field in the packed number (30_encoding.md R82 to R87); none where the format does not store it. -/
def fieldMask : PixelFormat → Channel → BitVec 32
  | .rgba8, .red => 0xFF000000
  | .rgba8, .green => 0x00FF0000
  | .rgba8, .blue => 0x0000FF00
  | .rgba8, .alpha => 0x000000FF
  | .rgb8, .red => 0x00FF0000
  | .rgb8, .green => 0x0000FF00
  | .rgb8, .blue => 0x000000FF
  | .rgb8, .alpha => 0
  | .a8, .alpha => 0x000000FF
  | .a8, _ => 0
  | .rgb565, .red => 0xF800
  | .rgb565, .green => 0x07E0
  | .rgb565, .blue => 0x001F
  | .rgb565, .alpha => 0
  | .rgba4, .red => 0xF000
  | .rgba4, .green => 0x0F00
  | .rgba4, .blue => 0x00F0
  | .rgba4, .alpha => 0x000F
  | .rgba5551, .red => 0xF800
  | .rgba5551, .green => 0x07C0
  | .rgba5551, .blue => 0x003E
  | .rgba5551, .alpha => 0x0001

/-- Reading one byte of a packed buffer: none where the handle names no buffer or the offset lies outside. -/
def bufByte (m : Memory) (h : Handle) (o : Nat) : Option Byte :=
  (Store.find? m.bufs h).bind fun bs => bs[o]?

/-- Reading one byte of a container file. -/
def fileByteAt (m : Memory) (h : Handle) (o : Nat) : Option Byte :=
  (Store.find? m.files h).bind fun bs => bs[o]?

/-- Reading one pixel of an image: none where the handle names no image. -/
def imgPixel (m : Memory) (h : Handle) (x y : Nat) : Option (Except FaultReason Pixel) :=
  (Store.find? m.imgs h).map fun img => img.read x y

/-- Everything but the command interface, the host's memory and the marks is as before. -/
def SameRest (s t : State) : Prop :=
  t.tileOrder = s.tileOrder ∧ t.rgb8DecodeAlpha = s.rgb8DecodeAlpha ∧ t.others = s.others ∧ t.host = s.host ∧ t.refused = s.refused ∧
    t.port.lane = s.port.lane ∧ t.port.ioAnswers = s.port.ioAnswers ∧ t.port.ioCount = s.port.ioCount ∧ t.port.drawCount = s.port.drawCount

/-- The packed groups of an image stand in a byte sequence in traversal order (41_codec_engines.md R107, R108). -/
def HoldsGroups (t : TileTable) (f : PixelFormat) (img : Image) (out : List Byte) : Prop :=
  ∀ row < img.h / 8, ∀ col < img.w / 8, ∀ i : Fin 64,
    ∃ p, img.read (col * 8 + t[i].val % 8) (row * 8 + t[i].val / 8) = .ok p ∧
      ∀ j < bpp f, out[groupOffset f (img.w / 8) col row i.val + j]? = (pack f p)[j]?

/-- An image holds in its visited region, of `w` × `h`, the pixels that the groups of a byte sequence unpack to (41_codec_engines.md R107, R108). -/
def HoldsPixels (t : TileTable) (alpha : Byte) (f : PixelFormat) (buf : List Byte) (w h : Nat) (img : Image) : Prop :=
  ∀ row < h / 8, ∀ col < w / 8, ∀ i : Fin 64,
    ∃ p, unpack alpha f ((buf.drop (groupOffset f (w / 8) col row i.val)).take (bpp f)) = .ok p ∧
      img.read (col * 8 + t[i].val % 8) (row * 8 + t[i].val / 8) = .ok p

/-- DECODE of an ENCODE's buffer, into any image that covers the visited region, leaves `q` of the original in every visited pixel. -/
def RoundTrip (f : PixelFormat) (q : Byte → Pixel → Pixel) : Prop :=
  ∀ (s t u v : State) (ih bh jh : Handle) (img out : Image) (buf : List Byte),
    TileInjective s.tileOrder → s.imgOperand = some (ih, img) → s.bufOperand = some (bh, buf) →
      exec (encodeInstr f) s = .next t → t.faulted = none →
      u.tileOrder = s.tileOrder → Store.find? u.mem.bufs bh = Store.find? t.mem.bufs bh → u.port.ops.buf = some bh →
      u.port.ops.img = some jh → u.port.ops.argW = img.w → u.port.ops.argH = img.h →
      exec (decodeInstr f) u = .next v → v.faulted = none → Store.find? v.mem.imgs jh = some out →
        ∀ x < img.w / 8 * 8, ∀ y < img.h / 8 * 8,
          ∃ p, img.read x y = .ok p ∧ out.read x y = .ok (q u.rgb8DecodeAlpha p)

/-- Every byte of every buffer is as before, but for those of one handle where it is given. -/
def SameBufs (m m' : Memory) (but : Option Handle) : Prop :=
  ∀ h o, but ≠ some h → bufByte m' h o = bufByte m h o

/-- Every byte of every file is as before, but for those of one handle where it is given. -/
def SameFiles (m m' : Memory) (but : Option Handle) : Prop :=
  ∀ h o, but ≠ some h → fileByteAt m' h o = fileByteAt m h o

/-- Every pixel of every image is as before, but for those of one handle where it is given. -/
def SameImgs (m m' : Memory) (but : Option Handle) : Prop :=
  ∀ h x y, but ≠ some h → imgPixel m' h x y = imgPixel m h x y

/-- The instance next in turn changes places with the one whose turn it is; nothing else changes. -/
def swap (s : State) : State :=
  match s.others with
  | [] => s
  | q :: qs => { s with port := q, others := s.port :: qs }

/-- The use of the object that a handle field names; none where the field holds no handle. -/
def uses (kind : ObjectKind) (h : Option Handle) (writes : Bool) : List Access :=
  h.toList.map fun x => ⟨kind, x, writes⟩

/-- `IMG` holds the same in two states and names the same image, or none. -/
def SameImgOperand (s t : State) : Prop :=
  s.port.ops.img = t.port.ops.img ∧ s.imgOperand = t.imgOperand

/-- `BUF` holds the same in two states and names the same buffer, or none. -/
def SameBufOperand (s t : State) : Prop :=
  s.port.ops.buf = t.port.ops.buf ∧ s.bufOperand = t.bufOperand

/-- `FILE` holds the same in two states and names the same file, or none. -/
def SameFileOperand (s t : State) : Prop :=
  s.port.ops.file = t.port.ops.file ∧ s.fileOperand = t.fileOperand

/-- `ARG_W` and `ARG_H` hold the same in two states. -/
def SameDims (s t : State) : Prop :=
  s.port.ops.argW = t.port.ops.argW ∧ s.port.ops.argH = t.port.ops.argH

/-- The next `n` answers of `IO_FAIL` are the same in two states (20_memory.md R59). -/
def SameIo (s t : State) (n : Nat) : Prop :=
  ∀ k < n, s.ioFails k = t.ioFails k

/-- The operands that the rule of an instruction lists hold the same in two states, and for HDR_READ the answers of `IO_FAIL`. A term that carries the id
of a format with a codec in a `#nn` row, which no word encodes, counts as the command of that format (log 25). -/
def SameOwnOperands (i : Instr) (s t : State) : Prop :=
  (∀ f : PixelFormat,
    (i = encodeInstr f ∨ i = .encodeInvalid f.id → SameImgOperand s t ∧ SameBufOperand s t) ∧
    (i = decodeInstr f ∨ i = .decodeInvalid f.id → SameBufOperand s t ∧ SameDims s t ∧ SameImgOperand s t) ∧
    (i = pxpackInstr f ∨ i = .pxpackInvalid f.id → s.port.ops.argPixel = t.port.ops.argPixel) ∧
    (i = pxunpackInstr f ∨ i = .pxunpackInvalid f.id → s.port.ops.argBytes = t.port.ops.argBytes) ∧
    (i = .hdrWrite f.id → SameDims s t)) ∧
  (i = .hdrRead → SameFileOperand s t ∧ SameIo s t 2)

/-- Two states after a command show the same outputs: both are at the same fault, or neither is at one and `STATUS`, `RESULT` and the object that `RESULT`
names are the same. -/
def SameOutputs (s t : State) : Prop :=
  t.faulted = s.faulted ∧
    (s.faulted = none → t.port.status = s.port.status ∧ t.port.result = s.port.result ∧
      (∀ h, s.port.result = .buffer (some h) → Store.find? t.mem.bufs h = Store.find? s.mem.bufs h) ∧
      (∀ h, s.port.result = .image (some h) → Store.find? t.mem.imgs h = Store.find? s.mem.imgs h) ∧
      ∀ h, s.port.result = .file h → Store.find? t.mem.files h = Store.find? s.mem.files h)

/-- The file accesses of a command do not fail: the next `n` answers of `IO_FAIL` are `false` (20_memory.md R59). -/
abbrev NoIoFailure (s : State) (n : Nat) : Prop :=
  ∀ k < n, s.ioFails k = false

end Sys2Proof.Claims

open Sys2Proof Sys2Proof.Machine Sys2Proof.Claims

/-! ### Encoding -/

/-- Words of 95_test_vectors.md L2.1, written out from 30_encoding.md R70 to R73, decode to the commands they stand for. -/
def Obligations.SpecWordsDecode : Prop :=
  decode 0x0100 = .ok .encodeRgba8 ∧ decode 0x0103 = .ok (.encodeInvalid 3) ∧ decode 0x0104 = .ok .encodeEtc1 ∧
    decode 0x01FF = .ok (.encodeInvalid 0xFF) ∧ decode 0x0206 = .ok .decodeRgb565 ∧ decode 0x03FF = .ok (.hdrWrite 0xFF) ∧
    decode 0x0400 = .ok .hdrRead ∧ decode 0x0506 = .ok (.fmtResolve 6) ∧ decode 0x063F = .ok (.tileLookup 63) ∧
    decode 0x0707 = .ok .pxpackRgba4 ∧ decode 0x0805 = .ok .pxunpackRgba5551 ∧ decode 0x0401 = .error .hdrReadArgument ∧
    decode 0x0640 = .error .tileIndexRange ∧ decode 0x0900 = .error .unassignedClass ∧ decode 0x1106 = .error .reservedBits

/-- 30_encoding.md R78: the decoder on every word, its fields in plain arithmetic: reserved bits first, then the class, then the argument of HDR_READ and
TILE_LOOKUP; a class that carries a format id takes every id. -/
def Obligations.DecodeFollowsPseudocode : Prop :=
  ∀ w : Half,
    let cls := w.toNat / 256 % 16
    let arg := w.toNat % 256
    (w.toNat / 4096 ≠ 0 → ∃ e, decode w = .error e) ∧
    (w.toNat / 4096 = 0 →
      (cls = 1 → decode w = .ok (encodeOfFmt (BitVec.ofNat 8 arg))) ∧
      (cls = 2 → decode w = .ok (decodeOfFmt (BitVec.ofNat 8 arg))) ∧
      (cls = 3 → decode w = .ok (.hdrWrite (BitVec.ofNat 8 arg))) ∧
      (cls = 4 → arg = 0 → decode w = .ok .hdrRead) ∧
      (cls = 4 → arg ≠ 0 → ∃ e, decode w = .error e) ∧
      (cls = 5 → decode w = .ok (.fmtResolve (BitVec.ofNat 8 arg))) ∧
      (cls = 6 → arg < 64 → decode w = .ok (.tileLookup (BitVec.ofNat 6 arg))) ∧
      (cls = 6 → 64 ≤ arg → ∃ e, decode w = .error e) ∧
      (cls = 7 → decode w = .ok (pxpackOfFmt (BitVec.ofNat 8 arg))) ∧
      (cls = 8 → decode w = .ok (pxunpackOfFmt (BitVec.ofNat 8 arg))) ∧
      (cls = 0 ∨ 9 ≤ cls → ∃ e, decode w = .error e))

/-- Decoding the word of a well-formed command gives the command back, for every operand value. -/
def Obligations.DecodeOfEncode : Prop :=
  ∀ i : Instr, i.wellFormed = true → decode (encode i) = .ok i

/-- What a word decodes to is well-formed, and its word is that word: no two words are one command (30_encoding.md R70 to R78). -/
def Obligations.EncodeOfDecode : Prop :=
  ∀ (w : Half) (i : Instr), decode w = .ok i → i.wellFormed = true ∧ encode i = w

/-- 30_encoding.md R80: the illegal words are the four listed kinds, and a step that meets one ends at once with status IllegalCommand: it uses
no operand, `RESULT` is empty, and nothing changes but the command interface. -/
def Obligations.IllegalWordsEndAtOnce : Prop :=
  ∀ w : Half,
    ((∃ e, decode w = .error e) ↔
      w.toNat / 4096 ≠ 0 ∨ w.toNat / 256 % 16 = 0 ∨ 9 ≤ w.toNat / 256 % 16 ∨
        (w.toNat / 256 % 16 = 6 ∧ w.toNat / 64 % 4 ≠ 0) ∨ (w.toNat / 256 % 16 = 4 ∧ w.toNat % 256 ≠ 0)) ∧
      ∀ (s : State) (e : DecodeReject), decode w = .error e → s.Live → s.host = [] → s.port.cmd = some (.word w) →
        s.port.footprint s.mem = [] ∧
          step s = .next { s with port := { s.port with cmd := none, status := 6, result := .empty } }

/-! ### Running -/

/-- A step runs the decoded instruction: with no host action to come it is `exec` of the pending word's instruction in that state; where the
host's next action is to wait for the command, it is `exec` in the state without that action. The spec gives no scheduler: that a step without a host
action runs the pending command, and that the step that runs it takes the wait action, is the model's choice (logs 1, 2). -/
def Obligations.StepRunsDecodedInstruction : Prop :=
  ∀ (s : State) (w : Half) (i : Instr) (rest : List HostAction), s.Live → s.port.cmd = some (.word w) → decode w = .ok i →
    s.overlapped = false →
      (s.host = [] → step s = exec i s) ∧ (s.host = .complete :: rest → step s = exec i { s with host := rest })

/-- 10_state.md R32, 60_exceptions.md R251: while the mark `FAULTED` is set no command has a step, and while `REFUSED` is set the model gives the run no
meaning. -/
def Obligations.MarkedStateHasNoStep : Prop :=
  ∀ s : State,
    (∀ r, s.faulted = some r → step s = .fault (.faulted r) ∧ ∀ i, exec i s = .fault (.faulted r)) ∧
      (s.faulted = none → s.refused = true → step s = .refused .refusedRun ∧ ∀ i, exec i s = .refused .refusedRun)

/-- 20_memory.md R61: a command that runs while another instance's command uses one of its operands, and one of the two writes it, sets
`REFUSED`, and the run has no meaning then. That the refusing step changes nothing else is the model's choice (log 11), and so is that without such an
overlap the step runs the pending command (log 1). -/
def Obligations.OverlappingCommandsAreRefused : Prop :=
  ∀ (s : State) (c : Command), s.Live → s.host = [] → s.port.cmd = some c →
    ((∃ q ∈ s.others, ∃ a ∈ s.port.footprint s.mem, ∃ b ∈ q.footprint s.mem,
        a.kind = b.kind ∧ a.handle = b.handle ∧ (a.writes = true ∨ b.writes = true)) →
      step s = .next { s with refused := true } ∧ step { s with refused := true } = .refused .refusedRun) ∧
    ((∀ q ∈ s.others, ∀ a ∈ s.port.footprint s.mem, ∀ b ∈ q.footprint s.mem,
        a.kind = b.kind → a.handle = b.handle → a.writes = false ∧ b.writes = false) →
      step s = runCommand c s)

/-- Which objects each command uses (41_codec_engines.md R116 to R129, 42_pixel_formats.md R140 to R153, 43_container.md R193 to R201, 40_tile_order.md
R100): ENCODE of a format with a codec reads `IMG` and writes `BUF`, DECODE reads `BUF` and writes `IMG`, HDR_READ reads `FILE`; PXPACK, PXUNPACK,
HDR_WRITE, FMT_RESOLVE and TILE_LOOKUP, the ETC1 and `#nn` rows and the illegal words use none. CONTAINER_WRITE reads `IMG` and writes the file it makes,
CONTAINER_READ reads `FILE` and writes the image it makes (the fresh handle: log 14; that the sequence uses it as one command: log 19). A handle field that
holds no handle adds no use, and an instance without a command uses nothing. The operands are the objects that the handle fields name, so all of them but
the fresh ones. -/
def Obligations.FootprintOfCommands : Prop :=
  ∀ (p : Port) (m : Memory),
    (p.cmd = none → p.operands = [] ∧ p.footprint m = []) ∧
    (∀ w, p.cmd = some (.word w) →
      p.footprint m = p.operands ∧
      (∀ x, decode w = .ok (encodeInstr x) → p.operands = uses .image p.ops.img false ++ uses .buffer p.ops.buf true) ∧
      (∀ x, decode w = .ok (decodeInstr x) → p.operands = uses .buffer p.ops.buf false ++ uses .image p.ops.img true) ∧
      (decode w = .ok .hdrRead → p.operands = uses .file p.ops.file false) ∧
      (∀ i, decode w = .ok i → (∀ x, i ≠ encodeInstr x ∧ i ≠ decodeInstr x) → i ≠ .hdrRead → p.operands = []) ∧
      (∀ e, decode w = .error e → p.operands = [])) ∧
    (∀ fmt x, p.cmd = some (.containerWrite fmt) → resolve fmt = .ok x →
      p.operands = uses .image p.ops.img false ∧
        p.footprint m = uses .image p.ops.img false ++ [⟨.file, Store.fresh p.lane m.files, true⟩]) ∧
    (∀ fmt st, p.cmd = some (.containerWrite fmt) → resolve fmt = .error st → p.operands = [] ∧ p.footprint m = []) ∧
    (p.cmd = some .containerRead →
      p.operands = uses .file p.ops.file false ∧
        p.footprint m = uses .file p.ops.file false ++ [⟨.image, Store.fresh p.lane m.imgs, true⟩])

/-- A host write to an operand of a running command sets `REFUSED` and the run has no meaning then (70_reset_and_hazards.md R277): a write to a buffer, an
image or a file that a running command uses, or an issue, which writes the argument fields and the handles of the instance whose command is pending (log
24). That nothing else changes is the model's choice (log 11). -/
def Obligations.HostWriteToOperandInUse : Prop :=
  ∀ (s : State) (a : HostAction) (rest : List HostAction), s.Live → s.host = a :: rest →
    (∃ kind h, ((kind = .buffer ∧ ∃ bs, a = .putBuffer h bs) ∨ (kind = .image ∧ ∃ w ht px, a = .putImage h w ht px) ∨
        (kind = .file ∧ ∃ bs, a = .putFile h bs)) ∧
        ∃ p ∈ s.port :: s.others, ∃ x ∈ p.operands, x.kind = kind ∧ x.handle = h) ∨
      (s.port.cmd ≠ none ∧ ∃ c ops, a = .issue c ops) →
      step s = .next { s with host := rest, refused := true } ∧
        step { s with host := rest, refused := true } = .refused .refusedRun

/-- A host write to a buffer, a file or an image that no running command uses is done, and every other buffer, file and image is as before (20_memory.md
R40 to R42). A written image has the given size; the last pixel listed for a place stands there, and every other place is unwritten. -/
def Obligations.HostWriteToFreeObject : Prop :=
  ∀ (s : State) (h : Handle) (rest : List HostAction), s.Live →
    (∀ bs, s.host = .putBuffer h bs :: rest →
      (∀ p ∈ s.port :: s.others, ∀ x ∈ p.operands, x.kind = .buffer → x.handle ≠ h) →
        ∃ t, step s = .next t ∧ (∀ o, bufByte t.mem h o = bs[o]?) ∧ SameBufs s.mem t.mem (some h) ∧ SameFiles s.mem t.mem none ∧
          SameImgs s.mem t.mem none ∧ t.port = s.port ∧ t.others = s.others ∧ t.host = rest ∧ t.refused = false) ∧
    (∀ bs, s.host = .putFile h bs :: rest →
      (∀ p ∈ s.port :: s.others, ∀ x ∈ p.operands, x.kind = .file → x.handle ≠ h) →
        ∃ t, step s = .next t ∧ (∀ o, fileByteAt t.mem h o = bs[o]?) ∧ SameBufs s.mem t.mem none ∧ SameFiles s.mem t.mem (some h) ∧
          SameImgs s.mem t.mem none ∧ t.port = s.port ∧ t.others = s.others ∧ t.host = rest ∧ t.refused = false) ∧
    (∀ w ht px, s.host = .putImage h w ht px :: rest →
      (∀ p ∈ s.port :: s.others, ∀ x ∈ p.operands, x.kind = .image → x.handle ≠ h) →
        ∃ t, step s = .next t ∧
          (∀ x y, imgPixel t.mem h x y = some
            (if x < w ∧ y < ht then
              match px.reverse.find? fun e => e.1 = x ∧ e.2.1 = y with
              | some e => .ok e.2.2
              | none => .error .unwrittenPixel
            else .error .imageBounds)) ∧
          SameBufs s.mem t.mem none ∧ SameFiles s.mem t.mem none ∧ SameImgs s.mem t.mem (some h) ∧ t.port = s.port ∧
          t.others = s.others ∧ t.host = rest ∧ t.refused = false)

/-- 70_reset_and_hazards.md R272: a reset during a command aborts it: no command is pending, `RESULT` is empty, the operands in memory are
unchanged, and no mark is set. The values of the argument fields and of `STATUS` are the model's choice (logs 5, 6), and that the reset is the whole
block's (log 17). -/
def Obligations.ResetAbortsRunningCommand : Prop :=
  ∀ (s : State) (rest : List HostAction), s.Live → s.host = .reset :: rest →
    ∃ t, step s = .next t ∧ t.mem = s.mem ∧ t.tileOrder = s.tileOrder ∧ t.rgb8DecodeAlpha = s.rgb8DecodeAlpha ∧
      t.faulted = none ∧ t.refused = false ∧ t.host = rest ∧ t.others.length = s.others.length ∧
      ∀ p ∈ t.port :: t.others, p.cmd = none ∧ p.result = .empty ∧ p.ops.img = none ∧ p.ops.buf = none ∧ p.ops.file = none ∧
        p.ops = Operands.reset ∧ p.status = 0

/-- The host issues a command with its operands to an idle instance (00_scope.md R10): it is pending with exactly these operands (log 13), nothing else
changes, and with no further host action and no overlap the very next step runs it (log 1). -/
def Obligations.IssuedCommandIsPending : Prop :=
  ∀ (s : State) (c : Command) (ops : Operands) (rest : List HostAction), s.Live → s.host = .issue c ops :: rest →
    s.port.cmd = none →
      let t := { s with host := rest, port := { s.port with cmd := some c, ops := ops } }
      step s = .next t ∧ (rest = [] → t.overlapped = false → step t = runCommand c t)

/-- 60_exceptions.md R257, 70_reset_and_hazards.md R271: an instance without a pending command waits: the turn passes to the next one, and alone it
stays as it is; a started instance is at its reset interface. That the turns go round is the model's choice (log 16), and so are the argument fields
and `STATUS` of the started instance (logs 5, 6) and its lane, which no other instance has (log 14). -/
def Obligations.IdleInstanceWaits : Prop :=
  (∀ s : State, s.Live → s.host = [] → s.port.cmd = none →
    (s.others = [] → step s = .next s) ∧
    ∀ q qs, s.others = q :: qs → step s = .next { s with port := q, others := qs ++ [s.port] }) ∧
  ∀ (s : State) (rest : List HostAction), s.Live → s.host = .start :: rest →
    ∃ lane, step s = .next { s with host := rest, others := s.others ++ [Port.reset lane] } ∧ ∀ p ∈ s.port :: s.others, p.lane ≠ lane

/-! ### How commands end -/

/-- 60_exceptions.md R230, R242: every command that answers a next state ends in one of three ways: with status OK and an output; with another
status the block raises, `RESULT` empty and the host's memory unchanged; or with a fault, which writes neither `STATUS` nor `RESULT`. No
command is pending then, and no other instance is touched. -/
def Obligations.CommandsEndInThreeWays : Prop :=
  ∀ (c : Command) (s t : State), runCommand c s = .next t →
    t.port.cmd = none ∧ t.port.ops = s.port.ops ∧ t.others = s.others ∧ t.refused = false ∧
      ((t.faulted = none ∧ t.port.status = 0 ∧ t.port.result ≠ .empty) ∨
        (t.faulted = none ∧ (t.port.status = 1 ∨ t.port.status = 2 ∨ t.port.status = 3 ∨ t.port.status = 4 ∨ t.port.status = 6) ∧
          t.port.result = .empty ∧ t.mem = s.mem) ∨
        ((∃ r, t.faulted = some r) ∧ t.port.status = s.port.status ∧ t.port.result = s.port.result))

/-- 60_exceptions.md R236, R235, R239: which commands raise which status: InvalidMagic only HDR_READ and CONTAINER_READ, InvalidFormatId and
UnsupportedFormat only commands with a format id, IOError only commands that access a file, IllegalCommand only illegal words, code 5 and codes from
7 on none. -/
def Obligations.StatusesAreRaisedByTheListedCommands : Prop :=
  ∀ (c : Command) (s t : State), runCommand c s = .next t → t.faulted = none →
    (t.port.status = 1 → c = .word 0x0400 ∨ c = .containerRead) ∧
    (t.port.status = 2 →
      (∃ w : Half, c = .word w ∧ w.toNat / 256 ∈ [1, 2, 3, 5, 7, 8] ∧ (w.toNat % 256 = 3 ∨ 8 ≤ w.toNat % 256)) ∨
        (∃ fmt : Byte, c = .containerWrite fmt ∧ (fmt.toNat = 3 ∨ 8 ≤ fmt.toNat)) ∨ c = .containerRead) ∧
    (t.port.status = 3 →
      (∃ w : Half, c = .word w ∧ w.toNat / 256 ∈ [1, 2, 3, 5, 7, 8] ∧ w.toNat % 256 = 4) ∨ c = .containerWrite 4 ∨ c = .containerRead) ∧
    (t.port.status = 4 → c = .word 0x0400 ∨ c = .containerRead ∨ ∃ fmt, c = .containerWrite fmt) ∧
    (t.port.status = 6 → ∃ w e, c = .word w ∧ decode w = .error e) ∧ t.port.status ≠ 5 ∧ t.port.status.toNat < 7

/-- 30_encoding.md R79: a word of a class that carries a format id, with an id outside 0, 1, 2, 5, 6 and 7, is legal; it ends with InvalidFormatId for 3
and 8..255 and with UnsupportedFormat for 4, in every state and whatever the operands, and has no other effect. -/
def Obligations.UnlistedFormatIdsEndWithTheirStatus : Prop :=
  ∀ (w : Half) (s : State), s.Live → w.toNat / 256 ∈ [1, 2, 3, 5, 7, 8] →
    (w.toNat % 256 = 3 ∨ 8 ≤ w.toNat % 256 → (∃ i, decode w = .ok i) ∧
      runCommand (.word w) s = .next { s with port := { s.port with cmd := none, status := 2, result := .empty } }) ∧
    (w.toNat % 256 = 4 → (∃ i, decode w = .ok i) ∧
      runCommand (.word w) s = .next { s with port := { s.port with cmd := none, status := 3, result := .empty } })

/-- 30_encoding.md R79 and the `#nn` rows: a format id in 3, 8..255 ends ENCODE, DECODE, PXPACK and PXUNPACK with InvalidFormatId (2) in every
state, whatever the operands; nothing else changes. -/
def Obligations.InvalidFormatIdsEndWithStatus2 : Prop :=
  ∀ (fmt : Byte) (s : State), s.Live → namedFormatId fmt = false →
    let t := { s with port := { s.port with cmd := none, status := 2, result := .empty } }
    exec (.encodeInvalid fmt) s = .next t ∧ exec (.decodeInvalid fmt) s = .next t ∧ exec (.pxpackInvalid fmt) s = .next t ∧
      exec (.pxunpackInvalid fmt) s = .next t

/-- 41_codec_engines.md R122, R129 and 42_pixel_formats.md R152, R153: every ETC1 command ends with UnsupportedFormat (3), always, reading no
operand and changing nothing else. -/
def Obligations.Etc1AlwaysUnsupported : Prop :=
  decode 0x0104 = .ok .encodeEtc1 ∧ decode 0x0204 = .ok .decodeEtc1 ∧ decode 0x0704 = .ok .pxpackEtc1 ∧
    decode 0x0804 = .ok .pxunpackEtc1 ∧
    ∀ s : State, s.Live →
      let t := { s with port := { s.port with cmd := none, status := 3, result := .empty } }
      exec .encodeEtc1 s = .next t ∧ exec .decodeEtc1 s = .next t ∧ exec .pxpackEtc1 s = .next t ∧ exec .pxunpackEtc1 s = .next t

/-! ### Format resolution and tile lookup -/

/-- 43_container.md R192, R193: FMT_RESOLVE gives the name and the bytes per pixel of the six listed ids, UnsupportedFormat for 4 and
InvalidFormatId for every other id. -/
def Obligations.FmtResolveFollowsDispatchTable : Prop :=
  ∀ (fmt : Byte) (s : State), s.Live → decode (0x0500#16 ||| fmt.zeroExtend 16) = .ok (.fmtResolve fmt) ∧
    exec (.fmtResolve fmt) s = .next
      (if fmt = 0 then s.endOk (.format .rgba8 4)
      else if fmt = 1 then s.endOk (.format .rgb8 3)
      else if fmt = 2 then s.endOk (.format .a8 1)
      else if fmt = 5 then s.endOk (.format .rgba5551 2)
      else if fmt = 6 then s.endOk (.format .rgb565 2)
      else if fmt = 7 then s.endOk (.format .rgba4 2)
      else if fmt = 4 then s.endStatus .unsupportedFormat
      else s.endStatus .invalidFormatId)

/-- 40_tile_order.md R95, R100: TILE_LOOKUP gives the table's entry p and `(p % 8, p / 8)`, for every table, and always ends with OK. -/
def Obligations.TileLookupGivesEntryAndPosition : Prop :=
  ∀ (idx : BitVec 6) (s : State), s.Live →
    decode (0x0600#16 ||| idx.zeroExtend 16) = .ok (.tileLookup idx) ∧
    ∃ p : Nat, p = s.tileOrder[idx.toFin].val ∧
      exec (.tileLookup idx) s = .next { s with port := { s.port with cmd := none, status := 0, result := .tile p (p % 8) (p / 8) } }

/-! ### Per-pixel commands -/

/-- 42_pixel_formats.md R140, R142, R144: PXPACK of the byte formats gives `[a, b, g, r]`, `[b, g, r]` and `[a]`. -/
def Obligations.PxpackByteFormats : Prop :=
  decode 0x0700 = .ok .pxpackRgba8 ∧ decode 0x0701 = .ok .pxpackRgb8 ∧ decode 0x0702 = .ok .pxpackA8 ∧
    ∀ (r g b a : Byte) (s : State), s.Live → s.port.ops.argPixel = ⟨r, g, b, a⟩ →
      exec .pxpackRgba8 s = .next (s.endOk (.bytes [a, b, g, r])) ∧ exec .pxpackRgb8 s = .next (s.endOk (.bytes [b, g, r])) ∧
        exec .pxpackA8 s = .next (s.endOk (.bytes [a]))

/-- 42_pixel_formats.md R146, R148: PXPACK of RGB565 and RGBA4, the quantization and the fields in plain arithmetic. -/
def Obligations.PxpackRgb565AndRgba4 : Prop :=
  decode 0x0706 = .ok .pxpackRgb565 ∧ decode 0x0707 = .ok .pxpackRgba4 ∧
    ∀ (r g b a : Byte) (s : State), s.Live → s.port.ops.argPixel = ⟨r, g, b, a⟩ →
      exec .pxpackRgb565 s = .next (s.endOk (.bytes
        (bytesOf16 (r.toNat / 8 * 2048 + g.toNat / 4 * 32 + b.toNat / 8)))) ∧
      exec .pxpackRgba4 s = .next (s.endOk (.bytes
        [BitVec.ofNat 8 (a.toNat / 16 + b.toNat / 16 * 16), BitVec.ofNat 8 (g.toNat / 16 + r.toNat / 16 * 16)]))

/-- PXPACK of RGBA5551. That a colour channel is quantized by `c >> 3` is the spec's own inference from the round-trip property of the source
(42_pixel_formats.md R150, 91_not_in_source.md N4; log 20). -/
def Obligations.PxpackRgba5551 : Prop :=
  decode 0x0705 = .ok .pxpackRgba5551 ∧
    ∀ (r g b a : Byte) (s : State), s.Live → s.port.ops.argPixel = ⟨r, g, b, a⟩ →
      exec .pxpackRgba5551 s = .next (s.endOk (.bytes
        (bytesOf16 (r.toNat / 8 * 2048 + g.toNat / 8 * 64 + b.toNat / 8 * 2 + a.toNat / 255))))

/-- 42_pixel_formats.md R141, R143, R145: PXUNPACK of the byte formats; further bytes are ignored, too few are the fault BufferUnderrun. -/
def Obligations.PxunpackByteFormats : Prop :=
  decode 0x0800 = .ok .pxunpackRgba8 ∧ decode 0x0801 = .ok .pxunpackRgb8 ∧ decode 0x0802 = .ok .pxunpackA8 ∧
    ∀ s : State, s.Live →
      (∀ b0 b1 b2 b3 rest, s.port.ops.argBytes = b0 :: b1 :: b2 :: b3 :: rest →
        exec .pxunpackRgba8 s = .next (s.endOk (.pixel ⟨b3, b2, b1, b0⟩))) ∧
      (∀ b0 b1 b2 rest, s.port.ops.argBytes = b0 :: b1 :: b2 :: rest →
        exec .pxunpackRgb8 s = .next (s.endOk (.pixel ⟨b2, b1, b0, s.rgb8DecodeAlpha⟩))) ∧
      (∀ b0 rest, s.port.ops.argBytes = b0 :: rest → exec .pxunpackA8 s = .next (s.endOk (.pixel ⟨0, 0, 0, b0⟩))) ∧
      (s.port.ops.argBytes.length < 4 → exec .pxunpackRgba8 s = .next (s.takeFault .bufferUnderrun)) ∧
      (s.port.ops.argBytes.length < 3 → exec .pxunpackRgb8 s = .next (s.takeFault .bufferUnderrun)) ∧
      (s.port.ops.argBytes.length < 1 → exec .pxunpackA8 s = .next (s.takeFault .bufferUnderrun))

/-- 42_pixel_formats.md R147, R149, R151: PXUNPACK of the 16-bit formats, the fields and the widening in plain arithmetic; too few bytes are
the fault BufferUnderrun. -/
def Obligations.PxunpackWordFormats : Prop :=
  decode 0x0806 = .ok .pxunpackRgb565 ∧ decode 0x0807 = .ok .pxunpackRgba4 ∧ decode 0x0805 = .ok .pxunpackRgba5551 ∧
    ∀ s : State, s.Live →
      (∀ b0 b1 rest, s.port.ops.argBytes = b0 :: b1 :: rest →
        let v := numberOf b0 b1
        exec .pxunpackRgb565 s = .next (s.endOk (.pixel
          ⟨BitVec.ofNat 8 (bitsOf v 11 5 * 8), BitVec.ofNat 8 (bitsOf v 5 6 * 4), BitVec.ofNat 8 (bitsOf v 0 5 * 8), 255⟩)) ∧
        exec .pxunpackRgba4 s = .next (s.endOk (.pixel
          ⟨BitVec.ofNat 8 (bitsOf b1.toNat 4 4 * 16), BitVec.ofNat 8 (bitsOf b1.toNat 0 4 * 16),
            BitVec.ofNat 8 (bitsOf b0.toNat 4 4 * 16), BitVec.ofNat 8 (bitsOf b0.toNat 0 4 * 16)⟩)) ∧
        exec .pxunpackRgba5551 s = .next (s.endOk (.pixel
          ⟨BitVec.ofNat 8 (bitsOf v 11 5 * 8), BitVec.ofNat 8 (bitsOf v 6 5 * 8), BitVec.ofNat 8 (bitsOf v 1 5 * 8),
            if bitsOf v 0 1 = 1 then 255 else 0⟩))) ∧
      (s.port.ops.argBytes.length < 2 →
        exec .pxunpackRgb565 s = .next (s.takeFault .bufferUnderrun) ∧ exec .pxunpackRgba4 s = .next (s.takeFault .bufferUnderrun) ∧
          exec .pxunpackRgba5551 s = .next (s.takeFault .bufferUnderrun))

/-- 42_pixel_formats.md R155 (a), (c): unpacking a packed pixel gives it truncated and widened, with the format's fixed values; and doing so twice
changes nothing more. -/
def Obligations.UnpackOfPackTruncates : Prop :=
  ∀ (alpha : Byte) (f : PixelFormat) (p : Pixel),
    unpack alpha f (pack f p) = .ok (storedPixel alpha f p) ∧
      storedPixel alpha f (storedPixel alpha f p) = storedPixel alpha f p

/-- 42_pixel_formats.md R155 (b): packing an unpacked group gives its bytes back. -/
def Obligations.PackOfUnpackIsIdentity : Prop :=
  ∀ (alpha : Byte) (f : PixelFormat) (bs : List Byte) (p : Pixel), bs.length = bpp f → unpack alpha f bs = .ok p → pack f p = bs

/-- 42_pixel_formats.md R156, 30_encoding.md R82 to R87: the fields of a format's channels are disjoint and fill the group, each packed field is a
function of its own channel only, and each unpacked channel of its own field only (of no field, where the format does not store it). -/
def Obligations.ChannelsAreIndependentLanes : Prop :=
  ∀ f : PixelFormat,
    (∀ c d : Channel, c ≠ d → fieldMask f c &&& fieldMask f d = 0) ∧
    (fieldMask f .red ||| fieldMask f .green ||| fieldMask f .blue ||| fieldMask f .alpha).toNat = 256 ^ bpp f - 1 ∧
    (∀ (c : Channel) (p q : Pixel), channelOf c p = channelOf c q →
      groupNumber (pack f p) &&& fieldMask f c = groupNumber (pack f q) &&& fieldMask f c) ∧
    ∀ (alpha : Byte) (c : Channel) (bs bs' : List Byte) (p q : Pixel), bs.length = bpp f → bs'.length = bpp f →
      unpack alpha f bs = .ok p → unpack alpha f bs' = .ok q →
        groupNumber bs &&& fieldMask f c = groupNumber bs' &&& fieldMask f c → channelOf c p = channelOf c q

/-! ### Codec engines -/

/-- 41_codec_engines.md R113 with R108 and R110, and with the offsets of R107 and the axes of 40_tile_order.md R95, which the spec infers (log 20): with its
operands in order, ENCODE of each of the six formats completes: `BUF` keeps its
length, holds the packed group of every visited pixel at its offset, and keeps every byte from `need` on. -/
def Obligations.EncodeWritesVisitedGroups : Prop :=
  ∀ (f : PixelFormat) (s : State) (ih bh : Handle) (img : Image) (buf : List Byte),
    s.Live → EncodeReady s f ih img bh buf →
      ∃ out, exec (encodeInstr f) s = .next ((s.setBuf bh out).endOk (.buffer (some bh))) ∧ out.length = buf.length ∧
        HoldsGroups s.tileOrder f img out ∧ ∀ o, need f img.w img.h ≤ o → out[o]? = buf[o]?

/-- 41_codec_engines.md R114 with R108 and R110, and with the offsets of R107 and the axes of 40_tile_order.md R95, which the spec infers (log 20): with its
operands in order, DECODE of each of the six formats completes: `IMG` keeps its size,
holds in the visited region the pixel each group unpacks to, and keeps every other pixel. -/
def Obligations.DecodeWritesVisitedPixels : Prop :=
  ∀ (f : PixelFormat) (s : State) (ih bh : Handle) (img : Image) (buf : List Byte) (w h : Nat),
    s.Live → TileInjective s.tileOrder → DecodeReady s f bh buf ih img w h →
      ∃ out, exec (decodeInstr f) s = .next ((s.setImg ih out).endOk (.image (some ih))) ∧ out.w = img.w ∧ out.h = img.h ∧
        HoldsPixels s.tileOrder s.rgb8DecodeAlpha f buf w h out ∧
        ∀ x y, w / 8 * 8 ≤ x ∨ h / 8 * 8 ≤ y → out.read x y = img.read x y

/-- 60_exceptions.md R241, R246, R247, R249: ENCODE's faults in their order: the dimensions first, then the buffer's length, then an unwritten
visited pixel; whatever `IMG` and `BUF` name (log 12). That the operands of the faulted state stay as they were is the model's choice (log 10). -/
def Obligations.EncodeFaultsInOrder : Prop :=
  ∀ (f : PixelFormat) (s : State), s.Live →
    let img := s.imgValue
    let buf := s.bufValue
    (32767 < img.w ∨ 32767 < img.h → exec (encodeInstr f) s = .next (s.takeFault .dimensionOutOfRange)) ∧
    (img.w ≤ 32767 → img.h ≤ 32767 → buf.length < need f img.w img.h →
      exec (encodeInstr f) s = .next (s.takeFault .bufferUnderrun)) ∧
    (TileInjective s.tileOrder → img.w ≤ 32767 → img.h ≤ 32767 → need f img.w img.h ≤ buf.length →
      (∃ x < img.w / 8 * 8, ∃ y < img.h / 8 * 8, img.read x y = .error .unwrittenPixel) →
        exec (encodeInstr f) s = .next (s.takeFault .unwrittenPixel))

/-- 60_exceptions.md R241, R246, R247, R248: DECODE's faults in their order: the dimensions first, then the buffer's length, then a visited pixel
outside the image; whatever `IMG` and `BUF` name (log 12). That the operands of the faulted state stay as they were is the model's choice (log 10). -/
def Obligations.DecodeFaultsInOrder : Prop :=
  ∀ (f : PixelFormat) (s : State), s.Live →
    let img := s.imgValue
    let buf := s.bufValue
    let w := s.port.ops.argW
    let h := s.port.ops.argH
    (w < 0 ∨ 32767 < w ∨ h < 0 ∨ 32767 < h → exec (decodeInstr f) s = .next (s.takeFault .dimensionOutOfRange)) ∧
    (0 ≤ w → w ≤ 32767 → 0 ≤ h → h ≤ 32767 → buf.length < need f w.toNat h.toNat →
      exec (decodeInstr f) s = .next (s.takeFault .bufferUnderrun)) ∧
    (TileInjective s.tileOrder → 0 ≤ w → w ≤ 32767 → 0 ≤ h → h ≤ 32767 → need f w.toNat h.toNat ≤ buf.length →
      (∃ x < w.toNat / 8 * 8, ∃ y < h.toNat / 8 * 8, img.w ≤ x ∨ img.h ≤ y) →
        exec (decodeInstr f) s = .next (s.takeFault .imageBounds))

/-- Where no mark is set every command answers a next state (70_reset_and_hazards.md R281), a command whose handle names nothing too: the spec states no
size and no contents for such an operand, so they are free values, and nothing is written through it (log 12). ENCODE of an image that is not there changes
no byte, because no pixel of it is written. -/
def Obligations.EveryCommandRuns : Prop :=
  ∀ s : State, s.Live → (∀ c, ∃ t, runCommand c s = .next t) ∧
    ∀ f : PixelFormat,
      (s.bufOperand = none → ∃ t, exec (encodeInstr f) s = .next t ∧ t.mem = s.mem) ∧
      (s.imgOperand = none → ∃ t, exec (encodeInstr f) s = .next t ∧ SameBufs s.mem t.mem none ∧ SameFiles s.mem t.mem none ∧
        SameImgs s.mem t.mem none) ∧
      (s.imgOperand = none → ∃ t, exec (decodeInstr f) s = .next t ∧ t.mem = s.mem)

/-- 41_codec_engines.md R106: the traversal visits the blocks in row-major order and in each block the indices 0 to 63; the byte cursor starts at 0 and
advances by `64 * bpp` after each block. -/
def Obligations.TraversalOrder : Prop :=
  ∀ (f : PixelFormat) (nbx nby : Nat),
    (traversal (bpp f) nbx nby).map (fun c => (c.row, c.col, c.idx.val, c.byte)) =
      (List.range nby).flatMap fun r => (List.range nbx).flatMap fun c =>
        (List.range 64).map fun i => (r, c, i, (r * nbx + c) * (64 * bpp f))

/-- The group of block (bx, by) and index i stands at `off(bx, by, i)`, and the groups follow each other from offset 0 without a gap: the spec's own
inference (41_codec_engines.md R107, 91_not_in_source.md N3; log 20). -/
def Obligations.GroupOffsets : Prop :=
  ∀ (f : PixelFormat) (nbx nby : Nat),
    (∀ c ∈ traversal (bpp f) nbx nby, c.offset (bpp f) = ((c.row * nbx + c.col) * 64 + c.idx.val) * bpp f) ∧
      (traversal (bpp f) nbx nby).map (Cursor.offset (bpp f)) = (List.range (nbx * nby * 64)).map (· * bpp f)

/-- 41_codec_engines.md R110, 40_tile_order.md R96: each pixel of the visited region is visited exactly once, and no other pixel is; no step of the traversal
is listed twice. -/
def Obligations.VisitedRegionExactlyOnce : Prop :=
  ∀ (t : TileTable) (n nbx nby : Nat), TileInjective t →
    (traversal n nbx nby).Nodup ∧ (∀ c ∈ traversal n nbx nby, c.x t < nbx * 8 ∧ c.y t < nby * 8) ∧
      ∀ x < nbx * 8, ∀ y < nby * 8,
        ∃ c ∈ traversal n nbx nby, c.x t = x ∧ c.y t = y ∧ ∀ d ∈ traversal n nbx nby, d.x t = x → d.y t = y → d = c

/-- 41_codec_engines.md R132, R133, R134: the round trip through RGB565, RGBA5551 and RGBA4 in plain arithmetic. -/
def Obligations.QuantizedRoundTrip : Prop :=
  RoundTrip .rgb565 (fun _ p => ⟨(p.r >>> 3) <<< 3, (p.g >>> 2) <<< 2, (p.b >>> 3) <<< 3, 255⟩) ∧
    RoundTrip .rgba5551 (fun _ p => ⟨(p.r >>> 3) <<< 3, (p.g >>> 3) <<< 3, (p.b >>> 3) <<< 3, if p.a = 255 then 255 else 0⟩) ∧
    RoundTrip .rgba4 (fun _ p =>
      ⟨BitVec.ofNat 8 (p.r.toNat / 16 * 16), BitVec.ofNat 8 (p.g.toNat / 16 * 16), BitVec.ofNat 8 (p.b.toNat / 16 * 16),
        BitVec.ofNat 8 (p.a.toNat / 16 * 16)⟩)

/-- The round trip through RGBA8 is exact; RGB8 restores the colour and sets alpha to `RGB8_DECODE_ALPHA`, A8 restores alpha and sets the colour to 0:
the spec's own inference from the layouts (41_codec_engines.md R130, R131, 90_conflicts.md C2). -/
def Obligations.ByteFormatRoundTrip : Prop :=
  RoundTrip .rgba8 (fun _ p => p) ∧ RoundTrip .rgb8 (fun alpha p => ⟨p.r, p.g, p.b, alpha⟩) ∧
    RoundTrip .a8 (fun _ p => ⟨0, 0, 0, p.a⟩)

/-- 42_pixel_formats.md R158, 70_reset_and_hazards.md R281: a command makes `(W/8)*(H/8)*64` pixel steps; with dimensions up to 32767 these are at most
`4095*4095*64`, every byte it touches lies below 4292870400, and every visited coordinate below 32768. -/
def Obligations.TraversalStaysBelowBounds : Prop :=
  ∀ (t : TileTable) (f : PixelFormat) (w h : Nat), (traversal (bpp f) (w / 8) (h / 8)).length = w / 8 * (h / 8) * 64 ∧
    (w ≤ 32767 → h ≤ 32767 → (traversal (bpp f) (w / 8) (h / 8)).length ≤ 4095 * 4095 * 64 ∧
      ∀ c ∈ traversal (bpp f) (w / 8) (h / 8),
        c.offset (bpp f) + bpp f ≤ 4292870400 ∧ c.x t < 32768 ∧ c.y t < 32768)

/-! ### The container header -/

/-- 43_container.md R195: HDR_WRITE resolves its format id first, then checks the dimensions, then gives 128 bytes: the magic, nine zeros, the width and
the height little-endian, the format id, zeros. -/
def Obligations.HdrWriteFollowsPseudocode : Prop :=
  ∀ (fmt : Byte) (s : State), s.Live →
    let w := s.port.ops.argW
    let h := s.port.ops.argH
    let hdr := [0x74, 0x65, 0x78, 0x74, 0x75, 0x72, 0x65] ++ List.replicate 9 0 ++ bytesOf16 w.toNat ++ bytesOf16 h.toNat ++ [fmt] ++
      List.replicate 0x6B 0
    hdr.length = 0x80 ∧
      exec (.hdrWrite fmt) s = .next
        (if fmt.toNat = 4 then s.endStatus .unsupportedFormat
        else if fmt.toNat = 3 ∨ 8 ≤ fmt.toNat then s.endStatus .invalidFormatId
        else if w < 0 ∨ 32767 < w ∨ h < 0 ∨ 32767 < h then s.takeFault .dimensionOutOfRange
        else s.endOk (.bytes hdr))

/-- 43_container.md R196, R197: HDR_READ, in this order: IOError when the first access fails, InvalidMagic, IOError for a file shorter than
0x15 bytes, IOError when the second access fails, else the signed width and height and the format id, unchecked. The file accesses are
counted (log 8); nothing else changes. Where `FILE` names no file the bytes are a free value (log 12). -/
def Obligations.HdrReadFollowsPseudocode : Prop :=
  ∀ s : State, s.Live →
    let f := s.fileValue
    exec .hdrRead s = .next
      (if s.ioFails 0 = true then (s.afterIo 1).endStatus .ioError
      else if f.take 7 ≠ [0x74, 0x65, 0x78, 0x74, 0x75, 0x72, 0x65] then (s.afterIo 1).endStatus .invalidMagic
      else if f.length < 0x15 then (s.afterIo 1).endStatus .ioError
      else if s.ioFails 1 = true then (s.afterIo 2).endStatus .ioError
      else (s.afterIo 2).endOk (.header
        (BitVec.ofNat 16 (numberOf (f.getD 0x10 0) (f.getD 0x11 0))).toInt
        (BitVec.ofNat 16 (numberOf (f.getD 0x12 0) (f.getD 0x13 0))).toInt (f.getD 0x14 0)))

/-- 43_container.md R198: HDR_READ and CONTAINER_READ do not examine the reserved bytes: a file that differs only there is read alike, so as if they were
zero. -/
def Obligations.ReservedHeaderBytesAreIgnored : Prop :=
  ∀ (s : State) (h : Handle) (f g : List Byte), s.Live → s.fileOperand = some (h, f) → f.length = g.length →
    (∀ o, o < 7 ∨ (0x10 ≤ o ∧ o < 0x15) ∨ 0x80 ≤ o → f[o]? = g[o]?) →
      (∃ t, exec .hdrRead s = .next t ∧ exec .hdrRead (s.setFile h g) = .next (t.setFile h g)) ∧
        ∃ t, runCommand .containerRead s = .next t ∧ runCommand .containerRead (s.setFile h g) = .next (t.setFile h g)

/-- 43_container.md R203: reading a written header, with any payload after it, gives the width, the height and the format id back, when no file
access fails. -/
def Obligations.HeaderRoundTrip : Prop :=
  ∀ (fmt : Byte) (s t u : State) (hdr payload : List Byte) (h : Handle) (w ht : Nat), s.port.ops.argW = w → s.port.ops.argH = ht →
    exec (.hdrWrite fmt) s = .next t → t.faulted = none → t.port.result = .bytes hdr →
      u.Live → u.fileOperand = some (h, hdr ++ payload) → NoIoFailure u 2 →
        exec .hdrRead u = .next ((u.afterIo 2).endOk (.header w ht fmt))

/-! ### Whole containers -/

/-- 43_container.md R200, 60_exceptions.md R241: how CONTAINER_WRITE ends, condition by condition in the order of the rule. An id without a codec ends with
InvalidFormatId or UnsupportedFormat and changes nothing else; an image over 32767 is the fault DimensionOutOfRange; an unwritten visited pixel is the fault
UnwrittenPixel, after the buffer is drawn and before the file access is asked. Of a covered image it makes, when the file access does not fail, a file of
the header and `W*H*bpp` payload bytes, the visited groups in the payload; when the access fails it ends with IOError and makes no file. The places of the
groups are as the spec infers (log 20), the fresh handle is the model's choice (log 14), the other payload bytes are free draws, numbered as log 9 says, and
that a fault leaves the operands as they were is the model's choice (log 10). Where `IMG` names no image its size is a free value (log 12). -/
def Obligations.ContainerWriteMakesFile : Prop :=
  ∀ (fmt : Byte) (s : State), s.Live →
    (fmt.toNat = 3 ∨ 8 ≤ fmt.toNat →
      runCommand (.containerWrite fmt) s = .next { s with port := { s.port with cmd := none, status := 2, result := .empty } }) ∧
    (fmt.toNat = 4 →
      runCommand (.containerWrite fmt) s = .next { s with port := { s.port with cmd := none, status := 3, result := .empty } }) ∧
    ∀ f : PixelFormat, resolve fmt = .ok f →
      let img := s.imgValue
      (32767 < img.w ∨ 32767 < img.h → runCommand (.containerWrite fmt) s = .next (s.takeFault .dimensionOutOfRange)) ∧
      (img.w ≤ 32767 → img.h ≤ 32767 → TileInjective s.tileOrder →
        (∃ x < img.w / 8 * 8, ∃ y < img.h / 8 * 8, img.read x y = .error .unwrittenPixel) →
          runCommand (.containerWrite fmt) s = .next ((s.afterDraws (img.w * img.h * bpp f)).takeFault .unwrittenPixel)) ∧
      (img.w ≤ 32767 → img.h ≤ 32767 → img.Covered → s.ioFails 0 = false →
        ∃ t payload fh, runCommand (.containerWrite fmt) s = .next t ∧ t.port.status = 0 ∧ t.port.result = .file fh ∧
          t.faulted = none ∧ Store.find? s.mem.files fh = none ∧
          Store.find? t.mem.files fh = some (headerBytes fmt img.w img.h ++ payload) ∧
          payload.length = img.w * img.h * bpp f ∧ HoldsGroups s.tileOrder f img payload ∧
          (∀ o, need f img.w img.h ≤ o → o < payload.length →
            payload[o]? = some (Config.freeByte s.port.lane (s.port.drawCount + o))) ∧
          t.mem.imgs = s.mem.imgs ∧ t.mem.bufs = s.mem.bufs ∧
          ∀ h, h ≠ fh → Store.find? t.mem.files h = Store.find? s.mem.files h) ∧
      (img.w ≤ 32767 → img.h ≤ 32767 → img.Covered → s.ioFails 0 = true →
        ∃ t, runCommand (.containerWrite fmt) s = .next t ∧ t.port.status = 4 ∧ t.port.result = .empty ∧ t.mem = s.mem)

/-- 43_container.md R201: CONTAINER_READ of a good file: an image of the header's size whose visited pixels are the payload's groups unpacked and
whose other pixels are unwritten, under a handle that named no image before. The places of the groups are as the spec infers (log 20), the fresh
handle is the model's choice (log 14), and so are the bytes where `FILE` names no file (log 12). -/
def Obligations.ContainerReadMakesImage : Prop :=
  ∀ (s : State) (f : PixelFormat) (w ht : Nat), s.Live → TileInjective s.tileOrder → NoIoFailure s 3 →
    let file := s.fileValue
    file.take 7 = magic → 0x80 ≤ file.length → (headerFields file).w = w → (headerFields file).h = ht →
      resolve (headerFields file).fmt = .ok f → need f w ht ≤ file.length - 0x80 →
        ∃ t img fh, runCommand .containerRead s = .next t ∧ t.port.status = 0 ∧ t.port.result = .image (some fh) ∧ t.faulted = none ∧
          Store.find? s.mem.imgs fh = none ∧ Store.find? t.mem.imgs fh = some img ∧ img.w = w ∧ img.h = ht ∧
          HoldsPixels s.tileOrder s.rgb8DecodeAlpha f (file.drop 0x80) w ht img ∧
          (∀ x < w, ∀ y < ht, w / 8 * 8 ≤ x ∨ ht / 8 * 8 ≤ y → img.read x y = .error .unwrittenPixel) ∧
          t.mem.bufs = s.mem.bufs ∧ t.mem.files = s.mem.files ∧
          ∀ k, k ≠ fh → Store.find? t.mem.imgs k = Store.find? s.mem.imgs k

/-- 60_exceptions.md R240: the first condition that applies, in the order of the rule, decides how CONTAINER_READ ends. Where `FILE` names no file the
bytes are a free value (log 12). -/
def Obligations.ContainerReadPriority : Prop :=
  ∀ s : State, s.Live →
    let file := s.fileValue
    ∃ t, runCommand .containerRead s = .next t ∧
      let d := headerFields file
      let need' := match resolve d.fmt with
        | .ok f => need f d.w.toNat d.h.toNat
        | .error _ => 0
      (t.faulted, if t.faulted = none then t.port.status else 0) =
        (if s.ioFails 0 = true then (none, 4)
        else if file.take 7 ≠ magic then (none, 1)
        else if file.length < 0x15 ∨ s.ioFails 1 = true then (none, 4)
        else if d.fmt = 4 then (none, 3)
        else if namedFormatId d.fmt = false then (none, 2)
        else if file.length < 0x80 ∨ s.ioFails 2 = true then (none, 4)
        else if d.w < 0 ∨ d.h < 0 then (some .dimensionOutOfRange, 0)
        else if file.length - 0x80 < need' then (some .bufferUnderrun, 0)
        else (none, 0))

/-- 30_encoding.md R90: a CONTAINER_READ that ends with OK is HDR_READ, FMT_RESOLVE and DECODE of the payload in sequence: HDR_READ gives the
dimensions and the format id, FMT_RESOLVE resolves it, and DECODE of the payload into a fresh image gives the same image. -/
def Obligations.ContainerReadIsItsExpansion : Prop :=
  ∀ (s t : State) (fh : Handle), runCommand .containerRead s = .next t → t.faulted = none → t.port.status = 0 →
    t.port.result = .image (some fh) →
      ∃ (s1 s2 : State) (w ht : Int) (fmt : Byte) (f : PixelFormat),
        exec .hdrRead s = .next s1 ∧ s1.port.result = .header w ht fmt ∧
        exec (.fmtResolve fmt) s1 = .next s2 ∧ s2.port.result = .format f (bpp f) ∧
        ∀ s3 : State, s3.Live → s3.tileOrder = s.tileOrder → s3.rgb8DecodeAlpha = s.rgb8DecodeAlpha →
          s3.port.ops.argW = w → s3.port.ops.argH = ht → s3.bufValue = s.fileValue.drop 0x80 →
          s3.imgOperand = some (fh, Image.fresh w.toNat ht.toNat) →
            ∃ s4, exec (decodeOfFmt fmt) s3 = .next s4 ∧ s4.port.status = 0 ∧ s4.port.result = .image (some fh) ∧
              Store.find? s4.mem.imgs fh = Store.find? t.mem.imgs fh

/-- 30_encoding.md R90: a CONTAINER_WRITE that ends with OK is HDR_WRITE of the image's size and ENCODE into a fresh buffer: the file is the header
of HDR_WRITE followed by the buffer of ENCODE. -/
def Obligations.ContainerWriteIsItsExpansion : Prop :=
  ∀ (s t : State) (fh : Handle) (fmt : Byte) (f : PixelFormat), resolve fmt = .ok f →
    runCommand (.containerWrite fmt) s = .next t → t.faulted = none → t.port.status = 0 → t.port.result = .file fh →
      let img := s.imgValue
      ∀ (s1 s2 : State) (bh : Handle), s1.Live → s1.port.ops.argW = img.w → s1.port.ops.argH = img.h →
        s2.Live → s2.tileOrder = s.tileOrder → s2.imgValue = img →
        s2.bufOperand = some (bh, s.freshBytes (img.w * img.h * bpp f)) →
          ∃ t1 t2 hdr buf, exec (.hdrWrite fmt) s1 = .next t1 ∧ t1.port.result = .bytes hdr ∧
            exec (encodeOfFmt fmt) s2 = .next t2 ∧ t2.port.result = .buffer (some bh) ∧ Store.find? t2.mem.bufs bh = some buf ∧
            Store.find? t.mem.files fh = some (hdr ++ buf)

/-! ### Frames -/

/-- PXPACK, PXUNPACK, FMT_RESOLVE, HDR_WRITE, TILE_LOOKUP, the ETC1 and the `#nn` commands store nothing: every byte, pixel and file is as before,
and so is everything but `CMD`, `STATUS`, `RESULT` and the mark `FAULTED`. -/
def Obligations.CommandsThatStoreNothing : Prop :=
  ∀ (i : Instr) (s t : State), (∀ f, i ≠ encodeInstr f ∧ i ≠ decodeInstr f) → i ≠ .hdrRead →
    (∀ fmt, i = .encodeInvalid fmt ∨ i = .decodeInvalid fmt → namedFormatId fmt = false) → exec i s = .next t →
      SameRest s t ∧ t.port.ops = s.port.ops ∧
        (∀ h o, bufByte t.mem h o = bufByte s.mem h o) ∧ (∀ h o, fileByteAt t.mem h o = fileByteAt s.mem h o) ∧
        ∀ h x y, imgPixel t.mem h x y = imgPixel s.mem h x y

/-- HDR_READ stores nothing; it changes only `CMD`, `STATUS`, `RESULT` and the count of its instance's file accesses. -/
def Obligations.HdrReadFrame : Prop :=
  ∀ s t : State, exec .hdrRead s = .next t →
    t.mem = s.mem ∧ t.port.ops = s.port.ops ∧ t.others = s.others ∧ t.tileOrder = s.tileOrder ∧
      t.rgb8DecodeAlpha = s.rgb8DecodeAlpha ∧ t.host = s.host ∧ t.port.lane = s.port.lane ∧ t.port.drawCount = s.port.drawCount ∧
      t.faulted = s.faulted ∧ t.refused = s.refused

/-- ENCODE of the six formats stores only to the first `need` bytes of the buffer that `BUF` names (41_codec_engines.md R110): every other byte of
every buffer, every file and every image are as before, and no operand field changes; where `BUF` names none it stores nothing (log 12). -/
def Obligations.EncodeFrame : Prop :=
  ∀ (f : PixelFormat) (s t : State), exec (encodeInstr f) s = .next t →
    SameRest s t ∧ t.port.ops = s.port.ops ∧
      (∀ h o, ¬(s.port.ops.buf = some h ∧ o < need f s.imgValue.w s.imgValue.h) → bufByte t.mem h o = bufByte s.mem h o) ∧
      (∀ h o, fileByteAt t.mem h o = fileByteAt s.mem h o) ∧ (∀ h x y, imgPixel t.mem h x y = imgPixel s.mem h x y) ∧
      ∀ bh, (Store.find? t.mem.bufs bh).map List.length = (Store.find? s.mem.bufs bh).map List.length

/-- DECODE of the six formats stores only to the visited pixels of the image that `IMG` names (41_codec_engines.md R110): every other pixel of every
image, every buffer and every file are as before, and no operand field changes; where `IMG` names none it stores nothing (log 12). -/
def Obligations.DecodeFrame : Prop :=
  ∀ (f : PixelFormat) (s t : State), exec (decodeInstr f) s = .next t →
    SameRest s t ∧ t.port.ops = s.port.ops ∧
      (∀ h x y, ¬(s.port.ops.img = some h ∧ x < s.port.ops.argW.toNat / 8 * 8 ∧ y < s.port.ops.argH.toNat / 8 * 8) →
        imgPixel t.mem h x y = imgPixel s.mem h x y) ∧
      (∀ h o, bufByte t.mem h o = bufByte s.mem h o) ∧ ∀ h o, fileByteAt t.mem h o = fileByteAt s.mem h o

/-! ### The whole machine -/

/-- The values that 70_reset_and_hazards.md R270 gives the command interface and the marks at reset: no command pending, no handle, `RESULT` empty, no mark
set. The values it leaves open are the model's choice and not stated here (logs 3 to 6). -/
def Obligations.ResetValues : Prop :=
  State.reset.port.cmd = none ∧ State.reset.port.ops.img = none ∧ State.reset.port.ops.buf = none ∧
    State.reset.port.ops.file = none ∧ State.reset.port.result = .empty ∧ State.reset.faulted = none ∧ State.reset.refused = false

/-- The reset state meets the invariant, the default table among it (40_tile_order.md R96, R98). The table's values are PRESUMED (log 3), and that
`STATUS` holds a code the block writes is the model's choice of 0 (log 6). -/
def Obligations.ResetMeetsInvariant : Prop :=
  State.reset.Inv ∧ State.reset.Live

/-- Every step keeps the invariant: the host's memory stays canonical, the table keeps meeting 40_tile_order.md R98, `STATUS` holds only codes the
block writes (60_exceptions.md R238), `RESULT` is empty beside every status but OK (10_state.md R27), no two instances share a lane (log 14), and at most
one mark is set. After a reset and after a start the clause on `STATUS` rests on the model's choice of 0 (log 6). -/
def Obligations.StepKeepsInvariant : Prop :=
  ∀ s t : State, s.Inv → step s = .next t → t.Inv

/-- 10_state.md R20: no command writes the Tile Order Table, and no step does; nor `RGB8_DECODE_ALPHA`. -/
def Obligations.ConstantTablesAreNeverWritten : Prop :=
  (∀ (i : Instr) (s t : State), exec i s = .next t → t.tileOrder = s.tileOrder ∧ t.rgb8DecodeAlpha = s.rgb8DecodeAlpha) ∧
    ∀ s t : State, step s = .next t → t.tileOrder = s.tileOrder ∧ t.rgb8DecodeAlpha = s.rgb8DecodeAlpha

/-- 20_memory.md R40, R41: no command resizes a buffer or an image, and none takes one away; a file that is there never changes, which of CONTAINER_WRITE
is the model's choice of a fresh handle (log 14; 91_not_in_source.md N15). -/
def Obligations.CommandsNeverResize : Prop :=
  ∀ (c : Command) (s t : State), runCommand c s = .next t →
    (∀ h buf, Store.find? s.mem.bufs h = some buf → ∃ buf', Store.find? t.mem.bufs h = some buf' ∧ buf'.length = buf.length) ∧
    (∀ h img, Store.find? s.mem.imgs h = some img → ∃ img', Store.find? t.mem.imgs h = some img' ∧ img'.w = img.w ∧ img'.h = img.h) ∧
    ∀ h f, Store.find? s.mem.files h = some f → Store.find? t.mem.files h = some f

/-- 10_state.md R31: every command's outputs depend only on its own operands, the constant table and `RGB8_DECODE_ALPHA`, whatever an earlier command left:
two states that agree on them end alike. `IO_FAIL` counts for HDR_READ, CONTAINER_WRITE and CONTAINER_READ only (20_memory.md R59). The outputs of the two
sequences are the fresh object too, so they also depend on its handle (log 14), and CONTAINER_WRITE's on the free draws of its payload (log 9); an operand
that is not there is a function of what its handle field holds (log 12). An instruction word also leaves the objects that the handles name alike where they
were alike. -/
def Obligations.OutputsDependOnOperandsOnly : Prop :=
  ∀ s t : State, s.Live → t.Live → s.tileOrder = t.tileOrder → s.rgb8DecodeAlpha = t.rgb8DecodeAlpha →
    (∀ (i : Instr) (s' : State), SameOwnOperands i s t → exec i s = .next s' →
      ∃ t', exec i t = .next t' ∧ SameOutputs s' t' ∧ (s.imgOperand = t.imgOperand → t'.imgOperand = s'.imgOperand) ∧
        (s.bufOperand = t.bufOperand → t'.bufOperand = s'.bufOperand) ∧ (s.fileOperand = t.fileOperand → t'.fileOperand = s'.fileOperand)) ∧
    (∀ (fmt : Byte) (s' : State), SameImgOperand s t → SameIo s t 1 → s.freshFile = t.freshFile →
      (∀ n, s.freshBytes n = t.freshBytes n) → runCommand (.containerWrite fmt) s = .next s' →
        ∃ t', runCommand (.containerWrite fmt) t = .next t' ∧ SameOutputs s' t') ∧
    ∀ s' : State, SameFileOperand s t → SameIo s t 3 → s.freshImage = t.freshImage → runCommand .containerRead s = .next s' →
      ∃ t', runCommand .containerRead t = .next t' ∧ SameOutputs s' t'

/-- 20_memory.md R60: two commands on two instances whose operands are disjoint commute, whole-container sequences too and whatever `IO_FAIL` answers: if
both complete without a fault in one order, they do in the other, with the same final state. Disjoint is as 20_memory.md R61 says: no object that one
of them writes is named by both. -/
def Obligations.DisjointCommandsCommute : Prop :=
  ∀ (s s1 s2 : State) (q : Port) (qs : List Port) (c d : Command), s.mem.wf = true → s.others = q :: qs →
    s.port.cmd = some c → q.cmd = some d → s.port.overlaps q s.mem = false →
      runCommand c s = .next s1 → runCommand d (swap s1) = .next s2 → s2.faulted = none →
        ∃ t1, runCommand d (swap s) = .next t1 ∧ runCommand c (swap t1) = .next (swap s2)
end

