-- ==== Sys2Proof/Laws/State.lean ====
section
/-!
SUPPORT. One lemma for each field of the state and each update, so that no later proof unfolds a record update.
-/

namespace Sys2Proof.Machine

variable (s : State)

@[simp] theorem State.endOk_tileOrder (r : Result) : (s.endOk r).tileOrder = s.tileOrder := rfl

@[simp] theorem State.endOk_rgb8DecodeAlpha (r : Result) : (s.endOk r).rgb8DecodeAlpha = s.rgb8DecodeAlpha := rfl

@[simp] theorem State.endOk_others (r : Result) : (s.endOk r).others = s.others := rfl

@[simp] theorem State.endOk_mem (r : Result) : (s.endOk r).mem = s.mem := rfl

@[simp] theorem State.endOk_host (r : Result) : (s.endOk r).host = s.host := rfl

@[simp] theorem State.endOk_faulted (r : Result) : (s.endOk r).faulted = s.faulted := rfl

@[simp] theorem State.endOk_refused (r : Result) : (s.endOk r).refused = s.refused := rfl

@[simp] theorem State.endOk_port (r : Result) : (s.endOk r).port = { s.port with cmd := none, status := Status.ok.code, result := r } := rfl

@[simp] theorem State.endStatus_tileOrder (st : Status) : (s.endStatus st).tileOrder = s.tileOrder := rfl

@[simp] theorem State.endStatus_rgb8DecodeAlpha (st : Status) : (s.endStatus st).rgb8DecodeAlpha = s.rgb8DecodeAlpha := rfl

@[simp] theorem State.endStatus_others (st : Status) : (s.endStatus st).others = s.others := rfl

@[simp] theorem State.endStatus_mem (st : Status) : (s.endStatus st).mem = s.mem := rfl

@[simp] theorem State.endStatus_host (st : Status) : (s.endStatus st).host = s.host := rfl

@[simp] theorem State.endStatus_faulted (st : Status) : (s.endStatus st).faulted = s.faulted := rfl

@[simp] theorem State.endStatus_refused (st : Status) : (s.endStatus st).refused = s.refused := rfl

@[simp] theorem State.endStatus_port (st : Status) : (s.endStatus st).port = { s.port with cmd := none, status := st.code, result := .empty } := rfl

@[simp] theorem State.takeFault_tileOrder (r : FaultReason) : (s.takeFault r).tileOrder = s.tileOrder := rfl

@[simp] theorem State.takeFault_rgb8DecodeAlpha (r : FaultReason) : (s.takeFault r).rgb8DecodeAlpha = s.rgb8DecodeAlpha := rfl

@[simp] theorem State.takeFault_others (r : FaultReason) : (s.takeFault r).others = s.others := rfl

@[simp] theorem State.takeFault_mem (r : FaultReason) : (s.takeFault r).mem = s.mem := rfl

@[simp] theorem State.takeFault_host (r : FaultReason) : (s.takeFault r).host = s.host := rfl

@[simp] theorem State.takeFault_faulted (r : FaultReason) : (s.takeFault r).faulted = some r := rfl

@[simp] theorem State.takeFault_refused (r : FaultReason) : (s.takeFault r).refused = s.refused := rfl

@[simp] theorem State.takeFault_port (r : FaultReason) : (s.takeFault r).port = { s.port with cmd := none } := rfl

@[simp] theorem State.setRefused_tileOrder : s.setRefused.tileOrder = s.tileOrder := rfl

@[simp] theorem State.setRefused_rgb8DecodeAlpha : s.setRefused.rgb8DecodeAlpha = s.rgb8DecodeAlpha := rfl

@[simp] theorem State.setRefused_others : s.setRefused.others = s.others := rfl

@[simp] theorem State.setRefused_mem : s.setRefused.mem = s.mem := rfl

@[simp] theorem State.setRefused_host : s.setRefused.host = s.host := rfl

@[simp] theorem State.setRefused_faulted : s.setRefused.faulted = s.faulted := rfl

@[simp] theorem State.setRefused_refused : s.setRefused.refused = true := rfl

@[simp] theorem State.setRefused_port : s.setRefused.port = s.port := rfl

@[simp] theorem State.setBuf_tileOrder (h : Handle) (bs : List Byte) : (s.setBuf h bs).tileOrder = s.tileOrder := rfl

@[simp] theorem State.setBuf_rgb8DecodeAlpha (h : Handle) (bs : List Byte) : (s.setBuf h bs).rgb8DecodeAlpha = s.rgb8DecodeAlpha := rfl

@[simp] theorem State.setBuf_others (h : Handle) (bs : List Byte) : (s.setBuf h bs).others = s.others := rfl

@[simp] theorem State.setBuf_mem (h : Handle) (bs : List Byte) : (s.setBuf h bs).mem = { s.mem with bufs := Store.put s.mem.bufs h bs } := rfl

@[simp] theorem State.setBuf_host (h : Handle) (bs : List Byte) : (s.setBuf h bs).host = s.host := rfl

@[simp] theorem State.setBuf_faulted (h : Handle) (bs : List Byte) : (s.setBuf h bs).faulted = s.faulted := rfl

@[simp] theorem State.setBuf_refused (h : Handle) (bs : List Byte) : (s.setBuf h bs).refused = s.refused := rfl

@[simp] theorem State.setBuf_port (h : Handle) (bs : List Byte) : (s.setBuf h bs).port = s.port := rfl

@[simp] theorem State.setImg_tileOrder (h : Handle) (img : Image) : (s.setImg h img).tileOrder = s.tileOrder := rfl

@[simp] theorem State.setImg_rgb8DecodeAlpha (h : Handle) (img : Image) : (s.setImg h img).rgb8DecodeAlpha = s.rgb8DecodeAlpha := rfl

@[simp] theorem State.setImg_others (h : Handle) (img : Image) : (s.setImg h img).others = s.others := rfl

@[simp] theorem State.setImg_mem (h : Handle) (img : Image) : (s.setImg h img).mem = { s.mem with imgs := Store.put s.mem.imgs h img } := rfl

@[simp] theorem State.setImg_host (h : Handle) (img : Image) : (s.setImg h img).host = s.host := rfl

@[simp] theorem State.setImg_faulted (h : Handle) (img : Image) : (s.setImg h img).faulted = s.faulted := rfl

@[simp] theorem State.setImg_refused (h : Handle) (img : Image) : (s.setImg h img).refused = s.refused := rfl

@[simp] theorem State.setImg_port (h : Handle) (img : Image) : (s.setImg h img).port = s.port := rfl

@[simp] theorem State.setFile_tileOrder (h : Handle) (bs : List Byte) : (s.setFile h bs).tileOrder = s.tileOrder := rfl

@[simp] theorem State.setFile_rgb8DecodeAlpha (h : Handle) (bs : List Byte) : (s.setFile h bs).rgb8DecodeAlpha = s.rgb8DecodeAlpha := rfl

@[simp] theorem State.setFile_others (h : Handle) (bs : List Byte) : (s.setFile h bs).others = s.others := rfl

@[simp] theorem State.setFile_mem (h : Handle) (bs : List Byte) : (s.setFile h bs).mem = { s.mem with files := Store.put s.mem.files h bs } := rfl

@[simp] theorem State.setFile_host (h : Handle) (bs : List Byte) : (s.setFile h bs).host = s.host := rfl

@[simp] theorem State.setFile_faulted (h : Handle) (bs : List Byte) : (s.setFile h bs).faulted = s.faulted := rfl

@[simp] theorem State.setFile_refused (h : Handle) (bs : List Byte) : (s.setFile h bs).refused = s.refused := rfl

@[simp] theorem State.setFile_port (h : Handle) (bs : List Byte) : (s.setFile h bs).port = s.port := rfl

@[simp] theorem State.afterIo_tileOrder (n : Nat) : (s.afterIo n).tileOrder = s.tileOrder := rfl

@[simp] theorem State.afterIo_rgb8DecodeAlpha (n : Nat) : (s.afterIo n).rgb8DecodeAlpha = s.rgb8DecodeAlpha := rfl

@[simp] theorem State.afterIo_others (n : Nat) : (s.afterIo n).others = s.others := rfl

@[simp] theorem State.afterIo_mem (n : Nat) : (s.afterIo n).mem = s.mem := rfl

@[simp] theorem State.afterIo_host (n : Nat) : (s.afterIo n).host = s.host := rfl

@[simp] theorem State.afterIo_faulted (n : Nat) : (s.afterIo n).faulted = s.faulted := rfl

@[simp] theorem State.afterIo_refused (n : Nat) : (s.afterIo n).refused = s.refused := rfl

@[simp] theorem State.afterIo_port (n : Nat) : (s.afterIo n).port =
    { s.port with ioAnswers := s.port.ioAnswers.drop n, ioCount := s.port.ioCount + n } := rfl

@[simp] theorem State.afterDraws_tileOrder (n : Nat) : (s.afterDraws n).tileOrder = s.tileOrder := rfl

@[simp] theorem State.afterDraws_rgb8DecodeAlpha (n : Nat) : (s.afterDraws n).rgb8DecodeAlpha = s.rgb8DecodeAlpha := rfl

@[simp] theorem State.afterDraws_others (n : Nat) : (s.afterDraws n).others = s.others := rfl

@[simp] theorem State.afterDraws_mem (n : Nat) : (s.afterDraws n).mem = s.mem := rfl

@[simp] theorem State.afterDraws_host (n : Nat) : (s.afterDraws n).host = s.host := rfl

@[simp] theorem State.afterDraws_faulted (n : Nat) : (s.afterDraws n).faulted = s.faulted := rfl

@[simp] theorem State.afterDraws_refused (n : Nat) : (s.afterDraws n).refused = s.refused := rfl

@[simp] theorem State.afterDraws_port (n : Nat) : (s.afterDraws n).port = { s.port with drawCount := s.port.drawCount + n } := rfl

@[simp] theorem State.resetBlock_tileOrder : s.resetBlock.tileOrder = s.tileOrder := rfl

@[simp] theorem State.resetBlock_rgb8DecodeAlpha : s.resetBlock.rgb8DecodeAlpha = s.rgb8DecodeAlpha := rfl

@[simp] theorem State.resetBlock_others : s.resetBlock.others = s.others.map Port.restart := rfl

@[simp] theorem State.resetBlock_mem : s.resetBlock.mem = s.mem := rfl

@[simp] theorem State.resetBlock_host : s.resetBlock.host = s.host := rfl

@[simp] theorem State.resetBlock_faulted : s.resetBlock.faulted = none := rfl

@[simp] theorem State.resetBlock_refused : s.resetBlock.refused = false := rfl

@[simp] theorem State.resetBlock_port : s.resetBlock.port = s.port.restart := rfl

/-- A reset keeps an instance's lane and its free values (log 17). -/
@[simp] theorem Port.restart_lane (p : Port) : p.restart.lane = p.lane := rfl

@[simp] theorem Port.restart_ioAnswers (p : Port) : p.restart.ioAnswers = p.ioAnswers := rfl

@[simp] theorem Port.restart_ioCount (p : Port) : p.restart.ioCount = p.ioCount := rfl

@[simp] theorem Port.restart_drawCount (p : Port) : p.restart.drawCount = p.drawCount := rfl

@[simp] theorem Port.restart_cmd (p : Port) : p.restart.cmd = none := rfl

@[simp] theorem Port.restart_ops (p : Port) : p.restart.ops = Operands.reset := rfl

@[simp] theorem Port.restart_status (p : Port) : p.restart.status = 0 := rfl

@[simp] theorem Port.restart_result (p : Port) : p.restart.result = .empty := rfl

@[simp] theorem State.writeBuf_tileOrder (bs : List Byte) : (s.writeBuf bs).tileOrder = s.tileOrder := by
  unfold State.writeBuf
  split <;> rfl

@[simp] theorem State.writeBuf_rgb8DecodeAlpha (bs : List Byte) : (s.writeBuf bs).rgb8DecodeAlpha = s.rgb8DecodeAlpha := by
  unfold State.writeBuf
  split <;> rfl

@[simp] theorem State.writeBuf_others (bs : List Byte) : (s.writeBuf bs).others = s.others := by
  unfold State.writeBuf
  split <;> rfl

@[simp] theorem State.writeBuf_host (bs : List Byte) : (s.writeBuf bs).host = s.host := by
  unfold State.writeBuf
  split <;> rfl

@[simp] theorem State.writeBuf_faulted (bs : List Byte) : (s.writeBuf bs).faulted = s.faulted := by
  unfold State.writeBuf
  split <;> rfl

@[simp] theorem State.writeBuf_refused (bs : List Byte) : (s.writeBuf bs).refused = s.refused := by
  unfold State.writeBuf
  split <;> rfl

@[simp] theorem State.writeBuf_port (bs : List Byte) : (s.writeBuf bs).port = s.port := by
  unfold State.writeBuf
  split <;> rfl

@[simp] theorem State.writeImg_tileOrder (img : Image) : (s.writeImg img).tileOrder = s.tileOrder := by
  unfold State.writeImg
  split <;> rfl

@[simp] theorem State.writeImg_rgb8DecodeAlpha (img : Image) : (s.writeImg img).rgb8DecodeAlpha = s.rgb8DecodeAlpha := by
  unfold State.writeImg
  split <;> rfl

@[simp] theorem State.writeImg_others (img : Image) : (s.writeImg img).others = s.others := by
  unfold State.writeImg
  split <;> rfl

@[simp] theorem State.writeImg_host (img : Image) : (s.writeImg img).host = s.host := by
  unfold State.writeImg
  split <;> rfl

@[simp] theorem State.writeImg_faulted (img : Image) : (s.writeImg img).faulted = s.faulted := by
  unfold State.writeImg
  split <;> rfl

@[simp] theorem State.writeImg_refused (img : Image) : (s.writeImg img).refused = s.refused := by
  unfold State.writeImg
  split <;> rfl

@[simp] theorem State.writeImg_port (img : Image) : (s.writeImg img).port = s.port := by
  unfold State.writeImg
  split <;> rfl

/-- The turn changes only which interface is in turn. -/
theorem State.turn_frame :
    s.turn.tileOrder = s.tileOrder ∧ s.turn.rgb8DecodeAlpha = s.rgb8DecodeAlpha ∧ s.turn.mem = s.mem ∧ s.turn.host = s.host ∧
      s.turn.faulted = s.faulted ∧ s.turn.refused = s.refused := by
  cases h : s.others <;> simp [State.turn, h]

/-- The turn only permutes the interfaces. -/
theorem State.turn_ports : List.Perm (s.turn.port :: s.turn.others) (s.port :: s.others) := by
  cases h : s.others with
  | nil => simp [State.turn, h]
  | cons q qs =>
    simp only [State.turn, h]
    exact (List.Perm.cons q (List.perm_append_singleton s.port qs)).trans (List.Perm.swap s.port q qs)

/-- With the interfaces as they stand an operand accessor depends on the handle and the memory only. -/
theorem State.imgOperand_congr {s t : State} (hp : s.port.ops.img = t.port.ops.img) (hm : s.mem.imgs = t.mem.imgs) :
    s.imgOperand = t.imgOperand := by
  simp [State.imgOperand, hp, hm]

theorem State.bufOperand_congr {s t : State} (hp : s.port.ops.buf = t.port.ops.buf) (hm : s.mem.bufs = t.mem.bufs) :
    s.bufOperand = t.bufOperand := by
  simp [State.bufOperand, hp, hm]

theorem State.fileOperand_congr {s t : State} (hp : s.port.ops.file = t.port.ops.file) (hm : s.mem.files = t.mem.files) :
    s.fileOperand = t.fileOperand := by
  simp [State.fileOperand, hp, hm]

end Sys2Proof.Machine
end

