-- ==== Sys2Proof/Laws/Store.lean ====
section
/-!
SUPPORT. The laws of the sparse tables: a read after a write, and that every write keeps the canonical form.
-/

namespace Sys2Proof.Machine

variable {α : Type}

@[simp] theorem Store.find?_nil (k : Nat) : Store.find? ([] : List (Nat × α)) k = none := rfl

/-- A read after a write gives the value written there, and elsewhere what it gave before. -/
theorem Store.find?_put (m : List (Nat × α)) (k : Nat) (v : α) (k' : Nat) :
    Store.find? (Store.put m k v) k' = if k = k' then some v else Store.find? m k' := by
  induction m with
  | nil => simp [Store.put, Store.find?]
  | cons e m ih =>
    obtain ⟨a, b⟩ := e
    simp only [Store.put]
    split
    · simp only [Store.find?]
    · split
      · rename_i h
        subst h
        simp only [Store.find?]
        split <;> simp_all
      · simp only [Store.find?, ih]
        by_cases h1 : a = k' <;> by_cases h2 : k = k' <;> simp_all

@[simp] theorem Store.find?_put_self (m : List (Nat × α)) (k : Nat) (v : α) : Store.find? (Store.put m k v) k = some v := by
  simp [Store.find?_put]

theorem Store.find?_put_other (m : List (Nat × α)) {k k' : Nat} (v : α) (h : k ≠ k') :
    Store.find? (Store.put m k v) k' = Store.find? m k' := by
  simp [Store.find?_put, h]

/-- What a written table lists. -/
theorem Store.mem_put {m : List (Nat × α)} {k : Nat} {v : α} {e : Nat × α} (h : e ∈ Store.put m k v) : e = (k, v) ∨ e ∈ m := by
  induction m with
  | nil => simpa [Store.put] using h
  | cons a m ih =>
    simp only [Store.put] at h
    split at h
    · simpa using h
    · split at h
      · rcases List.mem_cons.1 h with h | h
        · exact .inl h
        · exact .inr (List.mem_cons_of_mem _ h)
      · rcases List.mem_cons.1 h with h | h
        · exact .inr (h ▸ List.mem_cons_self)
        · exact (ih h).imp id (List.mem_cons_of_mem _)

/-- A read gives only what is listed. -/
theorem Store.mem_of_find? {m : List (Nat × α)} {k : Nat} {v : α} (h : Store.find? m k = some v) : (k, v) ∈ m := by
  induction m with
  | nil => simp at h
  | cons a m ih =>
    simp only [Store.find?] at h
    split at h
    · rename_i hk
      have hv : a.2 = v := by simpa using h
      exact List.mem_cons.2 (.inl (by rw [← hk, ← hv]))
    · exact List.mem_cons_of_mem _ (ih h)

/-- The canonical form as the library's sorted lists. -/
theorem Store.rising_iff (m : List (Nat × α)) : Store.rising m = true ↔ m.Pairwise fun a b => a.1 < b.1 := by
  induction m with
  | nil => simp [Store.rising]
  | cons a m ih =>
    cases m with
    | nil => simp [Store.rising]
    | cons b m =>
      simp only [Store.rising, Bool.and_eq_true, decide_eq_true_eq, ih, List.pairwise_cons]
      constructor
      · rintro ⟨hab, hb, hm⟩
        refine ⟨?_, hb, hm⟩
        intro c hc
        rcases List.mem_cons.1 hc with rfl | hc
        · exact hab
        · exact hab.trans (hb c hc)
      · rintro ⟨ha, hb, hm⟩
        exact ⟨ha b List.mem_cons_self, hb, hm⟩

/-- A write keeps the canonical form. -/
theorem Store.rising_put {m : List (Nat × α)} (h : Store.rising m = true) (k : Nat) (v : α) :
    Store.rising (Store.put m k v) = true := by
  rw [Store.rising_iff] at h ⊢
  induction m with
  | nil => simp [Store.put]
  | cons a m ih =>
    obtain ⟨ha, hm⟩ := List.pairwise_cons.1 h
    simp only [Store.put]
    split
    · rename_i hk
      refine List.pairwise_cons.2 ⟨?_, h⟩
      intro c hc
      rcases List.mem_cons.1 hc with rfl | hc
      · exact hk
      · exact Nat.lt_trans hk (ha c hc)
    · split
      · rename_i hk
        exact List.pairwise_cons.2 ⟨fun c hc => by have := ha c hc; simp_all, hm⟩
      · rename_i h1 h2
        refine List.pairwise_cons.2 ⟨?_, ih hm⟩
        intro c hc
        rcases Store.mem_put hc with rfl | hc
        · show a.1 < k
          omega
        · exact ha c hc

/-- In a canonical table what is listed is what a read gives. -/
theorem Store.find?_of_mem {m : List (Nat × α)} (h : Store.rising m = true) {k : Nat} {v : α} (hm : (k, v) ∈ m) :
    Store.find? m k = some v := by
  rw [Store.rising_iff] at h
  induction m with
  | nil => simp at hm
  | cons a m ih =>
    obtain ⟨ha, hr⟩ := List.pairwise_cons.1 h
    simp only [Store.find?]
    rcases List.mem_cons.1 hm with hm | hm
    · subst hm
      simp
    · have := ha _ hm
      split
      · rename_i hk
        exact absurd this (by simp [hk])
      · exact ih hr hm

/-- A key below every listed one is not listed. -/
theorem Store.find?_none_of_lt {m : List (Nat × α)} {k : Nat} (h : ∀ e ∈ m, k < e.1) : Store.find? m k = none := by
  cases hf : Store.find? m k with
  | none => rfl
  | some v => exact absurd (h _ (Store.mem_of_find? hf)) (Nat.lt_irrefl k)

/-- Canonical tables that read the same are equal. -/
theorem Store.ext {m m' : List (Nat × α)} (h : Store.rising m = true) (h' : Store.rising m' = true)
    (hf : ∀ k, Store.find? m k = Store.find? m' k) : m = m' := by
  induction m generalizing m' with
  | nil =>
    cases m' with
    | nil => rfl
    | cons a m' =>
      have := hf a.1
      simp [Store.find?] at this
  | cons a m ih =>
    cases m' with
    | nil =>
      have := hf a.1
      simp [Store.find?] at this
    | cons b m' =>
      rw [Store.rising_iff] at h h'
      obtain ⟨ha, hm⟩ := List.pairwise_cons.1 h
      obtain ⟨hb, hm'⟩ := List.pairwise_cons.1 h'
      have hab : a.1 = b.1 := by
        rcases Nat.lt_trichotomy a.1 b.1 with hlt | heq | hgt
        · have h1 := hf a.1
          rw [Store.find?_none_of_lt (m := b :: m')] at h1
          · simp [Store.find?] at h1
          · intro e he
            rcases List.mem_cons.1 he with rfl | he
            · exact hlt
            · exact Nat.lt_trans hlt (hb e he)
        · exact heq
        · have h1 := hf b.1
          rw [Store.find?_none_of_lt (m := a :: m)] at h1
          · simp [Store.find?] at h1
          · intro e he
            rcases List.mem_cons.1 he with rfl | he
            · exact hgt
            · exact Nat.lt_trans hgt (ha e he)
      have hv : a.2 = b.2 := by
        have h1 := hf a.1
        simpa [Store.find?, hab] using h1
      have hab' : a = b := Prod.ext hab hv
      subst hab'
      congr 1
      refine ih ((Store.rising_iff m).2 hm) ((Store.rising_iff m').2 hm') ?_
      intro k
      by_cases hk : a.1 = k
      · subst hk
        rw [Store.find?_none_of_lt ha, Store.find?_none_of_lt hb]
      · simpa [Store.find?, hk] using hf k

/-- Writes to two keys may change places. -/
theorem Store.put_comm {m : List (Nat × α)} (h : Store.rising m = true) {k k' : Nat} (hk : k ≠ k') (v v' : α) :
    Store.put (Store.put m k v) k' v' = Store.put (Store.put m k' v') k v := by
  refine Store.ext (Store.rising_put (Store.rising_put h _ _) _ _) (Store.rising_put (Store.rising_put h _ _) _ _) ?_
  intro x
  simp only [Store.find?_put]
  by_cases h1 : k = x <;> by_cases h2 : k' = x <;> simp_all

/-- A key of a lane is in that lane, with its number. -/
theorem Store.laneKey_mod (lane n : Nat) :
    Store.laneKey lane n % 2 ^ (lane + 1) = 2 ^ lane ∧ Store.laneKey lane n / 2 ^ (lane + 1) = n := by
  have h : 2 ^ lane < 2 ^ (lane + 1) := Nat.pow_lt_pow_right (by decide) (Nat.lt_succ_self lane)
  unfold Store.laneKey
  rw [Nat.mul_comm n]
  exact ⟨by rw [Nat.mul_add_mod, Nat.mod_eq_of_lt h], by rw [Nat.mul_add_div (by omega), Nat.div_eq_of_lt h, Nat.add_zero]⟩

/-- No key is in two lanes. -/
theorem Store.lane_unique {a b k : Nat} (ha : k % 2 ^ (a + 1) = 2 ^ a) (hb : k % 2 ^ (b + 1) = 2 ^ b) : a = b := by
  have key : ∀ {x y : Nat}, k % 2 ^ (x + 1) = 2 ^ x → k % 2 ^ (y + 1) = 2 ^ y → ¬x < y := by
    intro x y hx hy hlt
    have h1 : k % 2 ^ (y + 1) % 2 ^ (x + 1) = k % 2 ^ (x + 1) := Nat.mod_mod_of_dvd k (Nat.pow_dvd_pow 2 (by omega))
    rw [hy, hx, Nat.mod_eq_zero_of_dvd (Nat.pow_dvd_pow 2 (by omega : x + 1 ≤ y))] at h1
    exact absurd h1.symm (by positivity)
  rcases Nat.lt_trichotomy a b with h | h | h
  · exact absurd h (key ha hb)
  · exact h
  · exact absurd h (key hb ha)

/-- Every listed key of a lane has a number below the lane's next. -/
theorem Store.lt_laneNext {m : List (Nat × α)} {lane : Nat} {e : Nat × α} (h : e ∈ m) (hl : e.1 % 2 ^ (lane + 1) = 2 ^ lane) :
    e.1 / 2 ^ (lane + 1) < Store.laneNext lane m := by
  induction m with
  | nil => simp at h
  | cons a m ih =>
    simp only [Store.laneNext]
    rcases List.mem_cons.1 h with rfl | h
    · rw [if_pos hl]
      omega
    · have := ih h
      split <;> omega

/-- The fresh key is not listed. -/
@[simp] theorem Store.find?_fresh (lane : Nat) (m : List (Nat × α)) : Store.find? m (Store.fresh lane m) = none := by
  cases hf : Store.find? m (Store.fresh lane m) with
  | none => rfl
  | some v =>
    obtain ⟨h1, h2⟩ := Store.laneKey_mod lane (Store.laneNext lane m)
    have := Store.lt_laneNext (Store.mem_of_find? hf) h1
    exact absurd (h2 ▸ this) (Nat.lt_irrefl _)

/-- What a write makes of the lane's next number. -/
theorem Store.laneNext_put (m : List (Nat × α)) (lane k : Nat) (v : α) :
    Store.laneNext lane (Store.put m k v) =
      if k % 2 ^ (lane + 1) = 2 ^ lane then max (k / 2 ^ (lane + 1) + 1) (Store.laneNext lane m) else Store.laneNext lane m := by
  induction m with
  | nil => rfl
  | cons a m ih =>
    obtain ⟨k', v'⟩ := a
    simp only [Store.put]
    split
    · rfl
    · split
      · rename_i hk
        subst hk
        simp only [Store.laneNext]
        split <;> omega
      · simp only [Store.laneNext, ih]
        split <;> split <;> omega

/-- Writing a key of another lane keeps the fresh key of a lane. -/
theorem Store.fresh_put {m : List (Nat × α)} {lane k : Nat} (v : α) (h : k % 2 ^ (lane + 1) ≠ 2 ^ lane) :
    Store.fresh lane (Store.put m k v) = Store.fresh lane m := by
  rw [Store.fresh, Store.laneNext_put, if_neg h, Store.fresh]

/-- Writing a listed key keeps the fresh key of every lane. -/
theorem Store.fresh_put_listed {m : List (Nat × α)} {k : Nat} {w : α} (lane : Nat) (v : α) (h : Store.find? m k = some w) :
    Store.fresh lane (Store.put m k v) = Store.fresh lane m := by
  rw [Store.fresh, Store.laneNext_put, Store.fresh]
  split
  · rename_i hl
    have := Store.lt_laneNext (Store.mem_of_find? h) hl
    rw [Nat.max_eq_right this]
  · rfl

/-- A fresh key of one lane keeps the fresh key of another. -/
theorem Store.fresh_put_fresh {m : List (Nat × α)} {a b : Nat} (v : α) (h : a ≠ b) :
    Store.fresh b (Store.put m (Store.fresh a m) v) = Store.fresh b m :=
  Store.fresh_put v fun hk => h (Store.lane_unique (Store.laneKey_mod a _).1 hk)

end Sys2Proof.Machine
end

