-- ==== Sys2Proof/Laws/Ops.lean ====
section
/-!
SUPPORT. What the shared operations can do: the guard, memory reads and writes, pixel reads and writes, the handles' operands, and that
every memory operation keeps the canonical form.
-/

namespace Sys2Proof.Machine

/-- Where no mark is set the guard lets everything through. -/
@[simp] theorem guarded_live {s : State} (h : s.Live) (o : Host.Outcome State Fault Refusal) : guarded s o = o := by
  simp [guarded, h.1, h.2]

/-- The guard answers a next state only where no mark is set. -/
theorem guarded_next {s t : State} {o : Host.Outcome State Fault Refusal} (h : guarded s o = .next t) : s.Live ∧ o = .next t := by
  unfold guarded at h
  split at h
  · simp at h
  · rename_i hf
    split at h
    · simp at h
    · rename_i hr
      exact ⟨⟨hf, by simpa using hr⟩, h⟩

/-- A faulted state stops. -/
theorem guarded_faulted {s : State} {r : FaultReason} (h : s.faulted = some r) (o : Host.Outcome State Fault Refusal) :
    guarded s o = .fault (.faulted r) := by
  simp [guarded, h]

/-- A refused state stops. -/
theorem guarded_refused {s : State} (h : s.faulted = none) (h' : s.refused = true) (o : Host.Outcome State Fault Refusal) :
    guarded s o = .refused .refusedRun := by
  simp [guarded, h, h']

/-- What a memory read gives. -/
theorem memRead_eq_ok {buf : List Byte} {off n : Nat} {bs : List Byte} :
    memRead buf off n = .ok bs ↔ off + n ≤ buf.length ∧ bs = (buf.drop off).take n := by
  unfold memRead
  split <;> simp_all [eq_comm]

/-- A memory read within the sequence succeeds. -/
theorem memRead_of_le {buf : List Byte} {off n : Nat} (h : off + n ≤ buf.length) :
    memRead buf off n = .ok ((buf.drop off).take n) :=
  memRead_eq_ok.2 ⟨h, rfl⟩

/-- A memory write within the sequence succeeds. -/
theorem memWrite_of_le {buf : List Byte} {off : Nat} {v : List Byte} (h : off + v.length ≤ buf.length) :
    memWrite buf off v = .ok (buf.take off ++ v ++ buf.drop (off + v.length)) := by
  simp [memWrite, h]

/-- What a memory write does: the length stays, the written bytes are `v`, every other byte is as before. -/
theorem memWrite_ok {buf out : List Byte} {off : Nat} {v : List Byte} (h : memWrite buf off v = .ok out) :
    off + v.length ≤ buf.length ∧ out.length = buf.length ∧
      ∀ o, out[o]? = if off ≤ o ∧ o < off + v.length then v[o - off]? else buf[o]? := by
  unfold memWrite at h
  split at h
  · rename_i hle
    obtain rfl : buf.take off ++ v ++ buf.drop (off + v.length) = out := by simpa using h
    refine ⟨hle, by simp; omega, fun o => ?_⟩
    rw [List.append_assoc]
    by_cases h1 : o < off
    · rw [List.getElem?_append_left (by simp; omega), if_neg (by omega), List.getElem?_take_of_lt h1]
    · rw [List.getElem?_append_right (by simp; omega)]
      have hmin : (buf.take off).length = off := by simp; omega
      rw [hmin]
      by_cases h2 : o < off + v.length
      · rw [if_pos (by omega), List.getElem?_append_left (by omega)]
      · rw [if_neg (by omega), List.getElem?_append_right (by omega), List.getElem?_drop]
        congr 1
        omega
  · simp at h

/-- A write outside the sequence is the fault BufferUnderrun. -/
theorem memWrite_error {buf : List Byte} {off : Nat} {v : List Byte} {r : FaultReason} (h : memWrite buf off v = .error r) :
    r = .bufferUnderrun ∧ buf.length < off + v.length := by
  unfold memWrite at h
  split at h
  · simp at h
  · exact ⟨by simpa using h.symm, by omega⟩

/-- Within the image, different positions have different keys. -/
theorem Image.key_inj {img : Image} {x y x' y' : Nat} (hx : x < img.w) (hx' : x' < img.w) :
    img.key x y = img.key x' y' ↔ x = x' ∧ y = y' := by
  constructor
  · intro h
    unfold Image.key at h
    have h1 : (y * img.w + x) % img.w = x := by rw [Nat.mul_add_mod_self_right, Nat.mod_eq_of_lt hx]
    have h2 : (y' * img.w + x') % img.w = x' := by rw [Nat.mul_add_mod_self_right, Nat.mod_eq_of_lt hx']
    have hxx : x = x' := by rw [← h1, h, h2]
    refine ⟨hxx, ?_⟩
    subst hxx
    have h3 : y * img.w = y' * img.w := by omega
    exact Nat.eq_of_mul_eq_mul_right (by omega) h3
  · rintro ⟨rfl, rfl⟩
    rfl

/-- A pixel write inside the image succeeds. -/
theorem Image.write_of_lt {img : Image} {x y : Nat} (p : Pixel) (hx : x < img.w) (hy : y < img.h) :
    img.write x y p = .ok { img with px := Store.put img.px (img.key x y) p } := by
  simp [Image.write, hx, hy]

/-- What a pixel write does: the size stays, the pixel is written, every other one is as before. -/
theorem Image.write_ok {img out : Image} {x y : Nat} {p : Pixel} (h : img.write x y p = .ok out) :
    x < img.w ∧ y < img.h ∧ out.w = img.w ∧ out.h = img.h ∧
      ∀ x' y', out.read x' y' = if x' = x ∧ y' = y then .ok p else img.read x' y' := by
  unfold Image.write at h
  split at h
  · rename_i hin
    obtain ⟨hx, hy⟩ := hin
    obtain rfl : { img with px := Store.put img.px (img.key x y) p } = out := by simpa using h
    refine ⟨hx, hy, rfl, rfl, fun x' y' => ?_⟩
    simp only [Image.read]
    by_cases hin' : x' < img.w ∧ y' < img.h
    · rw [if_pos hin', if_pos hin']
      have hk : Image.key { img with px := Store.put img.px (img.key x y) p } x' y' = img.key x' y' := rfl
      rw [hk, Store.find?_put]
      by_cases he : x' = x ∧ y' = y
      · rw [if_pos he, if_pos ((Image.key_inj hx hin'.1).2 ⟨he.1.symm, he.2.symm⟩)]
      · rw [if_neg he, if_neg fun hkey => he (by
          have := (Image.key_inj hx hin'.1).1 hkey
          exact ⟨this.1.symm, this.2.symm⟩)]
    · rw [if_neg hin', if_neg hin', if_neg]
      rintro ⟨rfl, rfl⟩
      exact hin' ⟨hx, hy⟩
  · simp at h

/-- A pixel write outside the image is the fault ImageBounds. -/
theorem Image.write_error {img : Image} {x y : Nat} {p : Pixel} {r : FaultReason} (h : img.write x y p = .error r) :
    r = .imageBounds ∧ ¬(x < img.w ∧ y < img.h) := by
  unfold Image.write at h
  split at h
  · simp at h
  · rename_i hn
    exact ⟨by simpa using h.symm, hn⟩

/-- Inside the image the only fault of a pixel read is UnwrittenPixel. -/
theorem Image.read_error {img : Image} {x y : Nat} {r : FaultReason} (hx : x < img.w) (hy : y < img.h)
    (h : img.read x y = .error r) : r = .unwrittenPixel := by
  unfold Image.read at h
  rw [if_pos ⟨hx, hy⟩] at h
  split at h
  · simp at h
  · simpa using h.symm

/-- A fresh image has no written pixel. -/
theorem Image.read_fresh (w h x y : Nat) :
    (Image.fresh w h).read x y = if x < w ∧ y < h then .error .unwrittenPixel else .error .imageBounds := rfl

theorem Image.wf_fresh (w h : Nat) : (Image.fresh w h).wf = true := by
  simp [Image.wf, Image.fresh, Store.rising]

/-- A pixel write keeps the canonical form. -/
theorem Image.wf_write {img out : Image} {x y : Nat} {p : Pixel} (hw : img.wf = true) (h : img.write x y p = .ok out) :
    out.wf = true := by
  unfold Image.write at h
  split at h
  · rename_i hin
    obtain rfl : { img with px := Store.put img.px (img.key x y) p } = out := by simpa using h
    simp only [Image.wf, Bool.and_eq_true, List.all_eq_true, decide_eq_true_eq] at hw ⊢
    refine ⟨Store.rising_put hw.1 _ _, fun e he => ?_⟩
    rcases Store.mem_put he with rfl | he
    · show y * img.w + x < img.w * img.h
      have : (y + 1) * img.w ≤ img.h * img.w := Nat.mul_le_mul_right _ (by omega)
      rw [Nat.mul_comm img.w]
      have : (y + 1) * img.w = y * img.w + img.w := Nat.succ_mul y img.w
      omega
    · exact hw.2 e he
  · simp at h

/-- What writing one listed pixel does: the image keeps its size and its canonical form, and the pixel stands there if it lies inside. -/
theorem Image.writeListed_spec (img : Image) (e : Nat × Nat × Pixel) :
    (img.writeListed e).w = img.w ∧ (img.writeListed e).h = img.h ∧ (img.wf = true → (img.writeListed e).wf = true) ∧
      ∀ x y, (img.writeListed e).read x y = if x < img.w ∧ y < img.h ∧ e.1 = x ∧ e.2.1 = y then .ok e.2.2 else img.read x y := by
  unfold Image.writeListed
  split
  · rename_i out hw
    obtain ⟨hx, hy, h1, h2, h3⟩ := Image.write_ok hw
    refine ⟨h1, h2, fun h => Image.wf_write h hw, fun x y => ?_⟩
    rw [h3]
    congr 1
    exact propext ⟨fun h => by omega, fun h => by omega⟩
  · rename_i r hw
    have hb := (Image.write_error hw).2
    exact ⟨rfl, rfl, id, fun x y => by rw [if_neg (by omega)]⟩

/-- What listing pixels gives: the image's size, its canonical form, and at each place the last pixel listed for it. -/
theorem Image.ofPixels_spec (w h : Nat) (px : List (Nat × Nat × Pixel)) :
    (Image.ofPixels w h px).w = w ∧ (Image.ofPixels w h px).h = h ∧ (Image.ofPixels w h px).wf = true ∧
      ∀ x y, (Image.ofPixels w h px).read x y =
        if x < w ∧ y < h then
          match px.reverse.find? fun e => e.1 = x ∧ e.2.1 = y with
          | some e => .ok e.2.2
          | none => .error .unwrittenPixel
        else .error .imageBounds := by
  rw [Image.ofPixels, List.foldl_eq_foldr_reverse]
  induction px.reverse with
  | nil => exact ⟨rfl, rfl, Image.wf_fresh w h, fun _ _ => rfl⟩
  | cons e l ih =>
    obtain ⟨h1, h2, h3, h4⟩ := ih
    rw [List.foldr_cons]
    obtain ⟨g1, g2, g3, g4⟩ := Image.writeListed_spec (l.foldr (fun e img => img.writeListed e) (Image.fresh w h)) e
    refine ⟨g1.trans h1, g2.trans h2, g3 h3, fun x y => ?_⟩
    rw [g4, h1, h2, h4, List.find?_cons]
    by_cases hx : x < w ∧ y < h <;> by_cases he : e.1 = x ∧ e.2.1 = y <;> simp [hx, he]

/-- What `Memory.wf` says, part by part. -/
theorem Memory.wf_iff (m : Memory) : m.wf = true ↔
    Store.rising m.bufs = true ∧ Store.rising m.imgs = true ∧ Store.rising m.files = true ∧ ∀ e ∈ m.imgs, e.2.wf = true := by
  simp [Memory.wf, and_assoc]

/-- Writing a buffer keeps the canonical form. -/
theorem State.wf_setBuf {s : State} (hw : s.mem.wf = true) (h : Handle) (bs : List Byte) : (s.setBuf h bs).mem.wf = true := by
  rw [Memory.wf_iff] at hw ⊢
  exact ⟨Store.rising_put hw.1 _ _, hw.2⟩

/-- Writing a file keeps the canonical form. -/
theorem State.wf_setFile {s : State} (hw : s.mem.wf = true) (h : Handle) (bs : List Byte) : (s.setFile h bs).mem.wf = true := by
  rw [Memory.wf_iff] at hw ⊢
  exact ⟨hw.1, hw.2.1, Store.rising_put hw.2.2.1 _ _, hw.2.2.2⟩

/-- Writing a canonical image keeps the canonical form. -/
theorem State.wf_setImg {s : State} (hw : s.mem.wf = true) (h : Handle) {img : Image} (hi : img.wf = true) :
    (s.setImg h img).mem.wf = true := by
  rw [Memory.wf_iff] at hw ⊢
  refine ⟨hw.1, Store.rising_put hw.2.1 _ _, hw.2.2.1, fun e he => ?_⟩
  rcases Store.mem_put he with rfl | he
  · exact hi
  · exact hw.2.2.2 e he

/-- What an operand is: the handle names the object. -/
theorem State.imgOperand_eq {s : State} {h : Handle} {img : Image} :
    s.imgOperand = some (h, img) ↔ s.port.ops.img = some h ∧ Store.find? s.mem.imgs h = some img := by
  unfold State.imgOperand
  cases s.port.ops.img with
  | none => simp
  | some k =>
    simp only [Option.bind_some, Option.map_eq_some_iff, Prod.mk.injEq, Option.some.injEq]
    constructor
    · rintro ⟨a, ha, rfl, rfl⟩
      exact ⟨rfl, ha⟩
    · rintro ⟨rfl, ha⟩
      exact ⟨img, ha, rfl, rfl⟩

theorem State.bufOperand_eq {s : State} {h : Handle} {buf : List Byte} :
    s.bufOperand = some (h, buf) ↔ s.port.ops.buf = some h ∧ Store.find? s.mem.bufs h = some buf := by
  unfold State.bufOperand
  cases s.port.ops.buf with
  | none => simp
  | some k =>
    simp only [Option.bind_some, Option.map_eq_some_iff, Prod.mk.injEq, Option.some.injEq]
    constructor
    · rintro ⟨a, ha, rfl, rfl⟩
      exact ⟨rfl, ha⟩
    · rintro ⟨rfl, ha⟩
      exact ⟨buf, ha, rfl, rfl⟩

theorem State.fileOperand_eq {s : State} {h : Handle} {f : List Byte} :
    s.fileOperand = some (h, f) ↔ s.port.ops.file = some h ∧ Store.find? s.mem.files h = some f := by
  unfold State.fileOperand
  cases s.port.ops.file with
  | none => simp
  | some k =>
    simp only [Option.bind_some, Option.map_eq_some_iff, Prod.mk.injEq, Option.some.injEq]
    constructor
    · rintro ⟨a, ha, rfl, rfl⟩
      exact ⟨rfl, ha⟩
    · rintro ⟨rfl, ha⟩
      exact ⟨f, ha, rfl, rfl⟩

/-- Where the handle names an object the command takes that object. -/
theorem State.imgValue_of_some {s : State} {h : Handle} {img : Image} (hi : s.imgOperand = some (h, img)) : s.imgValue = img := by
  simp only [State.imgValue, hi]

theorem State.bufValue_of_some {s : State} {h : Handle} {buf : List Byte} (hb : s.bufOperand = some (h, buf)) : s.bufValue = buf := by
  simp only [State.bufValue, hb]

theorem State.fileValue_of_some {s : State} {h : Handle} {f : List Byte} (hf : s.fileOperand = some (h, f)) : s.fileValue = f := by
  simp only [State.fileValue, hf]

/-- What a write through `BUF` does: it writes the buffer that `BUF` names, and nothing where it names none. -/
theorem State.writeBuf_of_some {s : State} {h : Handle} {buf : List Byte} (bs : List Byte) (hb : s.bufOperand = some (h, buf)) :
    s.writeBuf bs = s.setBuf h bs := by
  simp only [State.writeBuf, hb]

theorem State.writeBuf_of_none {s : State} (bs : List Byte) (hb : s.bufOperand = none) : s.writeBuf bs = s := by
  simp only [State.writeBuf, hb]

theorem State.writeImg_of_some {s : State} {h : Handle} {old : Image} (img : Image) (hi : s.imgOperand = some (h, old)) :
    s.writeImg img = s.setImg h img := by
  simp only [State.writeImg, hi]

theorem State.writeImg_of_none {s : State} (img : Image) (hi : s.imgOperand = none) : s.writeImg img = s := by
  simp only [State.writeImg, hi]

/-- The image that a canonical memory holds is canonical. -/
theorem State.imgOperand_wf {s : State} {h : Handle} {img : Image} (hw : s.mem.wf = true) (hi : s.imgOperand = some (h, img)) :
    img.wf = true :=
  ((Memory.wf_iff _).1 hw).2.2.2 _ (Store.mem_of_find? (State.imgOperand_eq.1 hi).2)

end Sys2Proof.Machine
end

