-- ==== Sys2Proof/Laws/Pixels.lean ====
section
/-!
SUPPORT. The laws of the per-pixel functions and of format resolution: lengths, when a pixel can be unpacked, and what resolving a
format id gives.
-/

namespace Sys2Proof.Machine

/-- Every packed pixel is `bpp(f)` bytes long (30_encoding.md R81). -/
@[simp] theorem length_pack (f : PixelFormat) (p : Pixel) : (pack f p).length = bpp f := by
  cases f <;> rfl

theorem bpp_pos (f : PixelFormat) : 0 < bpp f := by
  cases f <;> decide

theorem bpp_le_four (f : PixelFormat) : bpp f ≤ 4 := by
  cases f <;> decide

/-- Enough bytes can be unpacked. -/
theorem unpack_of_le (alpha : Byte) {f : PixelFormat} {bs : List Byte} (h : bpp f ≤ bs.length) :
    ∃ p, unpack alpha f bs = .ok p := by
  match f, bs, h with
  | .rgba8, _ :: _ :: _ :: _ :: _, _ => exact ⟨_, rfl⟩
  | .rgb8, _ :: _ :: _ :: _, _ => exact ⟨_, rfl⟩
  | .a8, _ :: _, _ => exact ⟨_, rfl⟩
  | .rgb565, _ :: _ :: _, _ => exact ⟨_, rfl⟩
  | .rgba4, _ :: _ :: _, _ => exact ⟨_, rfl⟩
  | .rgba5551, _ :: _ :: _, _ => exact ⟨_, rfl⟩

/-- Too few bytes are the fault BufferUnderrun (42_pixel_formats.md R157). -/
theorem unpack_of_lt (alpha : Byte) {f : PixelFormat} {bs : List Byte} (h : bs.length < bpp f) :
    unpack alpha f bs = .error .bufferUnderrun := by
  match f, bs, h with
  | .rgba8, [], _ => rfl
  | .rgba8, [_], _ => rfl
  | .rgba8, [_, _], _ => rfl
  | .rgba8, [_, _, _], _ => rfl
  | .rgb8, [], _ => rfl
  | .rgb8, [_], _ => rfl
  | .rgb8, [_, _], _ => rfl
  | .a8, [], _ => rfl
  | .rgb565, [], _ => rfl
  | .rgb565, [_], _ => rfl
  | .rgba4, [], _ => rfl
  | .rgba4, [_], _ => rfl
  | .rgba5551, [], _ => rfl
  | .rgba5551, [_], _ => rfl

/-- A resolved format id is the id of its format (43_container.md R192). -/
theorem resolve_id (f : PixelFormat) : resolve f.id = .ok f := by
  cases f <;> rfl

/-- Resolution of every id but the six (43_container.md R192). -/
theorem resolve_error_code {fmt : Byte} {st : Status} (h : resolve fmt = .error st) :
    st = .unsupportedFormat ∨ st = .invalidFormatId := by
  unfold resolve at h
  split at h <;> simp_all

/-- The catch-all rows' ids are invalid (30_encoding.md R79). -/
theorem resolve_of_not_named {fmt : Byte} (h : namedFormatId fmt = false) : resolve fmt = .error .invalidFormatId := by
  unfold resolve
  unfold namedFormatId at h
  split <;> simp_all

end Sys2Proof.Machine
end

