-- ==== Sys2Proof/Laws/Codec.lean ====
section
/-!
SUPPORT. The laws of the block iteration: which cursors the traversal holds, that their byte groups follow each other without a gap, that their
positions are the visited region, and what the two loops do.
-/

namespace Sys2Proof.Machine

/-! ### Tile positions -/

theorem tilePos_lt (t : TileTable) (i : Fin 64) : (tilePos t i).1 < 8 ∧ (tilePos t i).2 < 8 := by
  have h : t[i].val < 64 := t[i].isLt
  simp only [tilePos, Config.blockEdge]
  omega

/-- In a table without repetition the position gives the traversal index. -/
theorem tilePos_inj {t : TileTable} (ht : TileInjective t) {i j : Fin 64} (h : tilePos t i = tilePos t j) : i = j := by
  refine ht i j (Fin.ext ?_)
  simp only [tilePos, Config.blockEdge, Prod.mk.injEq] at h
  omega

/-- In a table without repetition every position of the block is visited (40_tile_order.md R96). -/
theorem tilePos_surj {t : TileTable} (ht : TileInjective t) {x y : Nat} (hx : x < 8) (hy : y < 8) :
    ∃ i : Fin 64, tilePos t i = (x, y) := by
  have hsurj : Function.Surjective fun i : Fin 64 => t[i] := Finite.surjective_of_injective fun i j h => ht i j h
  obtain ⟨i, hi⟩ := hsurj ⟨8 * y + x, by omega⟩
  refine ⟨i, ?_⟩
  have hv : t[i].val = 8 * y + x := congrArg Fin.val hi
  simp only [tilePos, Config.blockEdge, hv]
  ext <;> simp <;> omega

/-! ### The traversal -/

theorem mem_blocks {nbx nby : Nat} {b : Nat × Nat} : b ∈ blocks nbx nby ↔ b.1 < nby ∧ b.2 < nbx := by
  simp only [blocks, List.mem_flatMap, List.mem_range, List.mem_map]
  constructor
  · rintro ⟨r, hr, c, hc, rfl⟩
    exact ⟨hr, hc⟩
  · rintro ⟨hr, hc⟩
    exact ⟨b.1, hr, b.2, hc, rfl⟩

/-- The offsets of one block's groups, `byte, byte + n, …` (41_codec_engines.md R107). -/
theorem offsets_blockCursors (n : Nat) (b : Nat × Nat) (byte : Nat) :
    (blockCursors b byte).map (Cursor.offset n) = (List.range 64).map fun i => byte + i * n := by
  simp only [blockCursors, List.map_map]
  rw [show (List.range 64) = (List.finRange 64).map Fin.val from by decide, List.map_map]
  rfl

/-- The groups of consecutive blocks follow each other without a gap (41_codec_engines.md R106, R107). -/
theorem offsets_cursorsFrom (n byte : Nat) (bs : List (Nat × Nat)) :
    (cursorsFrom n byte bs).map (Cursor.offset n) = (List.range (bs.length * 64)).map fun k => byte + k * n := by
  induction bs generalizing byte with
  | nil => rfl
  | cons b bs ih =>
    rw [cursorsFrom, List.map_append, offsets_blockCursors, ih, List.length_cons,
      show (bs.length + 1) * 64 = 64 + bs.length * 64 by omega, List.range_add, List.map_append, List.map_map]
    congr 1
    apply List.map_congr_left
    intro k _
    simp only [Function.comp_apply]
    ring

theorem length_blocks (nbx nby : Nat) : (blocks nbx nby).length = nbx * nby := by
  simp [blocks, List.length_flatMap, Nat.mul_comm]

/-- The k-th group of the traversal stands at offset `k * n`. -/
theorem offsets_traversal (n nbx nby : Nat) :
    (traversal n nbx nby).map (Cursor.offset n) = (List.range (nbx * nby * 64)).map fun k => k * n := by
  rw [traversal, offsets_cursorsFrom, length_blocks]
  simp

/-- A command makes `nbx * nby * 64` pixel steps (70_reset_and_hazards.md R281). -/
theorem length_traversal (n nbx nby : Nat) : (traversal n nbx nby).length = nbx * nby * 64 := by
  have h := congrArg List.length (offsets_traversal n nbx nby)
  simpa using h

/-- The byte groups of the traversal follow each other. -/
theorem pairwise_offsets (n nbx nby : Nat) :
    (traversal n nbx nby).Pairwise fun a b => a.offset n + n ≤ b.offset n := by
  have h : ((traversal n nbx nby).map (Cursor.offset n)).Pairwise fun a b => a + n ≤ b := by
    rw [offsets_traversal, List.pairwise_map]
    refine List.pairwise_lt_range.imp ?_
    intro a b hab
    have h1 : (a + 1) * n ≤ b * n := Nat.mul_le_mul_right n hab
    have h2 : (a + 1) * n = a * n + n := Nat.succ_mul a n
    omega
  exact List.pairwise_map.1 h

/-- The byte groups of the traversal end within `need`. -/
theorem offset_add_le {n nbx nby : Nat} {c : Cursor} (hc : c ∈ traversal n nbx nby) :
    c.offset n + n ≤ nbx * nby * 64 * n := by
  have h : c.offset n ∈ (traversal n nbx nby).map (Cursor.offset n) := List.mem_map_of_mem hc
  rw [offsets_traversal] at h
  obtain ⟨k, hk, hkc⟩ := List.mem_map.1 h
  rw [← hkc]
  have h1 : (k + 1) * n ≤ nbx * nby * 64 * n := Nat.mul_le_mul_right n (List.mem_range.1 hk)
  have h2 : (k + 1) * n = k * n + n := Nat.succ_mul k n
  omega

/-- Every byte within `need` belongs to a group of the traversal. -/
theorem exists_offset {n nbx nby o : Nat} (hn : 0 < n) (ho : o < nbx * nby * 64 * n) :
    ∃ c ∈ traversal n nbx nby, c.offset n ≤ o ∧ o < c.offset n + n := by
  have hk : o / n < nbx * nby * 64 := Nat.div_lt_of_lt_mul (by rw [Nat.mul_comm]; exact ho)
  have h : o / n * n ∈ (traversal n nbx nby).map (Cursor.offset n) := by
    rw [offsets_traversal]
    exact List.mem_map.2 ⟨o / n, List.mem_range.2 hk, rfl⟩
  obtain ⟨c, hc, hco⟩ := List.mem_map.1 h
  refine ⟨c, hc, ?_⟩
  rw [hco]
  have h1 := Nat.div_add_mod o n
  have h2 := Nat.mod_lt o hn
  rw [Nat.mul_comm] at h1
  omega

theorem mem_blockCursors {b : Nat × Nat} {byte : Nat} {c : Cursor} :
    c ∈ blockCursors b byte ↔ c.row = b.1 ∧ c.col = b.2 ∧ c.byte = byte := by
  simp only [blockCursors, List.mem_map, List.mem_finRange, true_and]
  constructor
  · rintro ⟨i, rfl⟩
    exact ⟨rfl, rfl, rfl⟩
  · rintro ⟨h1, h2, h3⟩
    exact ⟨c.idx, by cases c; simp_all⟩

/-- A cursor of consecutive blocks is one of the blocks' and the block's place gives its byte offset. -/
theorem mem_cursorsFrom {n byte : Nat} {bs : List (Nat × Nat)} {c : Cursor} :
    c ∈ cursorsFrom n byte bs ↔ ∃ k, bs[k]? = some (c.row, c.col) ∧ c.byte = byte + k * (64 * n) := by
  induction bs generalizing byte with
  | nil => simp [cursorsFrom]
  | cons b bs ih =>
    rw [cursorsFrom, List.mem_append, mem_blockCursors, ih]
    constructor
    · rintro (⟨h1, h2, h3⟩ | ⟨k, hk, hb⟩)
      · exact ⟨0, by simp [h1, h2], by omega⟩
      · have h1 : (k + 1) * (64 * n) = k * (64 * n) + 64 * n := Nat.succ_mul k (64 * n)
        exact ⟨k + 1, by simpa using hk, by omega⟩
    · rintro ⟨k, hk, hb⟩
      cases k with
      | zero =>
        have hk : b = (c.row, c.col) := by simpa using hk
        exact .inl ⟨by simp [hk], by simp [hk], by omega⟩
      | succ k =>
        have h1 : (k + 1) * (64 * n) = k * (64 * n) + 64 * n := Nat.succ_mul k (64 * n)
        exact .inr ⟨k, by simpa using hk, by omega⟩

/-- The place of a block in the row-major order. -/
theorem getElem?_blocks {nbx nby r c : Nat} (hr : r < nby) (hc : c < nbx) :
    (blocks nbx nby)[r * nbx + c]? = some (r, c) := by
  induction nby generalizing r with
  | zero => omega
  | succ m ih =>
    have hb : blocks nbx (m + 1) = blocks nbx m ++ (List.range nbx).map fun c => (m, c) := by
      simp [blocks, List.range_succ]
    rw [hb]
    by_cases h : r < m
    · rw [List.getElem?_append_left, ih h]
      rw [length_blocks, Nat.mul_comm nbx m]
      have h1 : (r + 1) * nbx ≤ m * nbx := Nat.mul_le_mul_right nbx h
      have h2 : (r + 1) * nbx = r * nbx + nbx := Nat.succ_mul r nbx
      omega
    · obtain rfl : r = m := by omega
      rw [List.getElem?_append_right (by rw [length_blocks, Nat.mul_comm nbx r]; omega), length_blocks, Nat.mul_comm nbx,
        Nat.add_sub_cancel_left]
      simp [hc]

theorem nodup_blocks (nbx nby : Nat) : (blocks nbx nby).Nodup := by
  unfold blocks
  rw [List.nodup_flatMap]
  refine ⟨fun r _ => List.Nodup.map (fun a b h => by simpa using h) List.nodup_range, ?_⟩
  refine List.nodup_range.imp ?_
  intro a b hab
  simp only [Function.onFun, List.disjoint_left, List.mem_map]
  rintro x ⟨c, _, rfl⟩ ⟨c', _, h⟩
  exact hab (by simpa using (congrArg Prod.fst h).symm)

/-- Exactly these cursors are visited: block (row, col) of the grid, any traversal index, the byte offset of 41_codec_engines.md R107. -/
theorem mem_traversal {n nbx nby : Nat} {c : Cursor} :
    c ∈ traversal n nbx nby ↔ c.row < nby ∧ c.col < nbx ∧ c.byte = (c.row * nbx + c.col) * (64 * n) := by
  rw [traversal, mem_cursorsFrom]
  constructor
  · rintro ⟨k, hk, hb⟩
    obtain ⟨hr, hc⟩ := mem_blocks.1 (List.mem_of_getElem? hk)
    have hk' := getElem?_blocks hr hc
    have hlt : k < (blocks nbx nby).length := (List.getElem?_eq_some_iff.1 hk).1
    have hkk : k = c.row * nbx + c.col := (List.getElem?_inj hlt (nodup_blocks nbx nby)).1 (hk.trans hk'.symm)
    exact ⟨hr, hc, by rw [hb, hkk, Nat.zero_add]⟩
  · rintro ⟨hr, hc, hb⟩
    exact ⟨c.row * nbx + c.col, getElem?_blocks hr hc, by rw [hb, Nat.zero_add]⟩

/-- A visited cursor's position lies in the visited region (41_codec_engines.md R110). -/
theorem pos_lt {n nbx nby : Nat} (t : TileTable) {c : Cursor} (hc : c ∈ traversal n nbx nby) :
    c.x t < nbx * 8 ∧ c.y t < nby * 8 := by
  obtain ⟨hr, hcol, _⟩ := mem_traversal.1 hc
  have h := tilePos_lt t c.idx
  simp only [Cursor.x, Cursor.y, Config.blockEdge]
  omega

/-- Every position of the visited region is visited (41_codec_engines.md R110). -/
theorem exists_pos {t : TileTable} (ht : TileInjective t) {nbx nby x y : Nat} (n : Nat) (hx : x < nbx * 8) (hy : y < nby * 8) :
    ∃ c ∈ traversal n nbx nby, c.x t = x ∧ c.y t = y := by
  obtain ⟨i, hi⟩ := tilePos_surj ht (x := x % 8) (y := y % 8) (by omega) (by omega)
  refine ⟨⟨y / 8, x / 8, i, (y / 8 * nbx + x / 8) * (64 * n)⟩, mem_traversal.2 ⟨?_, ?_, rfl⟩, ?_, ?_⟩
  · show y / 8 < nby
    omega
  · show x / 8 < nbx
    omega
  · simp only [Cursor.x, Config.blockEdge, hi]
    omega
  · simp only [Cursor.y, Config.blockEdge, hi]
    omega

/-- Two cursors of the traversal at one position are the same (41_codec_engines.md R110: each pixel once). -/
theorem pos_inj {t : TileTable} (ht : TileInjective t) {n nbx nby : Nat} {c c' : Cursor} (hc : c ∈ traversal n nbx nby)
    (hc' : c' ∈ traversal n nbx nby) (hx : c.x t = c'.x t) (hy : c.y t = c'.y t) : c = c' := by
  obtain ⟨_, _, hb⟩ := mem_traversal.1 hc
  obtain ⟨_, _, hb'⟩ := mem_traversal.1 hc'
  have h := tilePos_lt t c.idx
  have h' := tilePos_lt t c'.idx
  simp only [Cursor.x, Cursor.y, Config.blockEdge] at hx hy
  have hcol : c.col = c'.col := by omega
  have hrow : c.row = c'.row := by omega
  have hidx : c.idx = c'.idx := tilePos_inj ht (Prod.ext (by omega) (by omega))
  cases c
  cases c'
  simp_all

/-- No cursor is listed twice (41_codec_engines.md R106). -/
theorem nodup_traversal (n nbx nby : Nat) : (traversal n nbx nby).Nodup := by
  unfold traversal
  have hb := nodup_blocks nbx nby
  generalize blocks nbx nby = bs at hb ⊢
  generalize 0 = byte
  induction bs generalizing byte with
  | nil => exact List.nodup_nil
  | cons b bs ih =>
    obtain ⟨hb1, hb2⟩ := List.nodup_cons.1 hb
    rw [cursorsFrom, List.nodup_append]
    refine ⟨List.Nodup.map (fun i j h => by simpa using congrArg Cursor.idx h) (List.nodup_finRange 64), ih hb2 _, ?_⟩
    rintro c hc d hd rfl
    obtain ⟨k, hk, _⟩ := mem_cursorsFrom.1 hd
    obtain ⟨h1, h2, _⟩ := mem_blockCursors.1 hc
    exact hb1 (List.mem_of_getElem? (hk.trans (by rw [h1, h2])))

/-- The positions of the traversal are all different. -/
theorem pairwise_pos {t : TileTable} (ht : TileInjective t) (n nbx nby : Nat) :
    (traversal n nbx nby).Pairwise fun a b => ¬(a.x t = b.x t ∧ a.y t = b.y t) := by
  refine (List.Pairwise.and_mem.1 (nodup_traversal n nbx nby)).imp ?_
  rintro a b ⟨ha, hb, hab⟩ ⟨hx, hy⟩
  exact hab (pos_inj ht ha hb hx hy)

/-! ### The ENCODE loop -/

/-- The loop keeps the length, and changes only the groups of its cursors. -/
theorem encodeLoop_frame {t : TileTable} {f : PixelFormat} {img : Image} {cs : List Cursor} {buf out : List Byte}
    (h : encodeLoop t f img cs buf = .ok out) :
    out.length = buf.length ∧
      ∀ o, (∀ c ∈ cs, ¬(c.offset (bpp f) ≤ o ∧ o < c.offset (bpp f) + bpp f)) → out[o]? = buf[o]? := by
  induction cs generalizing buf with
  | nil =>
    obtain rfl : buf = out := by simpa [encodeLoop] using h
    exact ⟨rfl, fun _ _ => rfl⟩
  | cons c cs ih =>
    rw [encodeLoop] at h
    split at h
    · simp at h
    · split at h
      · simp at h
      · rename_i buf' hw
        obtain ⟨_, hl, hg⟩ := memWrite_ok hw
        obtain ⟨hl', hf⟩ := ih h
        refine ⟨hl'.trans hl, fun o ho => ?_⟩
        rw [hf o fun d hd => ho d (List.mem_cons_of_mem _ hd), hg o, length_pack, if_neg (ho c List.mem_cons_self)]

/-- Where the cursors' groups follow each other, the loop writes each cursor's pixel to its group. -/
theorem encodeLoop_writes {t : TileTable} {f : PixelFormat} {img : Image} {cs : List Cursor} {buf out : List Byte}
    (hp : cs.Pairwise fun a b => a.offset (bpp f) + bpp f ≤ b.offset (bpp f)) (h : encodeLoop t f img cs buf = .ok out) :
    ∀ c ∈ cs, ∃ p, img.read (c.x t) (c.y t) = .ok p ∧ ∀ j < bpp f, out[c.offset (bpp f) + j]? = (pack f p)[j]? := by
  induction cs generalizing buf with
  | nil => simp
  | cons c cs ih =>
    obtain ⟨hc, hcs⟩ := List.pairwise_cons.1 hp
    rw [encodeLoop] at h
    split at h
    · simp at h
    · rename_i p hr
      split at h
      · simp at h
      · rename_i buf' hw
        intro d hd
        rcases List.mem_cons.1 hd with rfl | hd
        · refine ⟨p, hr, fun j hj => ?_⟩
          obtain ⟨_, _, hg⟩ := memWrite_ok hw
          rw [(encodeLoop_frame h).2, hg, length_pack, if_pos (by omega), Nat.add_sub_cancel_left]
          intro e he hin
          have := hc e he
          omega
        · exact ih hcs h d hd

/-- The loop completes when every visited pixel is written and every group lies within the buffer. -/
theorem encodeLoop_completes {t : TileTable} {f : PixelFormat} {img : Image} {cs : List Cursor} {buf : List Byte}
    (hr : ∀ c ∈ cs, ∃ p, img.read (c.x t) (c.y t) = .ok p) (hb : ∀ c ∈ cs, c.offset (bpp f) + bpp f ≤ buf.length) :
    ∃ out, encodeLoop t f img cs buf = .ok out := by
  induction cs generalizing buf with
  | nil => exact ⟨buf, rfl⟩
  | cons c cs ih =>
    obtain ⟨p, hp⟩ := hr c List.mem_cons_self
    have hle : c.offset (bpp f) + (pack f p).length ≤ buf.length := by
      rw [length_pack]
      exact hb c List.mem_cons_self
    have hw := memWrite_of_le hle
    obtain ⟨_, hl, _⟩ := memWrite_ok hw
    obtain ⟨out, hout⟩ := ih (buf := _) (fun d hd => hr d (List.mem_cons_of_mem _ hd)) (fun d hd => by
      rw [hl]
      exact hb d (List.mem_cons_of_mem _ hd))
    exact ⟨out, by rw [encodeLoop, hp]; simp only; rw [hw]; exact hout⟩

/-- Within the buffer and the image the loop's only fault is UnwrittenPixel, and some visited pixel is unwritten then. -/
theorem encodeLoop_error {t : TileTable} {f : PixelFormat} {img : Image} {cs : List Cursor} {buf : List Byte} {r : FaultReason}
    (hi : ∀ c ∈ cs, c.x t < img.w ∧ c.y t < img.h) (hb : ∀ c ∈ cs, c.offset (bpp f) + bpp f ≤ buf.length)
    (h : encodeLoop t f img cs buf = .error r) : r = .unwrittenPixel ∧ ∃ c ∈ cs, img.read (c.x t) (c.y t) = .error .unwrittenPixel := by
  induction cs generalizing buf with
  | nil => simp [encodeLoop] at h
  | cons c cs ih =>
    rw [encodeLoop] at h
    split at h
    · rename_i r' hr
      obtain ⟨hx, hy⟩ := hi c List.mem_cons_self
      have hu := Image.read_error hx hy hr
      subst hu
      exact ⟨by simpa using h.symm, c, List.mem_cons_self, hr⟩
    · split at h
      · rename_i hw
        have := (memWrite_error hw).2
        rw [length_pack] at this
        have := hb c List.mem_cons_self
        omega
      · rename_i buf' hw
        obtain ⟨_, hl, _⟩ := memWrite_ok hw
        obtain ⟨h1, d, hd, h2⟩ := ih (fun d hd => hi d (List.mem_cons_of_mem _ hd)) (fun d hd => by
          rw [hl]
          exact hb d (List.mem_cons_of_mem _ hd)) h
        exact ⟨h1, d, List.mem_cons_of_mem _ hd, h2⟩

/-! ### The DECODE loop -/

/-- The loop keeps the image's size and canonical form, and changes only the pixels of its cursors. -/
theorem decodeLoop_frame {t : TileTable} {alpha : Byte} {f : PixelFormat} {buf : List Byte} {cs : List Cursor} {img out : Image}
    (h : decodeLoop t alpha f buf cs img = .ok out) :
    out.w = img.w ∧ out.h = img.h ∧ (img.wf = true → out.wf = true) ∧
      ∀ x y, (∀ c ∈ cs, ¬(c.x t = x ∧ c.y t = y)) → out.read x y = img.read x y := by
  induction cs generalizing img with
  | nil =>
    obtain rfl : img = out := by simpa [decodeLoop] using h
    exact ⟨rfl, rfl, id, fun _ _ _ => rfl⟩
  | cons c cs ih =>
    rw [decodeLoop] at h
    split at h
    · simp at h
    · split at h
      · simp at h
      · split at h
        · simp at h
        · rename_i img' hw
          obtain ⟨_, _, hw1, hw2, hg⟩ := Image.write_ok hw
          obtain ⟨h1, h2, h3, h4⟩ := ih h
          refine ⟨h1.trans hw1, h2.trans hw2, fun hi => h3 (Image.wf_write hi hw), fun x y hxy => ?_⟩
          rw [h4 x y fun d hd => hxy d (List.mem_cons_of_mem _ hd), hg x y, if_neg]
          rintro ⟨rfl, rfl⟩
          exact hxy c List.mem_cons_self ⟨rfl, rfl⟩

/-- Where the cursors' positions differ, the loop writes to each position the pixel its group unpacks to. -/
theorem decodeLoop_writes {t : TileTable} {alpha : Byte} {f : PixelFormat} {buf : List Byte} {cs : List Cursor} {img out : Image}
    (hp : cs.Pairwise fun a b => ¬(a.x t = b.x t ∧ a.y t = b.y t)) (h : decodeLoop t alpha f buf cs img = .ok out) :
    ∀ c ∈ cs, ∃ p, unpack alpha f ((buf.drop (c.offset (bpp f))).take (bpp f)) = .ok p ∧ out.read (c.x t) (c.y t) = .ok p := by
  induction cs generalizing img with
  | nil => simp
  | cons c cs ih =>
    obtain ⟨hc, hcs⟩ := List.pairwise_cons.1 hp
    rw [decodeLoop] at h
    split at h
    · simp at h
    · rename_i bs hm
      split at h
      · simp at h
      · rename_i p hu
        split at h
        · simp at h
        · rename_i img' hw
          intro d hd
          rcases List.mem_cons.1 hd with rfl | hd
          · obtain ⟨_, hbs⟩ := memRead_eq_ok.1 hm
            refine ⟨p, by rw [← hbs, hu], ?_⟩
            obtain ⟨_, _, _, _, hg⟩ := Image.write_ok hw
            rw [(decodeLoop_frame h).2.2.2 _ _ fun e he hpos => hc e he ⟨hpos.1.symm, hpos.2.symm⟩, hg]
            simp
          · exact ih hcs h d hd

/-- The loop completes when every group lies within the buffer and every position within the image. -/
theorem decodeLoop_completes {t : TileTable} {alpha : Byte} {f : PixelFormat} {buf : List Byte} {cs : List Cursor} {img : Image}
    (hb : ∀ c ∈ cs, c.offset (bpp f) + bpp f ≤ buf.length) (hi : ∀ c ∈ cs, c.x t < img.w ∧ c.y t < img.h) :
    ∃ out, decodeLoop t alpha f buf cs img = .ok out := by
  induction cs generalizing img with
  | nil => exact ⟨img, rfl⟩
  | cons c cs ih =>
    have hle := hb c List.mem_cons_self
    have hm := memRead_of_le hle
    obtain ⟨p, hu⟩ := unpack_of_le alpha (f := f) (bs := (buf.drop (c.offset (bpp f))).take (bpp f)) (by simp; omega)
    obtain ⟨hx, hy⟩ := hi c List.mem_cons_self
    have hw := Image.write_of_lt p hx hy
    obtain ⟨out, hout⟩ := ih (img := { img with px := Store.put img.px (img.key (c.x t) (c.y t)) p })
      (fun d hd => hb d (List.mem_cons_of_mem _ hd)) (fun d hd => hi d (List.mem_cons_of_mem _ hd))
    exact ⟨out, by rw [decodeLoop, hm]; simp only; rw [hu]; simp only; rw [hw]; exact hout⟩

/-- Within the buffer the loop's only fault is ImageBounds, and some visited position lies outside the image then. -/
theorem decodeLoop_error {t : TileTable} {alpha : Byte} {f : PixelFormat} {buf : List Byte} {cs : List Cursor} {img : Image}
    {r : FaultReason} (hb : ∀ c ∈ cs, c.offset (bpp f) + bpp f ≤ buf.length) (h : decodeLoop t alpha f buf cs img = .error r) :
    r = .imageBounds ∧ ∃ c ∈ cs, ¬(c.x t < img.w ∧ c.y t < img.h) := by
  induction cs generalizing img with
  | nil => simp [decodeLoop] at h
  | cons c cs ih =>
    have hle := hb c List.mem_cons_self
    rw [decodeLoop, memRead_of_le hle] at h
    obtain ⟨p, hu⟩ := unpack_of_le alpha (f := f) (bs := (buf.drop (c.offset (bpp f))).take (bpp f)) (by simp; omega)
    simp only [hu] at h
    split at h
    · rename_i r' hw
      obtain ⟨hr, hn⟩ := Image.write_error hw
      subst hr
      exact ⟨by simpa using h.symm, c, List.mem_cons_self, hn⟩
    · rename_i img' hw
      obtain ⟨_, _, hw1, hw2, _⟩ := Image.write_ok hw
      obtain ⟨h1, d, hd, h2⟩ := ih (fun d hd => hb d (List.mem_cons_of_mem _ hd)) h
      exact ⟨h1, d, List.mem_cons_of_mem _ hd, by rwa [hw1, hw2] at h2⟩

/-! ### BlockEncode and BlockDecode -/

theorem dimOk_iff (v : Int) : dimOk v = true ↔ 0 ≤ v ∧ v ≤ 32767 := by
  unfold dimOk
  rw [Bool.and_eq_true]
  exact and_congr decide_eq_true_iff decide_eq_true_iff

/-- Which pairs of dimensions the range check turns away. -/
theorem dims_bad_iff (w h : Int) : (!(dimOk w && dimOk h)) = true ↔ w < 0 ∨ 32767 < w ∨ h < 0 ∨ 32767 < h := by
  have h1 := dimOk_iff w
  have h2 := dimOk_iff h
  cases hw : dimOk w <;> cases hh : dimOk h <;> simp_all <;> omega

/-- Dimensions out of range are the fault DimensionOutOfRange, before every other check (60_exceptions.md R241). -/
theorem blockEncode_of_dims {t : TileTable} {f : PixelFormat} {img : Image} {buf : List Byte} (h : 32767 < img.w ∨ 32767 < img.h) :
    blockEncode t f img buf = .error .dimensionOutOfRange := by
  unfold blockEncode
  rw [if_pos ((dims_bad_iff _ _).2 (by omega))]

/-- A buffer shorter than `need` is the fault BufferUnderrun, before any byte is moved (60_exceptions.md R246). -/
theorem blockEncode_of_short {t : TileTable} {f : PixelFormat} {img : Image} {buf : List Byte} (hw : img.w ≤ 32767) (hh : img.h ≤ 32767)
    (hn : buf.length < need f img.w img.h) : blockEncode t f img buf = .error .bufferUnderrun := by
  unfold blockEncode
  rw [if_neg (by rw [dims_bad_iff]; omega), if_pos hn]

theorem blockDecode_of_dims {t : TileTable} {alpha : Byte} {f : PixelFormat} {buf : List Byte} {w h : Int} {img : Image}
    (hd : w < 0 ∨ 32767 < w ∨ h < 0 ∨ 32767 < h) : blockDecode t alpha f buf w h img = .error .dimensionOutOfRange := by
  unfold blockDecode
  rw [if_pos ((dims_bad_iff _ _).2 hd)]

theorem blockDecode_of_short {t : TileTable} {alpha : Byte} {f : PixelFormat} {buf : List Byte} {w h : Int} {img : Image}
    (hd : ¬(w < 0 ∨ 32767 < w ∨ h < 0 ∨ 32767 < h)) (hn : buf.length < need f w.toNat h.toNat) :
    blockDecode t alpha f buf w h img = .error .bufferUnderrun := by
  unfold blockDecode
  rw [if_neg (by rwa [dims_bad_iff]), if_pos hn]

/-- BlockEncode runs its loop exactly when the dimensions are in range and the buffer is long enough (41_codec_engines.md R113). -/
theorem blockEncode_eq {t : TileTable} {f : PixelFormat} {img : Image} {buf : List Byte} (hw : dimOk img.w = true)
    (hh : dimOk img.h = true) (hn : need f img.w img.h ≤ buf.length) :
    blockEncode t f img buf = encodeLoop t f img (traversal (bpp f) (img.w / 8) (img.h / 8)) buf := by
  simp [blockEncode, hw, hh, Nat.not_lt.2 hn, Config.blockEdge]

/-- What a completed BlockEncode had: dimensions in range, a long enough buffer, and its loop. -/
theorem blockEncode_ok {t : TileTable} {f : PixelFormat} {img : Image} {buf out : List Byte} (h : blockEncode t f img buf = .ok out) :
    dimOk img.w = true ∧ dimOk img.h = true ∧ need f img.w img.h ≤ buf.length ∧
      encodeLoop t f img (traversal (bpp f) (img.w / 8) (img.h / 8)) buf = .ok out := by
  unfold blockEncode at h
  split at h
  · simp at h
  · rename_i hd
    split at h
    · simp at h
    · rename_i hn
      simp only [Bool.not_eq_true', Bool.not_eq_false, Bool.and_eq_true] at hd
      exact ⟨hd.1, hd.2, by omega, h⟩

/-- BlockDecode runs its loop exactly when the dimensions are in range and the buffer is long enough (41_codec_engines.md R114). -/
theorem blockDecode_eq {t : TileTable} {alpha : Byte} {f : PixelFormat} {buf : List Byte} {w h : Int} {img : Image}
    (hw : dimOk w = true) (hh : dimOk h = true) (hn : need f w.toNat h.toNat ≤ buf.length) :
    blockDecode t alpha f buf w h img = decodeLoop t alpha f buf (traversal (bpp f) (w.toNat / 8) (h.toNat / 8)) img := by
  simp [blockDecode, hw, hh, Nat.not_lt.2 hn, Config.blockEdge]

/-- What a completed BlockDecode had: dimensions in range, a long enough buffer, and its loop. -/
theorem blockDecode_ok {t : TileTable} {alpha : Byte} {f : PixelFormat} {buf : List Byte} {w h : Int} {img out : Image}
    (hd : blockDecode t alpha f buf w h img = .ok out) :
    dimOk w = true ∧ dimOk h = true ∧ need f w.toNat h.toNat ≤ buf.length ∧
      decodeLoop t alpha f buf (traversal (bpp f) (w.toNat / 8) (h.toNat / 8)) img = .ok out := by
  unfold blockDecode at hd
  split at hd
  · simp at hd
  · rename_i hdim
    split at hd
    · simp at hd
    · rename_i hn
      simp only [Bool.not_eq_true', Bool.not_eq_false, Bool.and_eq_true] at hdim
      exact ⟨hdim.1, hdim.2, by omega, hd⟩

/-- The groups of a W×H command lie within a buffer of at least `need` bytes. -/
theorem offset_le_of_need {f : PixelFormat} {w h : Nat} {buf : List Byte} (hn : need f w h ≤ buf.length) :
    ∀ c ∈ traversal (bpp f) (w / 8) (h / 8), c.offset (bpp f) + bpp f ≤ buf.length := by
  intro c hc
  exact (offset_add_le hc).trans hn

/-- The visited positions of an image lie within it. -/
theorem pos_lt_image (t : TileTable) {n w h : Nat} : ∀ c ∈ traversal n (w / 8) (h / 8), c.x t < w ∧ c.y t < h := by
  intro c hc
  have := pos_lt t hc
  omega

/-- The offset of a visited cursor in the closed form of 41_codec_engines.md R107. -/
theorem offset_closed {f : PixelFormat} {nbx nby : Nat} {c : Cursor} (hc : c ∈ traversal (bpp f) nbx nby) :
    c.offset (bpp f) = groupOffset f nbx c.col c.row c.idx.val := by
  obtain ⟨_, _, hb⟩ := mem_traversal.1 hc
  simp only [Cursor.offset, groupOffset, hb]
  ring

/-- What a completed encode loop leaves at the place of 41_codec_engines.md R107. -/
theorem encodeLoop_group {t : TileTable} {f : PixelFormat} {img : Image} {buf out : List Byte}
    (h : encodeLoop t f img (traversal (bpp f) (img.w / 8) (img.h / 8)) buf = .ok out) {row col : Nat} (hr : row < img.h / 8)
    (hc : col < img.w / 8) (i : Fin 64) :
    ∃ p, img.read (col * 8 + t[i].val % 8) (row * 8 + t[i].val / 8) = .ok p ∧
      ∀ j < bpp f, out[groupOffset f (img.w / 8) col row i.val + j]? = (pack f p)[j]? := by
  let c : Cursor := ⟨row, col, i, (row * (img.w / 8) + col) * (64 * bpp f)⟩
  have hm : c ∈ traversal (bpp f) (img.w / 8) (img.h / 8) := mem_traversal.2 ⟨hr, hc, rfl⟩
  obtain ⟨p, hp, hg⟩ := encodeLoop_writes (pairwise_offsets _ _ _) h c hm
  rw [offset_closed hm] at hg
  exact ⟨p, hp, hg⟩

/-- What a completed decode loop leaves at the place of 41_codec_engines.md R108. -/
theorem decodeLoop_pixel {t : TileTable} (ht : TileInjective t) {alpha : Byte} {f : PixelFormat} {buf : List Byte} {w h : Nat}
    {img out : Image} (ho : decodeLoop t alpha f buf (traversal (bpp f) (w / 8) (h / 8)) img = .ok out) {row col : Nat} (hr : row < h / 8)
    (hc : col < w / 8) (i : Fin 64) :
    ∃ p, unpack alpha f ((buf.drop (groupOffset f (w / 8) col row i.val)).take (bpp f)) = .ok p ∧
      out.read (col * 8 + t[i].val % 8) (row * 8 + t[i].val / 8) = .ok p := by
  let c : Cursor := ⟨row, col, i, (row * (w / 8) + col) * (64 * bpp f)⟩
  have hm : c ∈ traversal (bpp f) (w / 8) (h / 8) := mem_traversal.2 ⟨hr, hc, rfl⟩
  obtain ⟨p, hp, hg⟩ := decodeLoop_writes (pairwise_pos ht _ _ _) ho c hm
  rw [offset_closed hm] at hp
  exact ⟨p, hp, hg⟩

end Sys2Proof.Machine
end

