-- ==== Sys2Proof/Laws/Engine.lean ====
section
/-!
SUPPORT. What a command can do and what a step can do, said once: every way in which they answer a next state. Invariants and frames follow
from these without unfolding a meaning again.
-/

namespace Sys2Proof.Machine

/-- The statuses other than OK that the block raises (60_exceptions.md R236, R239). -/
abbrev Status.Raised (st : Status) : Prop :=
  st ≠ .ok ∧ st ≠ .invalidOutputFormat

/-- Every way a command ends: with a status, with a fault, with outputs that change no memory, with a rewritten buffer, a rewritten
image, a fresh file or a fresh image. `n` counts its file accesses and `d` its free draws. -/
inductive CommandEffect (s : State) : State → Prop where
  | status (n d : Nat) (st : Status) (h : st.Raised) : CommandEffect s (((s.afterDraws d).afterIo n).endStatus st)
  | fault (n d : Nat) (r : FaultReason) : CommandEffect s (((s.afterDraws d).afterIo n).takeFault r)
  | output (n : Nat) (r : Result) (h : r ≠ .empty) : CommandEffect s ((s.afterIo n).endOk r)
  | buffer (h : Handle) (buf out : List Byte) (ho : s.bufOperand = some (h, buf)) (hl : out.length = buf.length) :
      CommandEffect s ((s.setBuf h out).endOk (.buffer (some h)))
  | image (h : Handle) (img out : Image) (ho : s.imgOperand = some (h, img)) (hw : out.w = img.w) (hh : out.h = img.h)
      (hwf : img.wf = true → out.wf = true) : CommandEffect s ((s.setImg h out).endOk (.image (some h)))
  | freshFile (n d : Nat) (bs : List Byte) :
      CommandEffect s ((((s.afterDraws d).afterIo n).setFile s.freshFile bs).endOk (.file s.freshFile))
  | freshImage (n : Nat) (img : Image) (hwf : img.wf = true) :
      CommandEffect s (((s.afterIo n).setImg s.freshImage img).endOk (.image (some s.freshImage)))

/-- A command keeps the instance's lane. -/
theorem CommandEffect.lane {s t : State} (h : CommandEffect s t) : t.port.lane = s.port.lane := by
  cases h <;> rfl

/-- A command keeps the operand fields, the other instances and the host's coming actions. -/
theorem CommandEffect.rest {s t : State} (h : CommandEffect s t) :
    t.port.ops = s.port.ops ∧ t.port.cmd = none ∧ t.others = s.others ∧ t.host = s.host ∧ t.refused = s.refused := by
  cases h <;> exact ⟨rfl, rfl, rfl, rfl, rfl⟩

/-- The next lane is no instance's. -/
theorem State.lt_nextLane {s : State} {p : Port} (hp : p ∈ s.port :: s.others) : p.lane < s.nextLane := by
  unfold State.nextLane
  generalize s.port :: s.others = ps at hp ⊢
  induction ps with
  | nil => simp at hp
  | cons q qs ih =>
    simp only [List.foldr_cons]
    rcases List.mem_cons.1 hp with rfl | hp
    · omega
    · have := ih hp
      omega

theorem State.afterIo_zero (s : State) : s.afterIo 0 = s := rfl

theorem State.afterDraws_zero (s : State) : s.afterDraws 0 = s := rfl

theorem CommandEffect.ofStatus {s : State} {st : Status} (h : st.Raised) (n : Nat) : CommandEffect s ((s.afterIo n).endStatus st) :=
  CommandEffect.status n 0 st h

theorem CommandEffect.ofStatus' {s : State} {st : Status} (h : st.Raised) : CommandEffect s (s.endStatus st) :=
  CommandEffect.status 0 0 st h

theorem CommandEffect.ofFault {s : State} (r : FaultReason) (n : Nat) : CommandEffect s ((s.afterIo n).takeFault r) :=
  CommandEffect.fault n 0 r

theorem CommandEffect.ofFault' {s : State} (r : FaultReason) : CommandEffect s (s.takeFault r) :=
  CommandEffect.fault 0 0 r

theorem CommandEffect.ofOutput {s : State} (r : Result) (h : r ≠ .empty) : CommandEffect s (s.endOk r) :=
  CommandEffect.output 0 r h

/-- The statuses that format resolution raises. -/
theorem raised_of_resolve {fmt : Byte} {st : Status} (h : resolve fmt = .error st) : st.Raised := by
  rcases resolve_error_code h with rfl | rfl <;> exact ⟨by decide, by decide⟩

theorem pxpackCommand_effect {fmt : Byte} {s t : State} (h : pxpackCommand fmt s = .next t) : s.Live ∧ CommandEffect s t := by
  obtain ⟨hl, h⟩ := guarded_next h
  refine ⟨hl, ?_⟩
  split at h
  · rename_i hr
    obtain rfl := by simpa using h
    exact .ofStatus' (raised_of_resolve hr)
  · obtain rfl := by simpa using h
    exact .ofOutput _ (by simp)

theorem pxunpackCommand_effect {fmt : Byte} {s t : State} (h : pxunpackCommand fmt s = .next t) : s.Live ∧ CommandEffect s t := by
  obtain ⟨hl, h⟩ := guarded_next h
  refine ⟨hl, ?_⟩
  split at h
  · rename_i hr
    obtain rfl := by simpa using h
    exact .ofStatus' (raised_of_resolve hr)
  · split at h
    · obtain rfl := by simpa using h
      exact .ofFault' _
    · obtain rfl := by simpa using h
      exact .ofOutput _ (by simp)

theorem State.afterEncode_effect (s : State) (f : PixelFormat) : CommandEffect s (s.afterEncode f) := by
  unfold State.afterEncode
  split
  · exact .ofFault' _
  · rename_i out he
    obtain ⟨_, _, _, he⟩ := blockEncode_ok he
    cases hb : s.bufOperand with
    | none =>
      rw [State.writeBuf_of_none _ hb]
      exact .ofOutput _ (by simp)
    | some b =>
      obtain ⟨h, buf⟩ := b
      rw [State.writeBuf_of_some _ hb, (State.bufOperand_eq.1 hb).1]
      exact .buffer _ _ _ hb (by rw [(encodeLoop_frame he).1, State.bufValue_of_some hb])

theorem encodeCommand_effect {fmt : Byte} {s t : State} (h : encodeCommand fmt s = .next t) : s.Live ∧ CommandEffect s t := by
  obtain ⟨hl, h⟩ := guarded_next h
  refine ⟨hl, ?_⟩
  split at h <;> obtain rfl := by simpa using h
  · rename_i hr _
    exact .ofStatus' (raised_of_resolve hr)
  · exact s.afterEncode_effect _

theorem State.afterDecode_effect (s : State) (f : PixelFormat) : CommandEffect s (s.afterDecode f) := by
  unfold State.afterDecode
  split
  · exact .ofFault' _
  · rename_i out hd
    obtain ⟨_, _, _, hd⟩ := blockDecode_ok hd
    obtain ⟨hw, hh, hwf, _⟩ := decodeLoop_frame hd
    cases hi : s.imgOperand with
    | none =>
      rw [State.writeImg_of_none _ hi]
      exact .ofOutput _ (by simp)
    | some b =>
      obtain ⟨h, img⟩ := b
      rw [State.imgValue_of_some hi] at hw hh hwf
      rw [State.writeImg_of_some _ hi, (State.imgOperand_eq.1 hi).1]
      exact .image _ _ _ hi hw hh hwf

theorem decodeCommand_effect {fmt : Byte} {s t : State} (h : decodeCommand fmt s = .next t) : s.Live ∧ CommandEffect s t := by
  obtain ⟨hl, h⟩ := guarded_next h
  refine ⟨hl, ?_⟩
  split at h <;> obtain rfl := by simpa using h
  · rename_i hr _
    exact .ofStatus' (raised_of_resolve hr)
  · exact s.afterDecode_effect _

theorem execFmtResolve_effect {fmt : Byte} {s t : State} (h : execFmtResolve fmt s = .next t) : s.Live ∧ CommandEffect s t := by
  obtain ⟨hl, h⟩ := guarded_next h
  refine ⟨hl, ?_⟩
  split at h
  · rename_i hr
    obtain rfl := by simpa using h
    exact .ofStatus' (raised_of_resolve hr)
  · obtain rfl := by simpa using h
    exact .ofOutput _ (by simp)

theorem execHdrWrite_effect {fmt : Byte} {s t : State} (h : execHdrWrite fmt s = .next t) : s.Live ∧ CommandEffect s t := by
  obtain ⟨hl, h⟩ := guarded_next h
  refine ⟨hl, ?_⟩
  split at h
  · rename_i hr
    obtain rfl := by simpa using h
    exact .ofStatus' (raised_of_resolve hr)
  · split at h
    · obtain rfl := by simpa using h
      exact .ofOutput _ (by simp)
    · obtain rfl := by simpa using h
      exact .ofFault' _

theorem execTileLookup_effect {idx : BitVec 6} {s t : State} (h : execTileLookup idx s = .next t) : s.Live ∧ CommandEffect s t := by
  obtain ⟨hl, h⟩ := guarded_next h
  obtain rfl := by simpa using h
  exact ⟨hl, .ofOutput _ (by simp)⟩

/-- The statuses that the header read raises. -/
theorem raised_of_readHeader {f : List Byte} {a b : Bool} {st : Status} (h : (readHeader f a b).1 = .error st) : st.Raised := by
  unfold readHeader at h
  split at h
  · obtain rfl := by simpa using h
    exact ⟨by decide, by decide⟩
  · split at h
    · obtain rfl := by simpa using h
      exact ⟨by decide, by decide⟩
    · split at h
      · obtain rfl := by simpa using h
        exact ⟨by decide, by decide⟩
      · split at h
        · obtain rfl := by simpa using h
          exact ⟨by decide, by decide⟩
        · simp at h

theorem State.afterHdrRead_effect (s : State) (f : List Byte) : CommandEffect s (s.afterHdrRead f) := by
  unfold State.afterHdrRead
  simp only
  split
  · rename_i hr
    exact .ofStatus (raised_of_readHeader hr) _
  · exact .output _ _ (by simp)

theorem execHdrRead_effect {s t : State} (h : execHdrRead s = .next t) : s.Live ∧ CommandEffect s t := by
  obtain ⟨hl, h⟩ := guarded_next h
  obtain rfl := by simpa using h
  exact ⟨hl, s.afterHdrRead_effect _⟩

theorem illegalCommand_effect {s t : State} (h : illegalCommand s = .next t) : s.Live ∧ CommandEffect s t := by
  obtain ⟨hl, h⟩ := guarded_next h
  obtain rfl := by simpa using h
  exact ⟨hl, .ofStatus' ⟨by decide, by decide⟩⟩

/-- What an instruction can do. -/
theorem exec_effect {i : Instr} {s t : State} (h : exec i s = .next t) : s.Live ∧ CommandEffect s t := by
  cases i with
  | encodeRgba8 => exact encodeCommand_effect (fmt := 0) h
  | encodeRgb8 => exact encodeCommand_effect (fmt := 1) h
  | encodeA8 => exact encodeCommand_effect (fmt := 2) h
  | encodeRgb565 => exact encodeCommand_effect (fmt := 6) h
  | encodeRgba4 => exact encodeCommand_effect (fmt := 7) h
  | encodeRgba5551 => exact encodeCommand_effect (fmt := 5) h
  | encodeEtc1 => exact encodeCommand_effect (fmt := 4) h
  | encodeInvalid fmt => exact encodeCommand_effect (fmt := fmt) h
  | decodeRgba8 => exact decodeCommand_effect (fmt := 0) h
  | decodeRgb8 => exact decodeCommand_effect (fmt := 1) h
  | decodeA8 => exact decodeCommand_effect (fmt := 2) h
  | decodeRgb565 => exact decodeCommand_effect (fmt := 6) h
  | decodeRgba4 => exact decodeCommand_effect (fmt := 7) h
  | decodeRgba5551 => exact decodeCommand_effect (fmt := 5) h
  | decodeEtc1 => exact decodeCommand_effect (fmt := 4) h
  | decodeInvalid fmt => exact decodeCommand_effect (fmt := fmt) h
  | pxpackRgba8 => exact pxpackCommand_effect (fmt := 0) h
  | pxpackRgb8 => exact pxpackCommand_effect (fmt := 1) h
  | pxpackA8 => exact pxpackCommand_effect (fmt := 2) h
  | pxpackRgb565 => exact pxpackCommand_effect (fmt := 6) h
  | pxpackRgba4 => exact pxpackCommand_effect (fmt := 7) h
  | pxpackRgba5551 => exact pxpackCommand_effect (fmt := 5) h
  | pxpackEtc1 => exact pxpackCommand_effect (fmt := 4) h
  | pxpackInvalid fmt => exact pxpackCommand_effect (fmt := fmt) h
  | pxunpackRgba8 => exact pxunpackCommand_effect (fmt := 0) h
  | pxunpackRgb8 => exact pxunpackCommand_effect (fmt := 1) h
  | pxunpackA8 => exact pxunpackCommand_effect (fmt := 2) h
  | pxunpackRgb565 => exact pxunpackCommand_effect (fmt := 6) h
  | pxunpackRgba4 => exact pxunpackCommand_effect (fmt := 7) h
  | pxunpackRgba5551 => exact pxunpackCommand_effect (fmt := 5) h
  | pxunpackEtc1 => exact pxunpackCommand_effect (fmt := 4) h
  | pxunpackInvalid fmt => exact pxunpackCommand_effect (fmt := fmt) h
  | hdrWrite fmt => exact execHdrWrite_effect h
  | hdrRead => exact execHdrRead_effect h
  | fmtResolve fmt => exact execFmtResolve_effect h
  | tileLookup idx => exact execTileLookup_effect h

theorem State.afterContainerWrite_effect (s : State) (fmt : Byte) (f : PixelFormat) (img : Image) :
    CommandEffect s (s.afterContainerWrite fmt f img) := by
  unfold State.afterContainerWrite
  split
  · exact .ofFault' _
  · simp only
    split
    · exact .fault 0 _ _
    · split
      · exact .status 1 _ _ ⟨by decide, by decide⟩
      · exact .freshFile 1 _ _

theorem containerWrite_effect {fmt : Byte} {s t : State} (h : containerWrite fmt s = .next t) : s.Live ∧ CommandEffect s t := by
  obtain ⟨hl, h⟩ := guarded_next h
  refine ⟨hl, ?_⟩
  split at h <;> obtain rfl := by simpa using h
  · rename_i hr _
    exact .ofStatus' (raised_of_resolve hr)
  · exact s.afterContainerWrite_effect _ _ _

theorem State.afterPayload_effect (s : State) (file : List Byte) (d : HeaderFields) (n : Nat) :
    CommandEffect s (s.afterPayload file d n) := by
  unfold State.afterPayload
  split
  · rename_i hr
    exact .ofStatus (raised_of_resolve hr) n
  · split
    · exact .ofStatus ⟨by decide, by decide⟩ n
    · split
      · exact .ofStatus ⟨by decide, by decide⟩ (n + 1)
      · split
        · exact .ofFault _ (n + 1)
        · split
          · exact .ofFault _ (n + 1)
          · rename_i hd
            obtain ⟨_, _, _, hd⟩ := blockDecode_ok hd
            exact .freshImage (n + 1) _ ((decodeLoop_frame hd).2.2.1 (Image.wf_fresh _ _))

theorem State.afterContainerRead_effect (s : State) (file : List Byte) : CommandEffect s (s.afterContainerRead file) := by
  unfold State.afterContainerRead
  simp only
  split
  · rename_i hr
    exact .ofStatus (raised_of_readHeader hr) _
  · exact s.afterPayload_effect _ _ _

theorem containerRead_effect {s t : State} (h : containerRead s = .next t) : s.Live ∧ CommandEffect s t := by
  obtain ⟨hl, h⟩ := guarded_next h
  obtain rfl := by simpa using h
  exact ⟨hl, s.afterContainerRead_effect _⟩

/-- What a command can do, a word or a whole-container sequence. -/
theorem runCommand_effect {c : Command} {s t : State} (h : runCommand c s = .next t) : s.Live ∧ CommandEffect s t := by
  unfold runCommand at h
  split at h
  · split at h
    · exact exec_effect h
    · exact illegalCommand_effect h
  · exact containerWrite_effect h
  · exact containerRead_effect h

/-- Where no mark is set every instruction answers a next state. -/
theorem exec_live {s : State} (hl : s.Live) (i : Instr) : ∃ t, exec i s = .next t := by
  cases i <;>
    simp only [exec, execEncodeRgba8, execEncodeRgb8, execEncodeA8, execEncodeRgb565, execEncodeRgba4, execEncodeRgba5551, execEncodeEtc1,
      execEncodeInvalid, execDecodeRgba8, execDecodeRgb8, execDecodeA8, execDecodeRgb565, execDecodeRgba4, execDecodeRgba5551,
      execDecodeEtc1, execDecodeInvalid, execPxpackRgba8, execPxpackRgb8, execPxpackA8, execPxpackRgb565, execPxpackRgba4,
      execPxpackRgba5551, execPxpackEtc1, execPxpackInvalid, execPxunpackRgba8, execPxunpackRgb8, execPxunpackA8, execPxunpackRgb565,
      execPxunpackRgba4, execPxunpackRgba5551, execPxunpackEtc1, execPxunpackInvalid, encodeCommand, decodeCommand, pxpackCommand,
      pxunpackCommand, execHdrWrite, execHdrRead, execFmtResolve, execTileLookup, guarded_live hl] <;>
    repeat' (first | exact ⟨_, rfl⟩ | split)

/-- Where no mark is set every command answers a next state. -/
theorem runCommand_live {s : State} (hl : s.Live) (c : Command) : ∃ t, runCommand c s = .next t := by
  unfold runCommand
  split
  · split
    · exact exec_live hl _
    · exact ⟨_, by rw [illegalCommand, guarded_live hl]⟩
  · rw [containerWrite, guarded_live hl]
    split <;> exact ⟨_, rfl⟩
  · exact ⟨_, by rw [containerRead, guarded_live hl]⟩

/-- Every way the instance whose turn it is goes on. -/
theorem runPending_cases {s t : State} (h : runPending s = .next t) :
    (s.port.cmd = none ∧ t = s.turn) ∨ (s.port.cmd.isSome ∧ s.overlapped = true ∧ t = s.setRefused) ∨
      (∃ c, s.port.cmd = some c ∧ s.overlapped = false ∧ runCommand c s = .next t) := by
  unfold runPending at h
  split at h
  · rename_i hc
    exact .inl ⟨hc, by simpa using h.symm⟩
  · rename_i c hc
    split at h
    · rename_i ho
      exact .inr (.inl ⟨by simp [hc], ho, by simpa using h.symm⟩)
    · rename_i ho
      exact .inr (.inr ⟨c, hc, by simpa using ho, h⟩)

/-- Every way a state changes in one step: `u` is the state without the host action that the step takes. -/
inductive StepEffect (u : State) : State → Prop where
  | command (t : State) (h : CommandEffect u t) : StepEffect u t
  | turn : StepEffect u u.turn
  | refused : StepEffect u u.setRefused
  | issue (c : Command) (ops : Operands) (h : u.port.cmd = none) :
      StepEffect u { u with port := { u.port with cmd := some c, ops := ops } }
  | start : StepEffect u { u with others := u.others ++ [Port.reset u.nextLane] }
  | putBuffer (h : Handle) (bs : List Byte) : StepEffect u (u.setBuf h bs)
  | putImage (h : Handle) (w ht : Nat) (px : List (Nat × Nat × Pixel)) : StepEffect u (u.setImg h (Image.ofPixels w ht px))
  | putFile (h : Handle) (bs : List Byte) : StepEffect u (u.setFile h bs)
  | reset : StepEffect u u.resetBlock

theorem runPending_effect {s t : State} (h : runPending s = .next t) : StepEffect s t := by
  rcases runPending_cases h with ⟨_, rfl⟩ | ⟨_, _, rfl⟩ | ⟨c, _, _, hc⟩
  · exact .turn
  · exact .refused
  · exact .command _ (runCommand_effect hc).2

theorem hostStep_effect {a : HostAction} {s t : State} (h : hostStep a s = .next t) : StepEffect s t := by
  cases a <;> simp only [hostStep] at h
  case issue c ops =>
    split at h
    · obtain rfl := by simpa using h
      exact .refused
    · rename_i hc
      obtain rfl := by simpa using h
      exact .issue c ops (by simpa using hc)
  case complete => exact runPending_effect h
  case turn =>
    obtain rfl := by simpa using h
    exact .turn
  case start =>
    obtain rfl := by simpa using h
    exact .start
  case putBuffer =>
    split at h <;> obtain rfl := by simpa using h
    · exact .refused
    · exact .putBuffer _ _
  case putImage =>
    split at h <;> obtain rfl := by simpa using h
    · exact .refused
    · exact .putImage _ _ _ _
  case putFile =>
    split at h <;> obtain rfl := by simpa using h
    · exact .refused
    · exact .putFile _ _
  case reset =>
    obtain rfl := by simpa using h
    exact .reset

/-- Without a host action to come a step is the pending command's. -/
theorem step_of_no_action {s : State} (hl : s.Live) (hh : s.host = []) : step s = runPending s := by
  unfold step stepState
  rw [guarded_live hl, hh]

/-- With a host action to come a step is that action's. -/
theorem step_of_action {s : State} {a : HostAction} {rest : List HostAction} (hl : s.Live) (hh : s.host = a :: rest) :
    step s = hostStep a { s with host := rest } := by
  unfold step stepState
  rw [guarded_live hl, hh]

/-- A pending command that overlaps with none runs. -/
theorem runPending_of_cmd {s : State} {c : Command} (hc : s.port.cmd = some c) (ho : s.overlapped = false) :
    runPending s = runCommand c s := by
  simp [runPending, hc, ho]

/-- What a step can do: it starts from a state without a mark, takes the host's next action if there is one, and then does one of the
things of `StepEffect`. -/
theorem step_effect {s t : State} (h : step s = .next t) :
    s.Live ∧ ∃ rest, (s.host = [] ∧ rest = [] ∨ ∃ a, s.host = a :: rest) ∧ StepEffect { s with host := rest } t := by
  obtain ⟨hl, h⟩ := guarded_next h
  refine ⟨hl, ?_⟩
  split at h
  · rename_i hh
    refine ⟨[], .inl ⟨hh, rfl⟩, ?_⟩
    have hs : { s with host := [] } = s := by cases s; simp_all
    rw [hs]
    exact runPending_effect h
  · rename_i a rest hh
    exact ⟨rest, .inr ⟨a, hh⟩, hostStep_effect h⟩

end Sys2Proof.Machine
end

