-- ==== Sys2Proof/Laws/Commands.lean ====
section
/-!
SUPPORT. What each command does once its format id is resolved and its operands are found, said once for each shared meaning; the arithmetic
of the pixel fields.
-/

namespace Sys2Proof.Machine

/-! ### The shared meanings -/

theorem pxpackCommand_of_error {fmt : Byte} {s : State} {st : Status} (hl : s.Live) (hr : resolve fmt = .error st) :
    pxpackCommand fmt s = .next (s.endStatus st) := by
  simp only [pxpackCommand, guarded_live hl, hr]

theorem pxpackCommand_of_ok {fmt : Byte} {f : PixelFormat} {s : State} (hl : s.Live) (hr : resolve fmt = .ok f) :
    pxpackCommand fmt s = .next (s.endOk (.bytes (pack f s.port.ops.argPixel))) := by
  simp only [pxpackCommand, guarded_live hl, hr]

theorem pxunpackCommand_of_error {fmt : Byte} {s : State} {st : Status} (hl : s.Live) (hr : resolve fmt = .error st) :
    pxunpackCommand fmt s = .next (s.endStatus st) := by
  simp only [pxunpackCommand, guarded_live hl, hr]

theorem pxunpackCommand_of_ok {fmt : Byte} {f : PixelFormat} {s : State} {p : Pixel} (hl : s.Live) (hr : resolve fmt = .ok f)
    (hu : unpack s.rgb8DecodeAlpha f s.port.ops.argBytes = .ok p) : pxunpackCommand fmt s = .next (s.endOk (.pixel p)) := by
  simp only [pxunpackCommand, guarded_live hl, hr, hu]

theorem pxunpackCommand_of_short {fmt : Byte} {f : PixelFormat} {s : State} (hl : s.Live) (hr : resolve fmt = .ok f)
    (hn : s.port.ops.argBytes.length < bpp f) : pxunpackCommand fmt s = .next (s.takeFault .bufferUnderrun) := by
  simp only [pxunpackCommand, guarded_live hl, hr, unpack_of_lt _ hn]

theorem encodeCommand_of_error {fmt : Byte} {s : State} {st : Status} (hl : s.Live) (hr : resolve fmt = .error st) :
    encodeCommand fmt s = .next (s.endStatus st) := by
  simp only [encodeCommand, guarded_live hl, hr]

theorem encodeCommand_of_ok {fmt : Byte} {f : PixelFormat} {s : State} (hl : s.Live) (hr : resolve fmt = .ok f) :
    encodeCommand fmt s = .next (s.afterEncode f) := by
  simp only [encodeCommand, guarded_live hl, hr]

/-- ENCODE whose BlockEncode faults. -/
theorem State.afterEncode_of_error {s : State} {f : PixelFormat} {r : FaultReason}
    (h : blockEncode s.tileOrder f s.imgValue s.bufValue = .error r) : s.afterEncode f = s.takeFault r := by
  simp only [State.afterEncode, h]

/-- ENCODE whose BlockEncode completes. -/
theorem State.afterEncode_of_ok {s : State} {f : PixelFormat} {out : List Byte}
    (h : blockEncode s.tileOrder f s.imgValue s.bufValue = .ok out) :
    s.afterEncode f = (s.writeBuf out).endOk (.buffer s.port.ops.buf) := by
  simp only [State.afterEncode, h]

theorem decodeCommand_of_error {fmt : Byte} {s : State} {st : Status} (hl : s.Live) (hr : resolve fmt = .error st) :
    decodeCommand fmt s = .next (s.endStatus st) := by
  simp only [decodeCommand, guarded_live hl, hr]

theorem decodeCommand_of_ok {fmt : Byte} {f : PixelFormat} {s : State} (hl : s.Live) (hr : resolve fmt = .ok f) :
    decodeCommand fmt s = .next (s.afterDecode f) := by
  simp only [decodeCommand, guarded_live hl, hr]

/-- DECODE whose BlockDecode faults. -/
theorem State.afterDecode_of_error {s : State} {f : PixelFormat} {r : FaultReason}
    (h : blockDecode s.tileOrder s.rgb8DecodeAlpha f s.bufValue s.port.ops.argW s.port.ops.argH s.imgValue = .error r) :
    s.afterDecode f = s.takeFault r := by
  simp only [State.afterDecode, h]

/-- DECODE whose BlockDecode completes. -/
theorem State.afterDecode_of_ok {s : State} {f : PixelFormat} {out : Image}
    (h : blockDecode s.tileOrder s.rgb8DecodeAlpha f s.bufValue s.port.ops.argW s.port.ops.argH s.imgValue = .ok out) :
    s.afterDecode f = (s.writeImg out).endOk (.image s.port.ops.img) := by
  simp only [State.afterDecode, h]

/-- ENCODE of a format that resolves to a state without a fault: BlockEncode completed. -/
theorem encodeCommand_next {fmt : Byte} {f : PixelFormat} {s t : State} (hr : resolve fmt = .ok f) (h : encodeCommand fmt s = .next t)
    (hf : t.faulted = none) :
    ∃ out, t = (s.writeBuf out).endOk (.buffer s.port.ops.buf) ∧ blockEncode s.tileOrder f s.imgValue s.bufValue = .ok out := by
  rw [encodeCommand_of_ok (encodeCommand_effect h).1 hr] at h
  obtain rfl := by simpa using h
  cases hb : blockEncode s.tileOrder f s.imgValue s.bufValue with
  | error r =>
    rw [State.afterEncode_of_error hb] at hf
    simp at hf
  | ok out => exact ⟨out, State.afterEncode_of_ok hb, rfl⟩

/-- DECODE of a format that resolves to a state without a fault: BlockDecode completed. -/
theorem decodeCommand_next {fmt : Byte} {f : PixelFormat} {s t : State} (hr : resolve fmt = .ok f) (h : decodeCommand fmt s = .next t)
    (hf : t.faulted = none) :
    ∃ out, t = (s.writeImg out).endOk (.image s.port.ops.img) ∧
      blockDecode s.tileOrder s.rgb8DecodeAlpha f s.bufValue s.port.ops.argW s.port.ops.argH s.imgValue = .ok out := by
  rw [decodeCommand_of_ok (decodeCommand_effect h).1 hr] at h
  obtain rfl := by simpa using h
  cases hb : blockDecode s.tileOrder s.rgb8DecodeAlpha f s.bufValue s.port.ops.argW s.port.ops.argH s.imgValue with
  | error r =>
    rw [State.afterDecode_of_error hb] at hf
    simp at hf
  | ok out => exact ⟨out, State.afterDecode_of_ok hb, rfl⟩

theorem toNat_field5 (c : Byte) : (field5 c).toNat = c.toNat / 8 := by
  have := c.isLt
  simp only [field5, BitVec.toNat_ushiftRight, BitVec.truncate_eq_setWidth, BitVec.toNat_setWidth, Nat.shiftRight_eq_div_pow]
  omega

theorem toNat_field6 (c : Byte) : (field6 c).toNat = c.toNat / 4 := by
  have := c.isLt
  simp only [field6, BitVec.toNat_ushiftRight, BitVec.truncate_eq_setWidth, BitVec.toNat_setWidth, Nat.shiftRight_eq_div_pow]
  omega

theorem toNat_field1 (a : Byte) : (field1 a).toNat = a.toNat / 255 := by
  have := a.isLt
  have h : (255 : Byte).toNat = 255 := rfl
  simp only [field1, BitVec.truncate_eq_setWidth, BitVec.toNat_setWidth, BitVec.toNat_udiv, h]
  omega

/-- Fields that do not overlap are added by `|`. -/
theorem or_eq_add (n k : Nat) {a b : Nat} (hb : b < 2 ^ k) (ha : a = n * 2 ^ k) : a ||| b = a + b := by
  subst ha
  rw [Nat.mul_comm]
  exact (Nat.two_pow_add_eq_or_of_lt hb n).symm

theorem toNat_word565 (p : Pixel) : (word565 p).toNat = p.r.toNat / 8 * 2048 + p.g.toNat / 4 * 32 + p.b.toNat / 8 := by
  have h1 := p.r.isLt
  have h2 := p.g.isLt
  have h3 := p.b.isLt
  simp only [word565, BitVec.toNat_or, BitVec.toNat_shiftLeft, toNat_field5, toNat_field6, Nat.shiftLeft_eq]
  rw [Nat.mod_eq_of_lt (by omega), Nat.mod_eq_of_lt (by omega), or_eq_add (p.r.toNat / 8) 11 (by omega) rfl,
    or_eq_add (p.r.toNat / 8 * 64 + p.g.toNat / 4) 5 (by omega) (by omega)]
  omega

theorem toNat_word5551 (p : Pixel) :
    (word5551 p).toNat = p.r.toNat / 8 * 2048 + p.g.toNat / 8 * 64 + p.b.toNat / 8 * 2 + p.a.toNat / 255 := by
  have h1 := p.r.isLt
  have h2 := p.g.isLt
  have h3 := p.b.isLt
  have h4 := p.a.isLt
  simp only [word5551, BitVec.toNat_or, BitVec.toNat_shiftLeft, toNat_field5, toNat_field1, Nat.shiftLeft_eq]
  rw [Nat.mod_eq_of_lt (by omega), Nat.mod_eq_of_lt (by omega), Nat.mod_eq_of_lt (by omega),
    or_eq_add (p.r.toNat / 8) 11 (by omega) rfl,
    or_eq_add (a := p.r.toNat / 8 * 2 ^ 11 + p.g.toNat / 8 * 2 ^ 6) (p.r.toNat / 8 * 32 + p.g.toNat / 8) 6 (by omega) (by omega),
    or_eq_add (p.r.toNat / 8 * 1024 + p.g.toNat / 8 * 32 + p.b.toNat / 8) 1 (by omega) (by omega)]
  omega

theorem toNat_field4 (c : Byte) : (field4 c).toNat = c.toNat / 16 := rfl

/-- Two 4-bit quantizations in one byte (42_pixel_formats.md R148). -/
theorem nibbles_eq (lo hi : Byte) : field4 lo ||| (field4 hi <<< 4) = BitVec.ofNat 8 (lo.toNat / 16 + hi.toNat / 16 * 16) := by
  have h1 := lo.isLt
  have h2 := hi.isLt
  apply BitVec.eq_of_toNat_eq
  simp only [BitVec.toNat_or, BitVec.toNat_shiftLeft, toNat_field4, Nat.shiftLeft_eq, BitVec.toNat_ofNat]
  rw [Nat.or_comm, Nat.mod_eq_of_lt (by omega), or_eq_add (hi.toNat / 16) 4 (by omega) rfl]
  omega

theorem toNat_fromLe16 (b0 b1 : Byte) : (fromLe16 b0 b1).toNat = b0.toNat + 256 * b1.toNat := by
  have h1 := b0.isLt
  have h2 := b1.isLt
  simp only [fromLe16, BitVec.toNat_or, BitVec.toNat_shiftLeft, BitVec.truncate_eq_setWidth, BitVec.toNat_setWidth, Nat.shiftLeft_eq]
  rw [Nat.mod_eq_of_lt (a := b0.toNat) (by omega), Nat.mod_eq_of_lt (a := b1.toNat) (by omega), Nat.mod_eq_of_lt (by omega),
    Nat.or_comm, or_eq_add b1.toNat 8 (by omega) rfl]
  omega

theorem le16_eq (v : Half) : le16 v = [BitVec.ofNat 8 (v.toNat % 256), BitVec.ofNat 8 (v.toNat / 256)] := by
  have h := v.isLt
  simp only [le16]
  congr 1
  · apply BitVec.eq_of_toNat_eq
    simp [Nat.shiftRight_eq_div_pow]
  · congr 1
    apply BitVec.eq_of_toNat_eq
    simp [Nat.shiftRight_eq_div_pow]

/-- Reading back the two bytes of a word. -/
theorem fromLe16_le16 (v : Half) : fromLe16 (v.extractLsb' 0 8) (v.extractLsb' 8 8) = v := by
  apply BitVec.eq_of_toNat_eq
  have h := v.isLt
  rw [toNat_fromLe16]
  simp only [BitVec.extractLsb'_toNat, Nat.shiftRight_eq_div_pow]
  omega

theorem widen5_eq (v : Half) (lo : Nat) : widen5 v lo = BitVec.ofNat 8 (v.toNat / 2 ^ lo % 2 ^ 5 * 8) := by
  apply BitVec.eq_of_toNat_eq
  simp only [widen5, BitVec.toNat_shiftLeft, BitVec.truncate_eq_setWidth, BitVec.toNat_setWidth, BitVec.extractLsb'_toNat,
    Nat.shiftLeft_eq, Nat.shiftRight_eq_div_pow, BitVec.toNat_ofNat]
  omega

theorem widen6_eq (v : Half) (lo : Nat) : widen6 v lo = BitVec.ofNat 8 (v.toNat / 2 ^ lo % 2 ^ 6 * 4) := by
  apply BitVec.eq_of_toNat_eq
  simp only [widen6, BitVec.toNat_shiftLeft, BitVec.truncate_eq_setWidth, BitVec.toNat_setWidth, BitVec.extractLsb'_toNat,
    Nat.shiftLeft_eq, Nat.shiftRight_eq_div_pow, BitVec.toNat_ofNat]
  omega

theorem widen4_eq (v : Byte) (lo : Nat) : widen4 v lo = BitVec.ofNat 8 (v.toNat / 2 ^ lo % 2 ^ 4 * 16) := by
  have h : (16 : Byte).toNat = 16 := rfl
  apply BitVec.eq_of_toNat_eq
  simp only [widen4, BitVec.toNat_mul, BitVec.truncate_eq_setWidth, BitVec.toNat_setWidth, BitVec.extractLsb'_toNat,
    Nat.shiftRight_eq_div_pow, BitVec.toNat_ofNat, h]
  omega

theorem widen1_eq (v : Half) : widen1 v = if v.toNat % 2 = 1 then 255 else 0 := by
  have : v.extractLsb' 0 1 = 1#1 ↔ v.toNat % 2 = 1 := by
    rw [← BitVec.toNat_inj]
    simp
  simp only [widen1, this]

/-! ### Words and their shared meanings -/

/-- The fields of a word in plain arithmetic (30_encoding.md R70). -/
theorem Half.fields_eq (w : Half) :
    let cls := w.toNat / 256 % 16
    let arg := w.toNat % 256
    (Half.rsv w).toNat = w.toNat / 4096 ∧ Half.cls w = BitVec.ofNat 4 cls ∧ Half.arg w = BitVec.ofNat 8 arg ∧ (Half.cls w).toNat = cls := by
  have := w.isLt
  refine ⟨?_, ?_, ?_, ?_⟩
  · simp [Half.rsv, Nat.shiftRight_eq_div_pow]; omega
  · apply BitVec.eq_of_toNat_eq; simp [Half.cls, Nat.shiftRight_eq_div_pow]
  · apply BitVec.eq_of_toNat_eq; simp [Half.arg]
  · simp [Half.cls, Nat.shiftRight_eq_div_pow]

theorem byte_eq_of_toNat {b : Byte} {n : Nat} (h : b.toNat = n) : b = BitVec.ofNat 8 n := by
  apply BitVec.eq_of_toNat_eq
  have := b.isLt
  rw [BitVec.toNat_ofNat]
  omega

/-- The instruction that an ENCODE word carries runs the shared meaning with the word's format id. -/
theorem exec_encodeOfFmt (fmt : Byte) (s : State) : exec (encodeOfFmt fmt) s = encodeCommand fmt s := by
  unfold encodeOfFmt
  split <;> rename_i h <;> first | (rw [byte_eq_of_toNat h]; rfl) | rfl

/-- The instruction that a DECODE word carries runs the shared meaning with the word's format id. -/
theorem exec_decodeOfFmt (fmt : Byte) (s : State) : exec (decodeOfFmt fmt) s = decodeCommand fmt s := by
  unfold decodeOfFmt
  split <;> rename_i h <;> first | (rw [byte_eq_of_toNat h]; rfl) | rfl

/-- The instruction that a PXPACK word carries runs the shared meaning with the word's format id. -/
theorem exec_pxpackOfFmt (fmt : Byte) (s : State) : exec (pxpackOfFmt fmt) s = pxpackCommand fmt s := by
  unfold pxpackOfFmt
  split <;> rename_i h <;> first | (rw [byte_eq_of_toNat h]; rfl) | rfl

/-- The instruction that a PXUNPACK word carries runs the shared meaning with the word's format id. -/
theorem exec_pxunpackOfFmt (fmt : Byte) (s : State) : exec (pxunpackOfFmt fmt) s = pxunpackCommand fmt s := by
  unfold pxunpackOfFmt
  split <;> rename_i h <;> first | (rw [byte_eq_of_toNat h]; rfl) | rfl

end Sys2Proof.Machine
end

