-- ==== Sys2Proof/Laws/Container.lean ====
section
/-!
SUPPORT. The laws of the container header and of the whole-container sequences: the parts of a written header, what reading it gives back, and
what each sequence does once its format id is resolved and its operand is found.
-/

namespace Sys2Proof.Machine

/-! ### The header -/

theorem length_headerBytes (fmt : Byte) (w h : Int) : (headerBytes fmt w h).length = 128 := by
  simp [headerBytes, magic, le16]

/-- The parts of a header (20_memory.md R53). -/
theorem headerBytes_parts (fmt : Byte) (w h : Int) :
    (headerBytes fmt w h).take 7 = magic ∧ ((headerBytes fmt w h).drop 7).take 9 = List.replicate 9 0 ∧
      ((headerBytes fmt w h).drop 0x10).take 2 = le16 (BitVec.ofInt 16 w) ∧
      ((headerBytes fmt w h).drop 0x12).take 2 = le16 (BitVec.ofInt 16 h) ∧ (headerBytes fmt w h)[0x14]? = some fmt ∧
      (headerBytes fmt w h).drop 0x15 = List.replicate 0x6B 0 :=
  by refine ⟨rfl, rfl, rfl, rfl, rfl, rfl⟩

theorem toNat_ofInt_natCast {v : Nat} (h : v ≤ 32767) : (BitVec.ofInt 16 (v : Int)).toNat = v := by
  rw [BitVec.ofInt_natCast, BitVec.toNat_ofNat]
  omega

/-- A dimension in range is read back as it was written (43_container.md R194). -/
theorem sext16_ofInt {v : Nat} (h : v ≤ 32767) : sext16 (BitVec.ofInt 16 (v : Int)) = v := by
  have h1 := toNat_ofInt_natCast h
  unfold sext16
  rw [BitVec.toInt_eq_toNat_of_lt (by omega), h1]

/-- The fields of a written header, whatever follows it (43_container.md R203). -/
theorem headerFields_headerBytes (fmt : Byte) {w h : Nat} (hw : w ≤ 32767) (hh : h ≤ 32767) (payload : List Byte) :
    headerFields (headerBytes fmt w h ++ payload) = ⟨w, h, fmt⟩ := by
  have e : headerFields (headerBytes fmt w h ++ payload) =
      ⟨sext16 (fromLe16 ((BitVec.ofInt 16 w).extractLsb' 0 8) ((BitVec.ofInt 16 w).extractLsb' 8 8)),
        sext16 (fromLe16 ((BitVec.ofInt 16 h).extractLsb' 0 8) ((BitVec.ofInt 16 h).extractLsb' 8 8)), fmt⟩ := rfl
  rw [e, fromLe16_le16, fromLe16_le16, sext16_ofInt hw, sext16_ofInt hh]

/-- The signed field of two bytes in plain arithmetic. -/
theorem sext16_fromLe16 (b0 b1 : Byte) : sext16 (fromLe16 b0 b1) = (BitVec.ofNat 16 (b0.toNat + 256 * b1.toNat)).toInt := by
  have h0 := b0.isLt
  have h1 := b1.isLt
  unfold sext16
  congr 1
  apply BitVec.eq_of_toNat_eq
  rw [toNat_fromLe16, BitVec.toNat_ofNat]
  omega

/-- The ids that resolve to a codec (43_container.md R192). -/
theorem resolve_ok_of_id {fmt : Byte}
    (h : fmt.toNat = 0 ∨ fmt.toNat = 1 ∨ fmt.toNat = 2 ∨ fmt.toNat = 5 ∨ fmt.toNat = 6 ∨ fmt.toNat = 7) : ∃ f, resolve fmt = .ok f := by
  unfold resolve
  rcases h with h | h | h | h | h | h <;> rw [h] <;> exact ⟨_, rfl⟩

theorem resolve_etc1 {fmt : Byte} (h : fmt = 4) : resolve fmt = .error .unsupportedFormat := by
  subst h
  rfl

/-- The magic check on a file, short or not (43_container.md R196). -/
theorem magic_check (f : List Byte) : (f.length < 7 ∨ f.take 7 ≠ magic) ↔ f.take 7 ≠ magic := by
  constructor
  · rintro (h | h)
    · intro he
      have := congrArg List.length he
      rw [List.length_take, show magic.length = 7 from rfl] at this
      omega
    · exact h
  · exact .inr

theorem execHdrWrite_of_error {fmt : Byte} {s : State} {st : Status} (hl : s.Live) (hr : resolve fmt = .error st) :
    execHdrWrite fmt s = .next (s.endStatus st) := by
  simp only [execHdrWrite, guarded_live hl, hr]

theorem execHdrWrite_of_ok {fmt : Byte} {f : PixelFormat} {s : State} (hl : s.Live) (hr : resolve fmt = .ok f) :
    execHdrWrite fmt s =
      if dimOk s.port.ops.argW && dimOk s.port.ops.argH then
        .next (s.endOk (.bytes (headerBytes fmt s.port.ops.argW s.port.ops.argH)))
      else .next (s.takeFault .dimensionOutOfRange) := by
  simp only [execHdrWrite, guarded_live hl, hr]

theorem execHdrRead_of_live {s : State} (hl : s.Live) : execHdrRead s = .next (s.afterHdrRead s.fileValue) := by
  simp only [execHdrRead, guarded_live hl]

/-- HDR_READ of a file with the magic and the fields, no access failing (43_container.md R197). -/
theorem readHeader_ok {f : List Byte} (hm : f.take 7 = magic) (hn : 0x15 ≤ f.length) : readHeader f false false = (.ok (headerFields f), 2) := by
  unfold readHeader
  rw [if_neg Bool.false_ne_true, if_neg (by rw [magic_check]; simp [hm]), if_neg (by omega), if_neg Bool.false_ne_true]

/-! ### The whole-container sequences -/

theorem containerWrite_of_error {fmt : Byte} {s : State} {st : Status} (hl : s.Live) (hr : resolve fmt = .error st) :
    containerWrite fmt s = .next (s.endStatus st) := by
  simp only [containerWrite, guarded_live hl, hr]

theorem containerWrite_of_ok {fmt : Byte} {f : PixelFormat} {s : State} (hl : s.Live) (hr : resolve fmt = .ok f) :
    containerWrite fmt s = .next (s.afterContainerWrite fmt f s.imgValue) := by
  simp only [containerWrite, guarded_live hl, hr]

theorem containerRead_of_live {s : State} (hl : s.Live) : containerRead s = .next (s.afterContainerRead s.fileValue) := by
  simp only [containerRead, guarded_live hl]

@[simp] theorem State.length_freshBytes (s : State) (n : Nat) : (s.freshBytes n).length = n := by
  simp [State.freshBytes]

/-- A byte of a fresh buffer is a free draw. -/
theorem State.getElem?_freshBytes (s : State) {n o : Nat} (h : o < n) : (s.freshBytes n)[o]? = some (Config.freeByte s.port.lane (s.port.drawCount + o)) := by
  simp [State.freshBytes, h]

/-- A fresh buffer of CONTAINER_WRITE is long enough (43_container.md R200: "cannot underrun"). -/
theorem need_le (f : PixelFormat) (w h : Nat) : need f w h ≤ w * h * bpp f := by
  unfold need Config.blockEdge
  apply Nat.mul_le_mul_right
  have h1 : w / 8 * 8 ≤ w := Nat.div_mul_le_self w 8
  have h2 : h / 8 * 8 ≤ h := Nat.div_mul_le_self h 8
  calc w / 8 * (h / 8) * 64 = w / 8 * 8 * (h / 8 * 8) := by ring
    _ ≤ w * h := Nat.mul_le_mul h1 h2

end Sys2Proof.Machine
end

