-- ==== Sys2Proof/Laws/Locality.lean ====
section
/-!
SUPPORT. Locality, said once for every command: what a command does depends on its interface, the constants and the objects of its footprint
only, and it changes nothing but its interface, the mark and at most one object of its footprint (20_memory.md R60, R61).
-/

namespace Sys2Proof.Machine

/-- What a command writes to the host's memory: nothing, or one object. -/
inductive MemoryWrite where
  | nothing
  | buffer (h : Handle) (bs : List Byte)
  | image (h : Handle) (img : Image)
  | file (h : Handle) (bs : List Byte)

/-- The memory after the write. -/
def MemoryWrite.apply (m : Memory) : MemoryWrite → Memory
  | .nothing => m
  | .buffer h bs => { m with bufs := Store.put m.bufs h bs }
  | .image h img => { m with imgs := Store.put m.imgs h img }
  | .file h bs => { m with files := Store.put m.files h bs }

/-- The command's footprint lists the object as written; it is there already, or it is the fresh object of a whole-container sequence. -/
def MemoryWrite.Fits (s : State) (c : Command) : MemoryWrite → Prop
  | .nothing => True
  | .buffer h _ => ⟨.buffer, h, true⟩ ∈ s.port.commandFootprint s.mem c ∧ ∃ b, Store.find? s.mem.bufs h = some b
  | .image h _ =>
    ⟨.image, h, true⟩ ∈ s.port.commandFootprint s.mem c ∧
      ((∃ b, Store.find? s.mem.imgs h = some b) ∨ (c = .containerRead ∧ h = Store.fresh s.port.lane s.mem.imgs))
  | .file h _ =>
    ⟨.file, h, true⟩ ∈ s.port.commandFootprint s.mem c ∧ (∃ fmt, c = .containerWrite fmt) ∧ h = Store.fresh s.port.lane s.mem.files

/-- Two memories hold the same under the handle of a use. -/
def SameObject (m m' : Memory) (a : Access) : Prop :=
  match a.kind with
  | .buffer => Store.find? m'.bufs a.handle = Store.find? m.bufs a.handle
  | .image => Store.find? m'.imgs a.handle = Store.find? m.imgs a.handle
  | .file => Store.find? m'.files a.handle = Store.find? m.files a.handle

/-- State `u` shows the command everything that state `s` shows it: the interface, the constants, and the objects of its footprint. -/
structure Alike (c : Command) (s u : State) : Prop where
  live : u.Live
  port : u.port = s.port
  tile : u.tileOrder = s.tileOrder
  alpha : u.rgb8DecodeAlpha = s.rgb8DecodeAlpha
  foot : u.port.commandFootprint u.mem c = s.port.commandFootprint s.mem c
  same : ∀ a ∈ s.port.commandFootprint s.mem c, SameObject s.mem u.mem a

/-- The state after a command that leaves this interface and this mark and makes this write. -/
def State.done (s : State) (p : Port) (r : Option FaultReason) (w : MemoryWrite) : State :=
  { s with port := p, faulted := r, mem := w.apply s.mem }

/-- What a command does depends on what it sees, and it touches nothing else: in every state that shows it the same it leaves the same
interface and mark and makes the same write, one that its footprint lists. -/
def RunsLocally (c : Command) (run : State → Host.Outcome State Fault Refusal) (s t : State) : Prop :=
  ∃ p r w, t = s.done p r w ∧ w.Fits s c ∧ ∀ u, Alike c s u → run u = .next (u.done p r w)

theorem Alike.img {c : Command} {s u : State} (h : Alike c s u)
    (hm : ∀ i, s.port.ops.img = some i → ∃ w, ⟨.image, i, w⟩ ∈ s.port.commandFootprint s.mem c) :
    u.imgOperand = s.imgOperand ∧ u.imgValue = s.imgValue := by
  have : u.imgOperand = s.imgOperand := by
    unfold State.imgOperand
    rw [h.port]
    cases hi : s.port.ops.img with
    | none => rfl
    | some i =>
      obtain ⟨w, hw⟩ := hm i hi
      have := h.same _ hw
      simp only [SameObject] at this
      simp [this]
  exact ⟨this, by unfold State.imgValue; rw [this, h.port]⟩

theorem Alike.buf {c : Command} {s u : State} (h : Alike c s u)
    (hm : ∀ i, s.port.ops.buf = some i → ∃ w, ⟨.buffer, i, w⟩ ∈ s.port.commandFootprint s.mem c) :
    u.bufOperand = s.bufOperand ∧ u.bufValue = s.bufValue := by
  have : u.bufOperand = s.bufOperand := by
    unfold State.bufOperand
    rw [h.port]
    cases hi : s.port.ops.buf with
    | none => rfl
    | some i =>
      obtain ⟨w, hw⟩ := hm i hi
      have := h.same _ hw
      simp only [SameObject] at this
      simp [this]
  exact ⟨this, by unfold State.bufValue; rw [this, h.port]⟩

theorem Alike.file {c : Command} {s u : State} (h : Alike c s u)
    (hm : ∀ i, s.port.ops.file = some i → ∃ w, ⟨.file, i, w⟩ ∈ s.port.commandFootprint s.mem c) :
    u.fileValue = s.fileValue := by
  have : u.fileOperand = s.fileOperand := by
    unfold State.fileOperand
    rw [h.port]
    cases hi : s.port.ops.file with
    | none => rfl
    | some i =>
      obtain ⟨w, hw⟩ := hm i hi
      have := h.same _ hw
      simp only [SameObject] at this
      simp [this]
  unfold State.fileValue; rw [this, h.port]

theorem State.ioFails_congr {s u : State} (h : u.port = s.port) (k : Nat) : u.ioFails k = s.ioFails k := by
  simp only [State.ioFails, h]

theorem State.freshBytes_congr {s u : State} (h : u.port = s.port) (k : Nat) : u.freshBytes k = s.freshBytes k := by
  simp only [State.freshBytes, h]

/-! ### The three ways to end -/

theorem State.endStatus_eq_done {s : State} (hl : s.Live) (st : Status) :
    s.endStatus st = s.done { s.port with cmd := none, status := st.code, result := .empty } none .nothing := by
  simp [State.done, State.endStatus, MemoryWrite.apply, ← hl.1]

theorem State.endOk_eq_done {s : State} (hl : s.Live) (r : Result) :
    s.endOk r = s.done { s.port with cmd := none, status := Status.ok.code, result := r } none .nothing := by
  simp [State.done, State.endOk, MemoryWrite.apply, ← hl.1]

theorem State.takeFault_eq_done {s : State} (r : FaultReason) :
    s.takeFault r = s.done { s.port with cmd := none } (some r) .nothing := by
  simp [State.done, State.takeFault, MemoryWrite.apply]

/-- A command that ends with a status whatever the state. -/
theorem runsLocally_of_status {c : Command} {run : State → Host.Outcome State Fault Refusal} {s t : State} {st : Status} (hl : s.Live)
    (hr : ∀ u : State, u.Live → run u = .next (u.endStatus st)) (h : run s = .next t) : RunsLocally c run s t := by
  rw [hr s hl] at h
  cases h
  exact ⟨_, _, _, State.endStatus_eq_done hl st, trivial, fun u hu => by rw [hr u hu.live, State.endStatus_eq_done hu.live, hu.port]⟩

/-- A command that ends with OK and an output of its interface and the constants. -/
theorem runsLocally_of_ok {c : Command} {run : State → Host.Outcome State Fault Refusal} {s t : State} (hl : s.Live) (r : State → Result)
    (hr : ∀ u : State, u.Live → run u = .next (u.endOk (r u)))
    (hg : ∀ u : State, u.port = s.port → u.tileOrder = s.tileOrder → u.rgb8DecodeAlpha = s.rgb8DecodeAlpha → r u = r s)
    (h : run s = .next t) : RunsLocally c run s t := by
  rw [hr s hl] at h
  cases h
  exact ⟨_, _, _, State.endOk_eq_done hl _, trivial, fun u hu => by
    rw [hr u hu.live, State.endOk_eq_done hu.live, hg u hu.port hu.tile hu.alpha, hu.port]⟩

/-! ### Each command -/

theorem encodeCommand_runsLocally {w : Half} {f : PixelFormat}
    (hf : ∀ s : State, s.port.commandFootprint s.mem (.word w) =
      accessOf .image false s.port.ops.img ++ accessOf .buffer true s.port.ops.buf)
    {fmt : Byte} (hr : resolve fmt = .ok f) {s t : State} (h : encodeCommand fmt s = .next t) :
    RunsLocally (.word w) (encodeCommand fmt) s t := by
  obtain ⟨hl, _⟩ := encodeCommand_effect h
  rw [encodeCommand_of_ok hl hr] at h
  cases h
  have key : ∀ u, Alike (.word w) s u → u.imgValue = s.imgValue ∧ u.bufOperand = s.bufOperand ∧ u.bufValue = s.bufValue := fun u hu =>
    ⟨(Alike.img hu (fun i hi => ⟨false, by rw [hf, hi]; simp [accessOf]⟩)).2, Alike.buf hu (fun i hi => ⟨true, by rw [hf, hi]; simp [accessOf]⟩)⟩
  cases he : blockEncode s.tileOrder f s.imgValue s.bufValue with
  | error r =>
    refine ⟨_, _, _, (State.afterEncode_of_error he).trans (State.takeFault_eq_done r), trivial, fun u hu => ?_⟩
    obtain ⟨k1, k2, k3⟩ := key u hu
    rw [encodeCommand_of_ok hu.live hr, State.afterEncode_of_error (by rw [hu.tile, k1, k3, he]), State.takeFault_eq_done, hu.port]
  | ok out =>
    cases hb : s.bufOperand with
    | none =>
      refine ⟨_, _, .nothing,
        (State.afterEncode_of_ok he).trans (by rw [State.writeBuf_of_none _ hb]; exact State.endOk_eq_done hl _), trivial, fun u hu => ?_⟩
      obtain ⟨k1, k2, k3⟩ := key u hu
      rw [encodeCommand_of_ok hu.live hr, State.afterEncode_of_ok (by rw [hu.tile, k1, k3, he]),
        State.writeBuf_of_none _ (k2.trans hb), State.endOk_eq_done hu.live, hu.port]
    | some b =>
      obtain ⟨bh, buf⟩ := b
      refine ⟨{ s.port with cmd := none, status := Status.ok.code, result := .buffer s.port.ops.buf }, none, .buffer bh out,
        (State.afterEncode_of_ok he).trans ?_, ?_, fun u hu => ?_⟩
      · rw [State.writeBuf_of_some _ hb]
        simp only [State.endOk, State.setBuf, State.done, MemoryWrite.apply, hl.1]
      · have := State.bufOperand_eq.1 hb
        exact ⟨by rw [hf, this.1]; simp [accessOf], _, this.2⟩
      · obtain ⟨k1, k2, k3⟩ := key u hu
        rw [encodeCommand_of_ok hu.live hr, State.afterEncode_of_ok (by rw [hu.tile, k1, k3, he]), State.writeBuf_of_some _ (k2.trans hb)]
        simp only [State.endOk, State.setBuf, State.done, MemoryWrite.apply, hu.live.1, hu.port]

theorem decodeCommand_runsLocally {w : Half} {f : PixelFormat}
    (hf : ∀ s : State, s.port.commandFootprint s.mem (.word w) =
      accessOf .buffer false s.port.ops.buf ++ accessOf .image true s.port.ops.img)
    {fmt : Byte} (hr : resolve fmt = .ok f) {s t : State} (h : decodeCommand fmt s = .next t) :
    RunsLocally (.word w) (decodeCommand fmt) s t := by
  obtain ⟨hl, _⟩ := decodeCommand_effect h
  rw [decodeCommand_of_ok hl hr] at h
  cases h
  have key : ∀ u, Alike (.word w) s u → u.imgOperand = s.imgOperand ∧ u.imgValue = s.imgValue ∧ u.bufValue = s.bufValue := fun u hu => by
    have h1 := Alike.img hu (fun i hi => ⟨true, by rw [hf, hi]; simp [accessOf]⟩)
    have h2 := Alike.buf hu (fun i hi => ⟨false, by rw [hf, hi]; simp [accessOf]⟩)
    exact ⟨h1.1, h1.2, h2.2⟩
  cases he : blockDecode s.tileOrder s.rgb8DecodeAlpha f s.bufValue s.port.ops.argW s.port.ops.argH s.imgValue with
  | error r =>
    refine ⟨_, _, _, (State.afterDecode_of_error he).trans (State.takeFault_eq_done r), trivial, fun u hu => ?_⟩
    obtain ⟨k1, k2, k3⟩ := key u hu
    rw [decodeCommand_of_ok hu.live hr, State.afterDecode_of_error (by rw [hu.tile, hu.alpha, hu.port, k2, k3, he]),
      State.takeFault_eq_done, hu.port]
  | ok out =>
    cases hb : s.imgOperand with
    | none =>
      refine ⟨_, _, .nothing,
        (State.afterDecode_of_ok he).trans (by rw [State.writeImg_of_none _ hb]; exact State.endOk_eq_done hl _), trivial, fun u hu => ?_⟩
      obtain ⟨k1, k2, k3⟩ := key u hu
      rw [decodeCommand_of_ok hu.live hr, State.afterDecode_of_ok (by rw [hu.tile, hu.alpha, hu.port, k2, k3, he]),
        State.writeImg_of_none _ (k1.trans hb), State.endOk_eq_done hu.live, hu.port]
    | some b =>
      obtain ⟨bh, buf⟩ := b
      refine ⟨{ s.port with cmd := none, status := Status.ok.code, result := .image s.port.ops.img }, none, .image bh out,
        (State.afterDecode_of_ok he).trans ?_, ?_, fun u hu => ?_⟩
      · rw [State.writeImg_of_some _ hb]
        simp only [State.endOk, State.setImg, State.done, MemoryWrite.apply, hl.1]
      · have := State.imgOperand_eq.1 hb
        exact ⟨by rw [hf, this.1]; simp [accessOf], .inl ⟨_, this.2⟩⟩
      · obtain ⟨k1, k2, k3⟩ := key u hu
        rw [decodeCommand_of_ok hu.live hr, State.afterDecode_of_ok (by rw [hu.tile, hu.alpha, hu.port, k2, k3, he]),
          State.writeImg_of_some _ (k1.trans hb)]
        simp only [State.endOk, State.setImg, State.done, MemoryWrite.apply, hu.live.1, hu.port]

theorem afterHdrRead_local (s : State) (f : List Byte) :
    ∃ p, ∀ u : State, u.Live → u.port = s.port → u.afterHdrRead f = u.done p none .nothing := by
  unfold State.afterHdrRead
  simp only
  cases hr : (readHeader f (s.ioFails 0) (s.ioFails 1)).1 with
  | error st =>
    refine ⟨((s.afterIo (readHeader f (s.ioFails 0) (s.ioFails 1)).2).endStatus st).port, fun u hu hp => ?_⟩
    simp only [State.ioFails_congr hp, hr]
    simp only [State.endStatus, State.afterIo, State.done, MemoryWrite.apply, hu.1, hp]
  | ok d =>
    refine ⟨((s.afterIo (readHeader f (s.ioFails 0) (s.ioFails 1)).2).endOk (.header d.w d.h d.fmt)).port, fun u hu hp => ?_⟩
    simp only [State.ioFails_congr hp, hr]
    simp only [State.endOk, State.afterIo, State.done, MemoryWrite.apply, hu.1, hp]

theorem execHdrRead_runsLocally {s t : State} (h : execHdrRead s = .next t) : RunsLocally (.word 0x0400) execHdrRead s t := by
  obtain ⟨hl, _⟩ := execHdrRead_effect h
  rw [execHdrRead_of_live hl] at h
  cases h
  obtain ⟨p, hp⟩ := afterHdrRead_local s s.fileValue
  refine ⟨p, none, .nothing, hp s hl rfl, trivial, fun u hu => ?_⟩
  rw [execHdrRead_of_live hu.live, Alike.file hu, hp u hu.live hu.port]
  intro i hi
  refine ⟨false, ?_⟩
  have : s.port.commandFootprint s.mem (.word 0x0400) = accessOf .file false s.port.ops.file := rfl
  rw [this, hi]; simp [accessOf]

theorem afterContainerWrite_local (s : State) (fmt : Byte) (f : PixelFormat) (img : Image) :
    ∃ p r w, (w = .nothing ∨ ∃ bs, w = .file s.freshFile bs) ∧
      ∀ u : State, u.Live → u.port = s.port → u.tileOrder = s.tileOrder → u.freshFile = s.freshFile →
        u.afterContainerWrite fmt f img = u.done p r w := by
  unfold State.afterContainerWrite
  by_cases hd : (!(dimOk img.w && dimOk img.h)) = true
  · refine ⟨(s.takeFault .dimensionOutOfRange).port, some .dimensionOutOfRange, .nothing, .inl rfl, fun u hu hp ht hf => ?_⟩
    rw [if_pos hd]
    simp only [State.takeFault, State.done, MemoryWrite.apply, hp]
  · simp only [if_neg hd]
    cases he : blockEncode s.tileOrder f img (s.freshBytes (img.w * img.h * bpp f)) with
    | error r =>
      refine ⟨((s.afterDraws (img.w * img.h * bpp f)).takeFault r).port, some r, .nothing, .inl rfl, fun u hu hp ht hf => ?_⟩
      simp only [ht, State.freshBytes_congr hp, he]
      simp only [State.takeFault, State.afterDraws, State.done, MemoryWrite.apply, hp]
    | ok out =>
      cases hio : s.ioFails 0 with
      | true =>
        refine ⟨(((s.afterDraws (img.w * img.h * bpp f)).afterIo 1).endStatus .ioError).port, none, .nothing, .inl rfl,
          fun u hu hp ht hf => ?_⟩
        simp only [ht, State.freshBytes_congr hp, he, State.ioFails_congr hp, hio, if_pos]
        simp only [State.endStatus, State.afterIo, State.afterDraws, State.done, MemoryWrite.apply, hp, hu.1]
      | false =>
        refine ⟨(((s.afterDraws (img.w * img.h * bpp f)).afterIo 1).endOk (.file s.freshFile)).port, none,
          .file s.freshFile (headerBytes fmt img.w img.h ++ out), .inr ⟨_, rfl⟩, fun u hu hp ht hf => ?_⟩
        simp only [ht, State.freshBytes_congr hp, he, State.ioFails_congr hp, hio, hf, if_neg Bool.false_ne_true]
        simp only [State.endOk, State.setFile, State.afterIo, State.afterDraws, State.done, MemoryWrite.apply, hp, hu.1]

theorem containerWrite_runsLocally {fmt : Byte} {s t : State} (h : containerWrite fmt s = .next t) :
    RunsLocally (.containerWrite fmt) (containerWrite fmt) s t := by
  obtain ⟨hl, _⟩ := containerWrite_effect h
  cases hr : resolve fmt with
  | error st => exact runsLocally_of_status hl (fun u hu => containerWrite_of_error hu hr) h
  | ok f =>
    rw [containerWrite_of_ok hl hr] at h
    cases h
    obtain ⟨p, r, w, hw, hp⟩ := afterContainerWrite_local s fmt f s.imgValue
    have hf : s.port.commandFootprint s.mem (.containerWrite fmt) =
        accessOf .image false s.port.ops.img ++ accessOf .file true (some s.freshFile) := by
      simp only [Port.commandFootprint, Port.commandOperands, hr, State.freshFile]
    refine ⟨p, r, w, hp s hl rfl rfl rfl, ?_, fun u hu => ?_⟩
    · rcases hw with rfl | ⟨bs, rfl⟩
      · trivial
      · exact ⟨by rw [hf]; simp [accessOf], ⟨_, rfl⟩, rfl⟩
    · rw [containerWrite_of_ok hu.live hr, (hu.img fun i hi => ⟨false, by rw [hf, hi]; simp [accessOf]⟩).2]
      refine congrArg _ (hp u hu.live hu.port hu.tile ?_)
      have := hu.foot
      simp only [Port.commandFootprint, Port.commandOperands, hr, accessOf, hu.port] at this
      simpa [State.freshFile, hu.port] using this

theorem afterPayload_local (s : State) (file : List Byte) (d : HeaderFields) (n : Nat) :
    ∃ p r w, (w = .nothing ∨ ∃ img, w = .image s.freshImage img) ∧
      ∀ u : State, u.Live → u.port = s.port → u.tileOrder = s.tileOrder → u.rgb8DecodeAlpha = s.rgb8DecodeAlpha →
        u.freshImage = s.freshImage → u.afterPayload file d n = u.done p r w := by
  unfold State.afterPayload
  cases hr : resolve d.fmt with
  | error st =>
    refine ⟨((s.afterIo n).endStatus st).port, none, .nothing, .inl rfl,
    fun u hu hp ht ha hfr => ?_⟩
    simp only [State.endStatus, State.afterIo, State.done, MemoryWrite.apply, hu.1, hp]
  | ok f =>
    simp only
    by_cases h1 : file.length < Config.headerSize
    · refine ⟨((s.afterIo n).endStatus .ioError).port, none, .nothing, .inl rfl,
    fun u hu hp ht ha hfr => ?_⟩
      rw [if_pos h1]
      simp only [State.endStatus, State.afterIo, State.done, MemoryWrite.apply, hu.1, hp]
    · by_cases h2 : s.ioFails n = true
      · refine ⟨((s.afterIo (n + 1)).endStatus .ioError).port, none, .nothing, .inl rfl,
    fun u hu hp ht ha hfr => ?_⟩
        rw [if_neg h1, State.ioFails_congr hp, if_pos h2]
        simp only [State.endStatus, State.afterIo, State.done, MemoryWrite.apply, hu.1, hp]
      · by_cases h3 : (!(dimOk d.w && dimOk d.h)) = true
        · refine ⟨((s.afterIo (n + 1)).takeFault .dimensionOutOfRange).port, some .dimensionOutOfRange, .nothing, .inl rfl,
    fun u hu hp ht ha hfr => ?_⟩
          rw [if_neg h1, State.ioFails_congr hp, if_neg h2, if_pos h3]
          simp only [State.takeFault, State.afterIo, State.done, MemoryWrite.apply, hp]
        · cases he : blockDecode s.tileOrder s.rgb8DecodeAlpha f (file.drop Config.payloadOffset) d.w d.h (Image.fresh d.w.toNat d.h.toNat) with
          | error r =>
            refine ⟨((s.afterIo (n + 1)).takeFault r).port, some r, .nothing, .inl rfl,
    fun u hu hp ht ha hfr => ?_⟩
            rw [if_neg h1, State.ioFails_congr hp, if_neg h2, if_neg h3, ht, ha, he]
            simp only [State.takeFault, State.afterIo, State.done, MemoryWrite.apply, hp]
          | ok img =>
            refine ⟨((s.afterIo (n + 1)).endOk (.image (some s.freshImage))).port, none,
              .image s.freshImage img, .inr ⟨_, rfl⟩, fun u hu hp ht ha hfr => ?_⟩
            rw [if_neg h1, State.ioFails_congr hp, if_neg h2, if_neg h3, ht, ha, he]
            simp only [State.endOk, State.setImg, State.afterIo, State.done, MemoryWrite.apply, hp, hfr, hu.1]

theorem afterContainerRead_local (s : State) (file : List Byte) :
    ∃ p r w, (w = .nothing ∨ ∃ img, w = .image s.freshImage img) ∧
      ∀ u : State, u.Live → u.port = s.port → u.tileOrder = s.tileOrder → u.rgb8DecodeAlpha = s.rgb8DecodeAlpha →
        u.freshImage = s.freshImage → u.afterContainerRead file = u.done p r w := by
  unfold State.afterContainerRead
  simp only
  cases hr : (readHeader file (s.ioFails 0) (s.ioFails 1)).1 with
  | error st =>
    refine ⟨((s.afterIo (readHeader file (s.ioFails 0) (s.ioFails 1)).2).endStatus st).port, none, .nothing, .inl rfl,
    fun u hu hp ht ha hfr => ?_⟩
    simp only [State.ioFails_congr hp, hr]
    simp only [State.endStatus, State.afterIo, State.done, MemoryWrite.apply, hu.1, hp]
  | ok d =>
    obtain ⟨p, r, w, hw, h⟩ := afterPayload_local s file d (readHeader file (s.ioFails 0) (s.ioFails 1)).2
    refine ⟨p, r, w, hw, fun u hu hp ht ha hfr => ?_⟩
    simp only [State.ioFails_congr hp, hr]
    exact h u hu hp ht ha hfr

theorem containerRead_runsLocally {s t : State} (h : containerRead s = .next t) : RunsLocally .containerRead containerRead s t := by
  obtain ⟨hl, _⟩ := containerRead_effect h
  rw [containerRead_of_live hl] at h
  cases h
  obtain ⟨p, r, w, hw, hp⟩ := afterContainerRead_local s s.fileValue
  have hf : s.port.commandFootprint s.mem .containerRead =
      accessOf .file false s.port.ops.file ++ accessOf .image true (some s.freshImage) := rfl
  refine ⟨p, r, w, hp s hl rfl rfl rfl rfl, ?_, fun u hu => ?_⟩
  · rcases hw with rfl | ⟨img, rfl⟩
    · trivial
    · exact ⟨by rw [hf]; simp [accessOf], .inr ⟨rfl, rfl⟩⟩
  · rw [containerRead_of_live hu.live, Alike.file hu (fun i hi => ⟨false, by rw [hf, hi]; simp [accessOf]⟩)]
    refine congrArg _ (hp u hu.live hu.port hu.tile hu.alpha ?_)
    have := hu.foot
    simp only [Port.commandFootprint, Port.commandOperands, accessOf, hu.port] at this
    simpa [State.freshImage, hu.port] using this


/-- What a command sees, and what it touches, said once for every command (20_memory.md R60, R61). -/
theorem runCommand_runsLocally {c : Command} {s t : State} (h : runCommand c s = .next t) : RunsLocally c (runCommand c) s t := by
  obtain ⟨hl, _⟩ := runCommand_effect h
  cases c with
  | containerWrite fmt => exact containerWrite_runsLocally h
  | containerRead => exact containerRead_runsLocally h
  | word w =>
    have hrun : ∀ {run : State → Host.Outcome State Fault Refusal}, (∀ u, runCommand (.word w) u = run u) →
        (run s = .next t → RunsLocally (.word w) run s t) → RunsLocally (.word w) (runCommand (.word w)) s t := by
      intro run hr hh
      have e : runCommand (.word w) = run := funext hr
      rw [e]; exact hh (by rw [← hr]; exact h)
    have hi : ∀ {e}, decode w = .error e → RunsLocally (.word w) (runCommand (.word w)) s t := fun he =>
      hrun (run := illegalCommand) (fun u => by simp only [runCommand, he])
        (runsLocally_of_status (st := .illegalCommand) hl fun u hu => by rw [illegalCommand, guarded_live hu])
    by_cases hrsv : w.rsv = 0
    swap
    · exact hi (e := .reservedBits) (by rw [decode, if_pos hrsv])
    have h16 : w.cls.toNat < 16 := w.cls.isLt
    have hfoot : ∀ (i : Instr), decode w = .ok i → ∀ u : State,
        u.port.commandFootprint u.mem (.word w) = wordFootprint u.port.ops w.cls.toNat w.arg := by
      intro i hi u; simp [Port.commandFootprint, Port.commandOperands, hi]
    generalize hcls : w.cls.toNat = k at h16
    interval_cases k
    · exact hi (e := .unassignedClass) (by simp [decode, hrsv, hcls])
    · have hd : decode w = .ok (encodeOfFmt w.arg) := by simp [decode, hrsv, hcls]
      refine hrun (run := encodeCommand w.arg) (fun u => by simp [runCommand, hd, exec_encodeOfFmt]) ?_
      cases hr : resolve w.arg with
      | error st => exact runsLocally_of_status hl (fun u hu => encodeCommand_of_error hu hr)
      | ok f => exact encodeCommand_runsLocally (fun s => by rw [hfoot _ hd, hcls]; simp only [wordFootprint, hr]) hr
    · have hd : decode w = .ok (decodeOfFmt w.arg) := by simp [decode, hrsv, hcls]
      refine hrun (run := decodeCommand w.arg) (fun u => by simp [runCommand, hd, exec_decodeOfFmt]) ?_
      cases hr : resolve w.arg with
      | error st => exact runsLocally_of_status hl (fun u hu => decodeCommand_of_error hu hr)
      | ok f => exact decodeCommand_runsLocally (fun s => by rw [hfoot _ hd, hcls]; simp only [wordFootprint, hr]) hr
    · have hd : decode w = .ok (.hdrWrite w.arg) := by simp [decode, hrsv, hcls]
      refine hrun (run := execHdrWrite w.arg) (fun u => by simp [runCommand, hd, exec]) ?_
      cases hr : resolve w.arg with
      | error st => exact runsLocally_of_status hl (fun u hu => execHdrWrite_of_error hu hr)
      | ok f =>
        by_cases hb : (dimOk s.port.ops.argW && dimOk s.port.ops.argH) = true
        · intro h
          rw [execHdrWrite_of_ok hl hr, if_pos hb] at h
          cases h
          refine ⟨_, _, .nothing, State.endOk_eq_done hl _, trivial, fun u hu => ?_⟩
          rw [execHdrWrite_of_ok hu.live hr, hu.port, if_pos hb, State.endOk_eq_done hu.live, hu.port]
        · intro h
          rw [execHdrWrite_of_ok hl hr, if_neg hb] at h
          cases h
          refine ⟨_, _, .nothing, State.takeFault_eq_done _, trivial, fun u hu => ?_⟩
          rw [execHdrWrite_of_ok hu.live hr, hu.port, if_neg hb, State.takeFault_eq_done, hu.port]
    · by_cases ha : w.arg = 0
      · have hw : w = 0x0400 := by
          obtain ⟨h1, h2, h3, h4⟩ := Half.fields_eq w
          have := w.isLt
          apply BitVec.eq_of_toNat_eq
          have a1 : w.toNat / 4096 = 0 := by rw [← h1, hrsv]; rfl
          have a2 : w.toNat / 256 % 16 = 4 := by rw [← h4, hcls]
          have a3 := congrArg BitVec.toNat h3
          rw [ha] at a3; simp at a3
          have : (0x0400 : Half).toNat = 1024 := rfl
          omega
        subst hw
        exact hrun (run := execHdrRead) (fun u => rfl) execHdrRead_runsLocally
      · exact hi (e := .hdrReadArgument) (by simp [decode, hrsv, hcls]; exact ha)
    · have hd : decode w = .ok (.fmtResolve w.arg) := by simp [decode, hrsv, hcls]
      refine hrun (run := execFmtResolve w.arg) (fun u => by simp [runCommand, hd, exec]) ?_
      cases hr : resolve w.arg with
      | error st => exact runsLocally_of_status (st := st) hl (fun u hu => by rw [execFmtResolve, guarded_live hu]; simp only [hr])
      | ok f =>
        exact runsLocally_of_ok hl (fun _ => .format f (bpp f)) (fun u hu => by rw [execFmtResolve, guarded_live hu]; simp only [hr])
          (fun _ _ _ _ => rfl)
    · cases hd : decode w with
      | error e => exact hi hd
      | ok i =>
        have : ∃ idx, i = .tileLookup idx := by
          simp only [decode, hrsv, hcls] at hd
          simp at hd
          split at hd
          · cases hd; exact ⟨_, rfl⟩
          · cases hd
        obtain ⟨idx, rfl⟩ := this
        refine hrun (run := execTileLookup idx) (fun u => by simp [runCommand, hd, exec]) ?_
        refine runsLocally_of_ok hl
          (fun u => .tile u.tileOrder[idx.toFin].val (tilePos u.tileOrder idx.toFin).1 (tilePos u.tileOrder idx.toFin).2) (fun u hu => ?_)
          (fun u _ h _ => by rw [h])
        rw [execTileLookup, guarded_live hu]
    · have hd : decode w = .ok (pxpackOfFmt w.arg) := by simp [decode, hrsv, hcls]
      refine hrun (run := pxpackCommand w.arg) (fun u => by simp [runCommand, hd, exec_pxpackOfFmt]) ?_
      cases hr : resolve w.arg with
      | error st => exact runsLocally_of_status hl (fun u hu => pxpackCommand_of_error hu hr)
      | ok f =>
        exact runsLocally_of_ok hl (fun u => .bytes (pack f u.port.ops.argPixel)) (fun u hu => pxpackCommand_of_ok hu hr)
          (fun u h _ _ => by rw [h])
    · have hd : decode w = .ok (pxunpackOfFmt w.arg) := by simp [decode, hrsv, hcls]
      refine hrun (run := pxunpackCommand w.arg) (fun u => by simp [runCommand, hd, exec_pxunpackOfFmt]) ?_
      cases hr : resolve w.arg with
      | error st => exact runsLocally_of_status hl (fun u hu => pxunpackCommand_of_error hu hr)
      | ok f =>
        intro h
        cases hu : unpack s.rgb8DecodeAlpha f s.port.ops.argBytes with
        | ok p =>
          rw [pxunpackCommand_of_ok hl hr hu] at h
          cases h
          refine ⟨_, _, .nothing, State.endOk_eq_done hl _, trivial, fun u hu' => ?_⟩
          rw [pxunpackCommand_of_ok hu'.live hr (by rw [hu'.alpha, hu'.port, hu]), State.endOk_eq_done hu'.live, hu'.port]
        | error r =>
          have e : ∀ u : State, u.Live → u.port = s.port → u.rgb8DecodeAlpha = s.rgb8DecodeAlpha →
              pxunpackCommand w.arg u = .next (u.takeFault r) := by
            intro u hul hp ha
            rw [pxunpackCommand, guarded_live hul]; simp only [hr, ha, hp, hu]
          rw [e s hl rfl rfl] at h
          cases h
          refine ⟨_, _, .nothing, State.takeFault_eq_done _, trivial, fun u hu' => ?_⟩
          rw [e u hu'.live hu'.port hu'.alpha, State.takeFault_eq_done, hu'.port]
    all_goals exact hi (e := .unassignedClass) (by simp [decode, hrsv, hcls])

end Sys2Proof.Machine
end

