-- ==== Sys2Proof/Laws/PerInstr.lean ====
section
/-!
SUPPORT. A law of the encoding, instruction by instruction: the word of every command has its reserved bits 0000 (30_encoding.md R77) and a class
that 30_encoding.md R71 assigns.
-/

namespace Sys2Proof.Laws.Encoding

/-- The reserved bits of the command's word are 0 and its class is assigned. -/
def Statement (i : Instr) : Prop :=
  Half.rsv (encode i) = 0 ∧ 1 ≤ (Half.cls (encode i)).toNat ∧ (Half.cls (encode i)).toNat ≤ 8

/-- The two fields of a command word are where 30_encoding.md R70 puts them. -/
theorem commandWord_fields (c : BitVec 4) (arg : Byte) :
    Half.rsv (commandWord c arg) = 0 ∧ Half.cls (commandWord c arg) = c := by
  revert c arg
  decide +kernel

/-- A word of an assigned class meets the statement. -/
theorem of_class {i : Instr} {c : BitVec 4} {arg : Byte} (h : encode i = commandWord c arg) (h1 : 1 ≤ c.toNat) (h8 : c.toNat ≤ 8) :
    Statement i := by
  obtain ⟨hr, hc⟩ := commandWord_fields c arg
  unfold Statement
  rw [h, hc]
  exact ⟨hr, h1, h8⟩

theorem encodeRgba8 : Statement .encodeRgba8 := of_class rfl (by decide) (by decide)

theorem encodeRgb8 : Statement .encodeRgb8 := of_class rfl (by decide) (by decide)

theorem encodeA8 : Statement .encodeA8 := of_class rfl (by decide) (by decide)

theorem encodeRgb565 : Statement .encodeRgb565 := of_class rfl (by decide) (by decide)

theorem encodeRgba4 : Statement .encodeRgba4 := of_class rfl (by decide) (by decide)

theorem encodeRgba5551 : Statement .encodeRgba5551 := of_class rfl (by decide) (by decide)

theorem encodeEtc1 : Statement .encodeEtc1 := of_class rfl (by decide) (by decide)

theorem encodeInvalid (fmt : Byte) : Statement (.encodeInvalid fmt) := of_class rfl (by decide) (by decide)

theorem decodeRgba8 : Statement .decodeRgba8 := of_class rfl (by decide) (by decide)

theorem decodeRgb8 : Statement .decodeRgb8 := of_class rfl (by decide) (by decide)

theorem decodeA8 : Statement .decodeA8 := of_class rfl (by decide) (by decide)

theorem decodeRgb565 : Statement .decodeRgb565 := of_class rfl (by decide) (by decide)

theorem decodeRgba4 : Statement .decodeRgba4 := of_class rfl (by decide) (by decide)

theorem decodeRgba5551 : Statement .decodeRgba5551 := of_class rfl (by decide) (by decide)

theorem decodeEtc1 : Statement .decodeEtc1 := of_class rfl (by decide) (by decide)

theorem decodeInvalid (fmt : Byte) : Statement (.decodeInvalid fmt) := of_class rfl (by decide) (by decide)

theorem pxpackRgba8 : Statement .pxpackRgba8 := of_class rfl (by decide) (by decide)

theorem pxpackRgb8 : Statement .pxpackRgb8 := of_class rfl (by decide) (by decide)

theorem pxpackA8 : Statement .pxpackA8 := of_class rfl (by decide) (by decide)

theorem pxpackRgb565 : Statement .pxpackRgb565 := of_class rfl (by decide) (by decide)

theorem pxpackRgba4 : Statement .pxpackRgba4 := of_class rfl (by decide) (by decide)

theorem pxpackRgba5551 : Statement .pxpackRgba5551 := of_class rfl (by decide) (by decide)

theorem pxpackEtc1 : Statement .pxpackEtc1 := of_class rfl (by decide) (by decide)

theorem pxpackInvalid (fmt : Byte) : Statement (.pxpackInvalid fmt) := of_class rfl (by decide) (by decide)

theorem pxunpackRgba8 : Statement .pxunpackRgba8 := of_class rfl (by decide) (by decide)

theorem pxunpackRgb8 : Statement .pxunpackRgb8 := of_class rfl (by decide) (by decide)

theorem pxunpackA8 : Statement .pxunpackA8 := of_class rfl (by decide) (by decide)

theorem pxunpackRgb565 : Statement .pxunpackRgb565 := of_class rfl (by decide) (by decide)

theorem pxunpackRgba4 : Statement .pxunpackRgba4 := of_class rfl (by decide) (by decide)

theorem pxunpackRgba5551 : Statement .pxunpackRgba5551 := of_class rfl (by decide) (by decide)

theorem pxunpackEtc1 : Statement .pxunpackEtc1 := of_class rfl (by decide) (by decide)

theorem pxunpackInvalid (fmt : Byte) : Statement (.pxunpackInvalid fmt) := of_class rfl (by decide) (by decide)

theorem hdrWrite (fmt : Byte) : Statement (.hdrWrite fmt) := of_class rfl (by decide) (by decide)

theorem hdrRead : Statement .hdrRead := of_class rfl (by decide) (by decide)

theorem fmtResolve (fmt : Byte) : Statement (.fmtResolve fmt) := of_class rfl (by decide) (by decide)

theorem tileLookup (idx : BitVec 6) : Statement (.tileLookup idx) := of_class rfl (by decide) (by decide)

end Sys2Proof.Laws.Encoding
end

