-- ==== Sys2Proof/Tests/Slice0.lean ====
section
/-!
SUPPORT. The model's own tests: ill-formed terms, words of the spec, one step of each command on a small state, and for every statement with
hypotheses a concrete state that meets them. Expected values are taken from spec/95_test_vectors.md and from the rules' examples.
-/

namespace Sys2Proof.Tests

set_option Elab.async false

open Sys2Proof.Machine Sys2Proof.Claims

/-! ### Helpers -/

/-- The next state, if there is one. -/
def nextOf (o : Host.Outcome State Fault Refusal) : Option State :=
  match o with
  | .next t => some t
  | _ => none

/-- A machine after reset with this memory, no file access failing, and this command pending. -/
def pending (c : Command) (ops : Operands) (m : Memory) : State :=
  { State.reset with mem := m, port := { Port.reset 0 with cmd := some c, ops := ops, ioAnswers := [false, false, false] } }

/-- The same state, but for the answers of `IO_FAIL` that are settled. -/
def withAnswers (s : State) (answers : List Bool) : State :=
  { s with port := { s.port with ioAnswers := answers } }

/-- The state after one step with this command word pending. -/
def after (w : Half) (ops : Operands) (m : Memory) : Option State :=
  nextOf (step (pending (.word w) ops m))

/-- The mark, `STATUS` and `RESULT` after one step with this command word pending. -/
def outcome (w : Half) (ops : Operands) (m : Memory) : Option (Option FaultReason × Byte × Result) :=
  (after w ops m).map fun t => (t.faulted, t.port.status, t.port.result)

def noMem : Memory := ⟨[], [], []⟩

/-- `ARG_PIXEL`. -/
def pixelOps (r g b a : Byte) : Operands := { Operands.reset with argPixel := ⟨r, g, b, a⟩ }

/-- `ARG_BYTES`. -/
def bytesOps (bs : List Byte) : Operands := { Operands.reset with argBytes := bs }

/-- `ARG_W` and `ARG_H`. -/
def dimOps (w h : Int) : Operands := { Operands.reset with argW := w, argH := h }

/-- `IMG`, `BUF` and `FILE` name the objects with handle 0. -/
def objOps (w h : Int) : Operands := { dimOps w h with img := some 0, buf := some 0, file := some 0 }

/-- A memory with one buffer, one image and one file, all under handle 0. -/
def mem (buf : List Byte) (img : Image) (file : List Byte) : Memory := ⟨[(0, buf)], [(0, img)], [(0, file)]⟩

/-- An image whose every pixel is written and given by its place. -/
def image (w h : Nat) (f : Nat → Nat → Pixel) : Image :=
  { w := w, h := h, px := (List.range (w * h)).map fun k => (k, f (k % w) (k / w)) }

/-- Buffer 0 after a step. -/
def buffer0 (o : Option State) : Option (List Byte) := o.bind fun t => Store.find? t.mem.bufs 0

/-- A pixel of an image after a step. -/
def pixelOf (h : Handle) (o : Option State) (x y : Nat) : Option Pixel :=
  (o.bind fun t => Store.find? t.mem.imgs h).bind fun img => (img.read x y).toOption

/-- A pixel of image 0 after a step. -/
def pixel0 : Option State → Nat → Nat → Option Pixel := pixelOf 0

/-- The G8 gradient of 95_test_vectors.md L2.5. -/
def g8 : Image :=
  image 8 8 fun x y => ⟨BitVec.ofNat 8 (32 * x), BitVec.ofNat 8 (32 * y), BitVec.ofNat 8 (x + 8 * y), BitVec.ofNat 8 (255 - (x + 8 * y))⟩

/-- The first four groups and the last group of a buffer of 64 groups of `n` bytes. -/
def ends (n : Nat) (bs : List Byte) : List Byte × List Byte := (bs.take (4 * n), bs.drop (63 * n))

/-- A buffer of 64 groups of `n` bytes with these first four groups and this last group, zeros between. -/
def ofEnds (n : Nat) (a z : List Byte) : List Byte := a ++ List.replicate (59 * n) 0 ++ z

/-- A header of 128 bytes with these bytes from 0x10 on (95_test_vectors.md L2.6). -/
def header (fields : List Byte) : List Byte :=
  [0x74, 0x65, 0x78, 0x74, 0x75, 0x72, 0x65] ++ List.replicate 9 0 ++ fields ++ List.replicate 0x6B 0

/-! ### Ill-formed terms are refused by the check -/

theorem test_encode_row_nn_needs_undefined_id : (Instr.encodeInvalid 0).wellFormed = false ∧ (Instr.encodeInvalid 3).wellFormed = true := by decide

theorem test_decode_row_nn_needs_undefined_id : (Instr.decodeInvalid 4).wellFormed = false ∧ (Instr.decodeInvalid 8).wellFormed = true := by decide

theorem test_pxpack_row_nn_needs_undefined_id : (Instr.pxpackInvalid 7).wellFormed = false ∧ (Instr.pxpackInvalid 0xFF).wellFormed = true := by
  decide

theorem test_pxunpack_row_nn_needs_undefined_id :
    (Instr.pxunpackInvalid 1).wellFormed = false ∧ (Instr.pxunpackInvalid 0x80).wellFormed = true := by decide

/-! ### Decoding: words written out from 30_encoding.md R70 to R73, reserved bits, class, argument -/

theorem test_decode_encode_words :
    decode 0b0000_0001_0000_0000 = .ok .encodeRgba8 ∧
      decode 0b0000_0001_0000_0001 = .ok .encodeRgb8 ∧
      decode 0b0000_0001_0000_0010 = .ok .encodeA8 ∧
      decode 0b0000_0001_0000_0100 = .ok .encodeEtc1 ∧
      decode 0b0000_0001_0000_0101 = .ok .encodeRgba5551 ∧
      decode 0b0000_0001_0000_0110 = .ok .encodeRgb565 ∧
      decode 0b0000_0001_0000_0111 = .ok .encodeRgba4 ∧
      decode 0b0000_0001_0000_0011 = .ok (.encodeInvalid 3) ∧
      decode 0b0000_0001_1111_1111 = .ok (.encodeInvalid 0xFF) := by decide

theorem test_decode_decode_words :
    decode 0b0000_0010_0000_0000 = .ok .decodeRgba8 ∧
      decode 0b0000_0010_0000_0001 = .ok .decodeRgb8 ∧
      decode 0b0000_0010_0000_0010 = .ok .decodeA8 ∧
      decode 0b0000_0010_0000_0100 = .ok .decodeEtc1 ∧
      decode 0b0000_0010_0000_0101 = .ok .decodeRgba5551 ∧
      decode 0b0000_0010_0000_0110 = .ok .decodeRgb565 ∧
      decode 0b0000_0010_0000_0111 = .ok .decodeRgba4 ∧
      decode 0b0000_0010_0000_0011 = .ok (.decodeInvalid 3) ∧
      decode 0b0000_0010_1111_1111 = .ok (.decodeInvalid 0xFF) := by decide

theorem test_decode_pxpack_words :
    decode 0b0000_0111_0000_0000 = .ok .pxpackRgba8 ∧
      decode 0b0000_0111_0000_0001 = .ok .pxpackRgb8 ∧
      decode 0b0000_0111_0000_0010 = .ok .pxpackA8 ∧
      decode 0b0000_0111_0000_0100 = .ok .pxpackEtc1 ∧
      decode 0b0000_0111_0000_0101 = .ok .pxpackRgba5551 ∧
      decode 0b0000_0111_0000_0110 = .ok .pxpackRgb565 ∧
      decode 0b0000_0111_0000_0111 = .ok .pxpackRgba4 ∧
      decode 0b0000_0111_0000_0011 = .ok (.pxpackInvalid 3) ∧
      decode 0b0000_0111_1111_1111 = .ok (.pxpackInvalid 0xFF) := by decide

theorem test_decode_pxunpack_words :
    decode 0b0000_1000_0000_0000 = .ok .pxunpackRgba8 ∧
      decode 0b0000_1000_0000_0001 = .ok .pxunpackRgb8 ∧
      decode 0b0000_1000_0000_0010 = .ok .pxunpackA8 ∧
      decode 0b0000_1000_0000_0100 = .ok .pxunpackEtc1 ∧
      decode 0b0000_1000_0000_0101 = .ok .pxunpackRgba5551 ∧
      decode 0b0000_1000_0000_0110 = .ok .pxunpackRgb565 ∧
      decode 0b0000_1000_0000_0111 = .ok .pxunpackRgba4 ∧
      decode 0b0000_1000_0000_0011 = .ok (.pxunpackInvalid 3) ∧
      decode 0b0000_1000_1111_1111 = .ok (.pxunpackInvalid 0xFF) := by decide

theorem test_decode_header_words :
    decode 0b0000_0011_0000_0110 = .ok (.hdrWrite 6) ∧ decode 0b0000_0100_0000_0000 = .ok .hdrRead ∧
      decode 0b0000_0101_1111_1111 = .ok (.fmtResolve 0xFF) ∧ decode 0b0000_0110_0010_1010 = .ok (.tileLookup 42) := by decide

theorem test_decode_illegal_words :
    decode 0x0000 = .error .unassignedClass ∧ decode 0x0FFF = .error .unassignedClass ∧ decode 0x06FF = .error .tileIndexRange ∧
      decode 0x04FF = .error .hdrReadArgument ∧ decode 0x8000 = .error .reservedBits ∧ decode 0x1106 = .error .reservedBits := by decide

theorem test_table_word_decodes : decodeTableWord 16 0x0602 = some (.tileLookup 2) ∧ decodeTableWord 16 0x0640 = none := by decide

/-- An illegal word ends with status 6 (95_test_vectors.md L2.1). -/
theorem test_illegal_word_status : outcome 0x0401 Operands.reset noMem = some (none, 6, .empty) := by decide

/-- The assembler forms of 30_encoding.md R89. -/
theorem test_assembly :
    assembly .encodeRgb565 = "ENCODE.RGB565 img, buf" ∧ assembly (.encodeInvalid 3) = "ENCODE.#03 img, buf" ∧
      assembly .decodeEtc1 = "DECODE.ETC1 buf, W, H, img" ∧ assembly (.hdrWrite 7) = "HDR_WRITE.RGBA4 W, H" ∧
      assembly .hdrRead = "HDR_READ file" ∧ assembly (.fmtResolve 0xFF) = "FMT_RESOLVE.#FF" ∧ assembly (.tileLookup 42) = "TILE_LOOKUP 42" ∧
      assembly .pxpackA8 = "PXPACK.A8 r, g, b, a" ∧ assembly .pxunpackRgb8 = "PXUNPACK.RGB8 b0, b1, b2" := by decide

/-! ### Format resolution and tile lookup (95_test_vectors.md L2.2, L2.3) -/

theorem test_fmt_resolve_listed :
    outcome 0x0506 Operands.reset noMem = some (none, 0, .format .rgb565 2) ∧
      outcome 0x0501 Operands.reset noMem = some (none, 0, .format .rgb8 3) ∧
      outcome 0x0505 Operands.reset noMem = some (none, 0, .format .rgba5551 2) := by decide

theorem test_fmt_resolve_rejected :
    outcome 0x0503 Operands.reset noMem = some (none, 2, .empty) ∧ outcome 0x0504 Operands.reset noMem = some (none, 3, .empty) ∧
      outcome 0x0508 Operands.reset noMem = some (none, 2, .empty) := by decide

/-- Values of the default table, which is PRESUMED (log 3). -/
theorem test_tile_lookup_default :
    outcome 0x0602 Operands.reset noMem = some (none, 0, .tile 8 0 1) ∧ outcome 0x0610 Operands.reset noMem = some (none, 0, .tile 4 4 0) ∧
      outcome 0x063F Operands.reset noMem = some (none, 0, .tile 63 7 7) := by decide

/-- The closed form of 40_tile_order.md R97; the values are PRESUMED (log 3). -/
theorem test_default_table_closed_form :
    ∀ i : Fin 64, (State.reset.tileOrder[i]).val =
      8 * (i.val / 2 % 2 + i.val / 8 % 2 * 2 + i.val / 32 * 4) + (i.val % 2 + i.val / 4 % 2 * 2 + i.val / 16 % 2 * 4) := by decide +kernel

/-- TILE_INV of 95_test_vectors.md L2.3, rows 0 and 7, and position (3, 5). -/
theorem test_tile_inverse_default :
    (List.range 8).map (fun x => (tileInv defaultTileOrder x 0).map Fin.val) = [0, 1, 4, 5, 16, 17, 20, 21].map some ∧
      (List.range 8).map (fun x => (tileInv defaultTileOrder x 7).map Fin.val) = [42, 43, 46, 47, 58, 59, 62, 63].map some ∧
      (tileInv defaultTileOrder 3 5).map Fin.val = some 39 := by decide +kernel

/-- The default table meets everything the source fixes of it (40_tile_order.md R98). -/
theorem test_default_table_ok : TileOk defaultTileOrder := by decide +kernel

/-! ### Single pixels (95_test_vectors.md L2.4) -/

/-- PXPACK.RGBA8 of P7 and P2. -/
theorem test_pxpack_rgba8 :
    outcome 0x0700 (pixelOps 0xAB 0xCD 0xEF 0x12) noMem = some (none, 0, .bytes [0x12, 0xEF, 0xCD, 0xAB]) ∧
      outcome 0x0700 (pixelOps 0x07 0x03 0x07 0xFE) noMem = some (none, 0, .bytes [0xFE, 0x07, 0x03, 0x07]) := by decide

/-- PXPACK.RGB8 of P7 and P2. -/
theorem test_pxpack_rgb8 :
    outcome 0x0701 (pixelOps 0xAB 0xCD 0xEF 0x12) noMem = some (none, 0, .bytes [0xEF, 0xCD, 0xAB]) ∧
      outcome 0x0701 (pixelOps 0x07 0x03 0x07 0xFE) noMem = some (none, 0, .bytes [0x07, 0x03, 0x07]) := by decide

/-- PXPACK.A8 of P7 and P2. -/
theorem test_pxpack_a8 :
    outcome 0x0702 (pixelOps 0xAB 0xCD 0xEF 0x12) noMem = some (none, 0, .bytes [0x12]) ∧
      outcome 0x0702 (pixelOps 0x07 0x03 0x07 0xFE) noMem = some (none, 0, .bytes [0xFE]) := by decide

/-- PXPACK.RGB565 of P7 and P2. -/
theorem test_pxpack_rgb565 :
    outcome 0x0706 (pixelOps 0xAB 0xCD 0xEF 0x12) noMem = some (none, 0, .bytes [0x7D, 0xAE]) ∧
      outcome 0x0706 (pixelOps 0x07 0x03 0x07 0xFE) noMem = some (none, 0, .bytes [0x00, 0x00]) := by decide

/-- PXPACK.RGBA4 of P7 and P4. -/
theorem test_pxpack_rgba4 :
    outcome 0x0707 (pixelOps 0xAB 0xCD 0xEF 0x12) noMem = some (none, 0, .bytes [0xE1, 0xAC]) ∧
      outcome 0x0707 (pixelOps 0x0F 0x10 0x1F 0x80) noMem = some (none, 0, .bytes [0x18, 0x01]) := by decide

/-- PXPACK.RGBA5551 of P7 and P6. -/
theorem test_pxpack_rgba5551 :
    outcome 0x0705 (pixelOps 0xAB 0xCD 0xEF 0x12) noMem = some (none, 0, .bytes [0x7A, 0xAE]) ∧
      outcome 0x0705 (pixelOps 0xFF 0x80 0x10 0xFF) noMem = some (none, 0, .bytes [0x05, 0xFC]) := by decide

/-- PXUNPACK.RGBA8 of two groups, and of one byte too few. -/
theorem test_pxunpack_rgba8 :
    outcome 0x0800 (bytesOps [0x12, 0xEF, 0xCD, 0xAB]) noMem = some (none, 0, .pixel ⟨171, 205, 239, 18⟩) ∧
      outcome 0x0800 (bytesOps [0x78, 0x56, 0x34, 0x12]) noMem = some (none, 0, .pixel ⟨18, 52, 86, 120⟩) ∧
      outcome 0x0800 (bytesOps [2, 2, 2]) noMem = some (some .bufferUnderrun, 0, .empty) := by decide

/-- PXUNPACK.RGB8 of two groups, and of one byte too few. -/
theorem test_pxunpack_rgb8 :
    outcome 0x0801 (bytesOps [0xEF, 0xCD, 0xAB]) noMem = some (none, 0, .pixel ⟨171, 205, 239, 255⟩) ∧
      outcome 0x0801 (bytesOps [0x33, 0x22, 0x11, 0x99]) noMem = some (none, 0, .pixel ⟨17, 34, 51, 255⟩) ∧
      outcome 0x0801 (bytesOps [2, 2]) noMem = some (some .bufferUnderrun, 0, .empty) := by decide

/-- PXUNPACK.A8 of two groups, and of one byte too few. -/
theorem test_pxunpack_a8 :
    outcome 0x0802 (bytesOps [0x12]) noMem = some (none, 0, .pixel ⟨0, 0, 0, 18⟩) ∧
      outcome 0x0802 (bytesOps [0x7F]) noMem = some (none, 0, .pixel ⟨0, 0, 0, 127⟩) ∧
      outcome 0x0802 (bytesOps []) noMem = some (some .bufferUnderrun, 0, .empty) := by decide

/-- PXUNPACK.RGB565 of two groups, and of one byte too few. -/
theorem test_pxunpack_rgb565 :
    outcome 0x0806 (bytesOps [0xE0, 0x07]) noMem = some (none, 0, .pixel ⟨0, 252, 0, 255⟩) ∧
      outcome 0x0806 (bytesOps [0x02, 0xFC, 0x99]) noMem = some (none, 0, .pixel ⟨248, 128, 16, 255⟩) ∧
      outcome 0x0806 (bytesOps [2]) noMem = some (some .bufferUnderrun, 0, .empty) := by decide

/-- PXUNPACK.RGBA4 of two groups, and of one byte too few. -/
theorem test_pxunpack_rgba4 :
    outcome 0x0807 (bytesOps [0x3E, 0x00]) noMem = some (none, 0, .pixel ⟨0, 0, 48, 224⟩) ∧
      outcome 0x0807 (bytesOps [0xE1, 0xAC]) noMem = some (none, 0, .pixel ⟨160, 192, 224, 16⟩) ∧
      outcome 0x0807 (bytesOps [2]) noMem = some (some .bufferUnderrun, 0, .empty) := by decide

/-- PXUNPACK.RGBA5551 of two groups, and of one byte too few. -/
theorem test_pxunpack_rgba5551 :
    outcome 0x0805 (bytesOps [0x1F, 0x00]) noMem = some (none, 0, .pixel ⟨0, 0, 120, 255⟩) ∧
      outcome 0x0805 (bytesOps [0xC0, 0x07]) noMem = some (none, 0, .pixel ⟨0, 248, 0, 0⟩) ∧
      outcome 0x0805 (bytesOps [2]) noMem = some (some .bufferUnderrun, 0, .empty) := by decide

/-- `PXUNPACK.RGB8 33, 22, 11` under `RGB8_DECODE_ALPHA = 0x80`. -/
theorem test_pxunpack_rgb8_parameter :
    (nextOf (step { pending (.word 0x0801) (bytesOps [0x33, 0x22, 0x11]) noMem with rgb8DecodeAlpha := 0x80 })).map (·.port.result) =
      some (.pixel ⟨0x11, 0x22, 0x33, 0x80⟩) := by decide

/-- The ETC1 and `#nn` rows of PXPACK and PXUNPACK, with no bytes given. -/
theorem test_px_rejected :
    outcome 0x0704 Operands.reset noMem = some (none, 3, .empty) ∧ outcome 0x0804 Operands.reset noMem = some (none, 3, .empty) ∧
      outcome 0x0703 (pixelOps 1 2 3 4) noMem = some (none, 2, .empty) ∧ outcome 0x08FF Operands.reset noMem = some (none, 2, .empty) := by decide

/-! ### Blocks (95_test_vectors.md L2.5); the places of the groups are the default table's, which is PRESUMED (log 3) -/

/-- ENCODE.RGBA8 of the gradient. -/
theorem test_encode_rgba8 :
    (buffer0 (after 0x0100 (objOps 0 0) (mem (List.replicate 256 0xAA) g8 []))).map (ends 4) =
      some ([0xFF, 0x00, 0x00, 0x00, 0xFE, 0x01, 0x00, 0x20, 0xF7, 0x08, 0x20, 0x00, 0xF6, 0x09, 0x20, 0x20], [0xC0, 0x3F, 0xE0, 0xE0]) := by decide +kernel

/-- DECODE.RGBA8 of these groups, at (1, 0), (0, 1) and (7, 7). -/
theorem test_decode_rgba8 :
    let t := after 0x0200 (objOps 8 8) (mem (ofEnds 4 [0xFF, 0x00, 0x00, 0x00, 0xFE, 0x01, 0x00, 0x20, 0xF7, 0x08, 0x20, 0x00, 0xF6, 0x09, 0x20, 0x20] [0xC0, 0x3F, 0xE0, 0xE0]) (Image.fresh 8 8) [])
    [pixel0 t 1 0, pixel0 t 0 1, pixel0 t 7 7] = [⟨32, 0, 1, 254⟩, ⟨0, 32, 8, 247⟩, ⟨224, 224, 63, 192⟩].map some := by decide +kernel

/-- ENCODE.RGB8 of the gradient. -/
theorem test_encode_rgb8 :
    (buffer0 (after 0x0101 (objOps 0 0) (mem (List.replicate 192 0xAA) g8 []))).map (ends 3) =
      some ([0x00, 0x00, 0x00, 0x01, 0x00, 0x20, 0x08, 0x20, 0x00, 0x09, 0x20, 0x20], [0x3F, 0xE0, 0xE0]) := by decide +kernel

/-- DECODE.RGB8 of these groups, at (1, 0), (0, 1) and (7, 7). -/
theorem test_decode_rgb8 :
    let t := after 0x0201 (objOps 8 8) (mem (ofEnds 3 [0x00, 0x00, 0x00, 0x01, 0x00, 0x20, 0x08, 0x20, 0x00, 0x09, 0x20, 0x20] [0x3F, 0xE0, 0xE0]) (Image.fresh 8 8) [])
    [pixel0 t 1 0, pixel0 t 0 1, pixel0 t 7 7] = [⟨32, 0, 1, 255⟩, ⟨0, 32, 8, 255⟩, ⟨224, 224, 63, 255⟩].map some := by decide +kernel

/-- ENCODE.A8 of the gradient. -/
theorem test_encode_a8 :
    (buffer0 (after 0x0102 (objOps 0 0) (mem (List.replicate 64 0xAA) g8 []))).map (ends 1) =
      some ([0xFF, 0xFE, 0xF7, 0xF6], [0xC0]) := by decide +kernel

/-- DECODE.A8 of these groups, at (1, 0), (0, 1) and (7, 7). -/
theorem test_decode_a8 :
    let t := after 0x0202 (objOps 8 8) (mem (ofEnds 1 [0xFF, 0xFE, 0xF7, 0xF6] [0xC0]) (Image.fresh 8 8) [])
    [pixel0 t 1 0, pixel0 t 0 1, pixel0 t 7 7] = [⟨0, 0, 0, 254⟩, ⟨0, 0, 0, 247⟩, ⟨0, 0, 0, 192⟩].map some := by decide +kernel

/-- ENCODE.RGB565 of the gradient. -/
theorem test_encode_rgb565 :
    (buffer0 (after 0x0106 (objOps 0 0) (mem (List.replicate 128 0xAA) g8 []))).map (ends 2) =
      some ([0x00, 0x00, 0x00, 0x20, 0x01, 0x01, 0x01, 0x21], [0x07, 0xE7]) := by decide +kernel

/-- DECODE.RGB565 of these groups, at (1, 0), (0, 1) and (7, 7). -/
theorem test_decode_rgb565 :
    let t := after 0x0206 (objOps 8 8) (mem (ofEnds 2 [0x00, 0x00, 0x00, 0x20, 0x01, 0x01, 0x01, 0x21] [0x07, 0xE7]) (Image.fresh 8 8) [])
    [pixel0 t 1 0, pixel0 t 0 1, pixel0 t 7 7] = [⟨32, 0, 0, 255⟩, ⟨0, 32, 8, 255⟩, ⟨224, 224, 56, 255⟩].map some := by decide +kernel

/-- ENCODE.RGBA4 of the gradient. -/
theorem test_encode_rgba4 :
    (buffer0 (after 0x0107 (objOps 0 0) (mem (List.replicate 128 0xAA) g8 []))).map (ends 2) =
      some ([0x0F, 0x00, 0x0F, 0x20, 0x0F, 0x02, 0x0F, 0x22], [0x3C, 0xEE]) := by decide +kernel

/-- DECODE.RGBA4 of these groups, at (1, 0), (0, 1) and (7, 7). -/
theorem test_decode_rgba4 :
    let t := after 0x0207 (objOps 8 8) (mem (ofEnds 2 [0x0F, 0x00, 0x0F, 0x20, 0x0F, 0x02, 0x0F, 0x22] [0x3C, 0xEE]) (Image.fresh 8 8) [])
    [pixel0 t 1 0, pixel0 t 0 1, pixel0 t 7 7] = [⟨32, 0, 0, 240⟩, ⟨0, 32, 0, 240⟩, ⟨224, 224, 48, 192⟩].map some := by decide +kernel

/-- ENCODE.RGBA5551 of the gradient. -/
theorem test_encode_rgba5551 :
    (buffer0 (after 0x0105 (objOps 0 0) (mem (List.replicate 128 0xAA) g8 []))).map (ends 2) =
      some ([0x01, 0x00, 0x00, 0x20, 0x02, 0x01, 0x02, 0x21], [0x0E, 0xE7]) := by decide +kernel

/-- DECODE.RGBA5551 of these groups, at (1, 0), (0, 1) and (7, 7). -/
theorem test_decode_rgba5551 :
    let t := after 0x0205 (objOps 8 8) (mem (ofEnds 2 [0x01, 0x00, 0x00, 0x20, 0x02, 0x01, 0x02, 0x21] [0x0E, 0xE7]) (Image.fresh 8 8) [])
    [pixel0 t 1 0, pixel0 t 0 1, pixel0 t 7 7] = [⟨32, 0, 0, 0⟩, ⟨0, 32, 8, 0⟩, ⟨224, 224, 56, 0⟩].map some := by decide +kernel

/-- B3: a 4×4 image into an empty buffer. -/
theorem test_encode_rgba8_small :
    outcome 0x0100 (objOps 0 0) (mem [] (image 4 4 fun _ _ => ⟨1, 2, 3, 4⟩) []) = some (none, 0, .buffer (some 0)) := by decide +kernel

/-- A width over 32767 (41_codec_engines.md R112). -/
theorem test_encode_rgb8_dimension :
    outcome 0x0101 (objOps 0 0) (mem [] (Image.fresh 32768 8) []) = some (some .dimensionOutOfRange, 0, .empty) := by decide +kernel

/-- B10: pixel (9, 3) of a 16×8 image is unwritten. -/
theorem test_encode_a8_unwritten :
    outcome 0x0102 (objOps 0 0) (mem (List.replicate 128 0)
      { w := 16, h := 8, px := ((List.range 128).filter (· ≠ 57)).map fun k => (k, ⟨1, 2, 3, 4⟩) } []) =
        some (some .unwrittenPixel, 0, .empty) := by decide +kernel

/-- B1: a 12×9 image of white; bytes from 128 on stay. -/
theorem test_encode_rgb565_truncates :
    buffer0 (after 0x0106 (objOps 0 0) (mem (List.replicate 216 0xAA) (image 12 9 fun _ _ => ⟨255, 255, 255, 255⟩) [])) =
      some (List.replicate 128 0xFF ++ List.replicate 88 0xAA) := by decide +kernel

/-- The example of 41_codec_engines.md R120. -/
theorem test_encode_rgba4_uniform :
    buffer0 (after 0x0107 (objOps 0 0) (mem (List.replicate 128 0) (image 8 8 fun _ _ => ⟨0xAB, 0xCD, 0xEF, 0x12⟩) [])) =
      some ((List.replicate 64 [0xE1, 0xAC]).flatten) := by decide +kernel

/-- The example of 41_codec_engines.md R121 with `a = 0xFE`. -/
theorem test_encode_rgba5551_alpha :
    buffer0 (after 0x0105 (objOps 0 0) (mem (List.replicate 128 0) (image 8 8 fun _ _ => ⟨0xFF, 0x08, 0x10, 0xFE⟩) [])) =
      some ((List.replicate 64 [0x44, 0xF8]).flatten) := by decide +kernel

/-- B11 and B13: ETC1 and `#03`, whatever the operands. -/
theorem test_encode_rejected :
    outcome 0x0104 (objOps 0 0) (mem [] (Image.fresh 12 9) []) = some (none, 3, .empty) ∧
      outcome 0x0103 Operands.reset noMem = some (none, 2, .empty) := by decide

/-- B12, and `#08`. -/
theorem test_decode_rejected :
    outcome 0x0204 (dimOps (-1) 8) noMem = some (none, 3, .empty) ∧ outcome 0x0208 (dimOps (-1) 8) noMem = some (none, 2, .empty) := by decide

/-- B7 and B8 (the check is every DECODE's). -/
theorem test_decode_rgba8_dimension :
    outcome 0x0200 (objOps (-8) 8) (mem [] (Image.fresh 8 8) []) = some (some .dimensionOutOfRange, 0, .empty) ∧
      outcome 0x0200 (objOps 32768 8) (mem [] (Image.fresh 8 8) []) = some (some .dimensionOutOfRange, 0, .empty) := by decide

/-- B14: 191 bytes where 192 are needed. -/
theorem test_decode_rgb8_short :
    outcome 0x0201 (objOps 8 8) (mem (List.replicate 191 0) (Image.fresh 8 8) []) = some (some .bufferUnderrun, 0, .empty) := by decide +kernel

/-- B9: an 8×8 image for 16×8. -/
theorem test_decode_a8_bounds :
    outcome 0x0202 (objOps 16 8) (mem (List.replicate 128 0) (Image.fresh 8 8) []) = some (some .imageBounds, 0, .empty) := by decide +kernel

/-- B2: only the visited corner of a 12×9 image changes. -/
theorem test_decode_rgb565_truncates :
    let t := after 0x0206 (objOps 12 9) (mem (List.replicate 216 0xFF) (image 12 9 fun _ _ => ⟨1, 2, 3, 4⟩) [])
    [pixel0 t 7 7, pixel0 t 8 7, pixel0 t 7 8, pixel0 t 11 8] =
      [⟨248, 252, 248, 255⟩, ⟨1, 2, 3, 4⟩, ⟨1, 2, 3, 4⟩, ⟨1, 2, 3, 4⟩].map some := by decide +kernel

/-- The example of 41_codec_engines.md R127. -/
theorem test_decode_rgba4_uniform :
    pixel0 (after 0x0207 (objOps 8 8) (mem ((List.replicate 64 [0xE1, 0xAC]).flatten) (Image.fresh 8 8) [])) 3 5 =
      some ⟨0xA0, 0xC0, 0xE0, 0x10⟩ := by decide +kernel

/-- B7 and B8 as they stand, with no operand but the dimensions: the range is checked before any other access (41_codec_engines.md R112). -/
theorem test_decode_dimension_without_operands :
    outcome 0x0202 (dimOps (-8) 8) noMem = some (some .dimensionOutOfRange, 0, .empty) ∧
      outcome 0x0202 (dimOps 32768 8) noMem = some (some .dimensionOutOfRange, 0, .empty) := by decide

/-- The order of 60_exceptions.md R241 where the other handle names nothing: a short `BUF` without `IMG`, an oversize `IMG` without `BUF`. -/
theorem test_faults_before_the_missing_operand :
    outcome 0x0206 { dimOps 8 8 with buf := some 0 } (mem (List.replicate 127 0) (Image.fresh 8 8) []) = some (some .bufferUnderrun, 0, .empty) ∧
      outcome 0x0106 { dimOps 0 0 with img := some 0 } (mem [] (Image.fresh 32768 8) []) = some (some .dimensionOutOfRange, 0, .empty) := by
  decide +kernel

/-- HDR_READ without a file: the first access fails before any byte is read (43_container.md R197). -/
theorem test_hdr_read_without_file :
    ((nextOf (step (withAnswers (pending (.word 0x0400) Operands.reset noMem) [true]))).map fun t => t.port.status) = some 4 := by decide

/-! ### The container header (95_test_vectors.md L2.6) -/

/-- V1 and V2. -/
theorem test_hdr_write :
    outcome 0x0306 (dimOps 64 32) noMem = some (none, 0, .bytes (header [0x40, 0x00, 0x20, 0x00, 0x06])) ∧
      outcome 0x0300 (dimOps 32767 0) noMem = some (none, 0, .bytes (header [0xFF, 0x7F, 0x00, 0x00, 0x00])) := by decide +kernel

/-- V4, V5 and V6. -/
theorem test_hdr_write_rejected :
    outcome 0x0306 (dimOps 32768 8) noMem = some (some .dimensionOutOfRange, 0, .empty) ∧
      outcome 0x0304 (dimOps 32768 8) noMem = some (none, 3, .empty) ∧ outcome 0x0309 (dimOps 8 8) noMem = some (none, 2, .empty) := by decide

/-- V7, V11, V12 and V14. -/
theorem test_hdr_read :
    outcome 0x0400 (objOps 0 0) (mem [] (Image.fresh 0 0) (header [0x40, 0x00, 0x20, 0x00, 0x06])) = some (none, 0, .header 64 32 6) ∧
      outcome 0x0400 (objOps 0 0) (mem [] (Image.fresh 0 0) ((header [0x40, 0x00, 0x20, 0x00, 0x06]).take 0x15)) =
        some (none, 0, .header 64 32 6) ∧
      outcome 0x0400 (objOps 0 0) (mem [] (Image.fresh 0 0) (header [0xFF, 0xFF, 0x20, 0x00, 0x06])) = some (none, 0, .header (-1) 32 6) ∧
      outcome 0x0400 (objOps 0 0) (mem [] (Image.fresh 0 0) (header [0x40, 0x00, 0x20, 0x00, 0x03])) = some (none, 0, .header 64 32 3) := by
  decide +kernel

/-- V8, V9, V10 and V15. -/
theorem test_hdr_read_failures :
    outcome 0x0400 (objOps 0 0) (mem [] (Image.fresh 0 0) ([0x54] ++ (header [0x40, 0x00, 0x20, 0x00, 0x06]).drop 1)) = some (none, 1, .empty) ∧
      outcome 0x0400 (objOps 0 0) (mem [] (Image.fresh 0 0) [0x74, 0x65, 0x78, 0x74, 0x75]) = some (none, 1, .empty) ∧
      outcome 0x0400 (objOps 0 0) (mem [] (Image.fresh 0 0) [0x74, 0x65, 0x78, 0x74, 0x75, 0x72, 0x65, 0, 0, 0]) = some (none, 4, .empty) ∧
      ((nextOf (step (withAnswers (pending (.word 0x0400) (objOps 0 0)
        (mem [] (Image.fresh 0 0) (header [0x40, 0x00, 0x20, 0x00, 0x06]))) [true]))).map fun t => (t.faulted, t.port.status, t.port.result)) = some (none, 4, .empty) := by decide +kernel

/-! ### Whole containers (95_test_vectors.md L2.6 and Program 1) -/

/-- The mark, `STATUS` and `RESULT` of CONTAINER_READ of a file. -/
def readOutcome (file : List Byte) : Option (Option FaultReason × Byte × Result) :=
  (nextOf (step (pending .containerRead (objOps 0 0) ⟨[], [], [(0, file)]⟩))).map fun t => (t.faulted, t.port.status, t.port.result)

/-- R1 to R3 and R5. -/
theorem test_container_read_statuses :
    readOutcome ([0x54, 0x65, 0x78, 0x74, 0x75, 0x72, 0x65] ++ List.replicate 0x80 0) = some (none, 1, .empty) ∧
      readOutcome ((header [8, 0, 8, 0, 6]).take 0x15) = some (none, 4, .empty) ∧
      readOutcome ((header [8, 0, 8, 0, 4]).take 0x15) = some (none, 3, .empty) ∧
      readOutcome (header [8, 0, 8, 0, 0x0B] ++ List.replicate 128 0) = some (none, 2, .empty) := by decide +kernel

/-- R6 and R7. -/
theorem test_container_read_faults :
    readOutcome (header [0xFF, 0xFF, 8, 0, 6] ++ List.replicate 128 0) = some (some .dimensionOutOfRange, 0, .empty) ∧
      readOutcome (header [8, 0, 8, 0, 6] ++ List.replicate 100 0) = some (some .bufferUnderrun, 0, .empty) := by decide +kernel

/-- R9: a 12×9 file; the border stays unwritten. The image's handle is the first of lane 0 (log 14). -/
theorem test_container_read_border :
    let t := nextOf (step (pending .containerRead (objOps 0 0) ⟨[], [], [(0, header [0x0C, 0, 9, 0, 6] ++ List.replicate 216 0xFF)]⟩))
    [pixelOf 1 t 7 7, pixelOf 1 t 8 7, pixelOf 1 t 7 8] = [some ⟨248, 252, 248, 255⟩, none, none] := by decide +kernel

/-- Program 1: CONTAINER_WRITE.RGB565 of an 8×8 image. -/
theorem test_container_write :
    ((nextOf (step (pending (.containerWrite 6) (objOps 0 0) (mem [] (image 8 8 fun _ _ => ⟨0xFF, 0x80, 0x10, 0x7F⟩) [])))).bind fun t =>
      Store.find? t.mem.files 1) = some (header [8, 0, 8, 0, 6] ++ (List.replicate 64 [0x02, 0xFC]).flatten) := by decide +kernel

/-! ### Witnesses: for each statement with hypotheses, a concrete case that meets them, clause by clause -/

/-- An instance of this lane with this command and these handles for `IMG`, `BUF` and `FILE`, no file access failing. -/
def portFor (lane : Nat) (c : Command) (i b f : Option Handle) : Port :=
  { Port.reset lane with cmd := some c, ops := { Operands.reset with img := i, buf := b, file := f }, ioAnswers := [false, false, false] }

/-- An instance of lane 0 with this command word. -/
def portOf (w : Half) (i b f : Option Handle) : Port := portFor 0 (.word w) i b f

/-- A fully written 8×8 image. -/
def full : Image := image 8 8 fun x y => ⟨BitVec.ofNat 8 x, BitVec.ofNat 8 y, 0x10, 0x7F⟩

/-- Two instances: this one runs `w` on image `i` and buffer `b`, the other one `v` on image `j` and buffer `c`. -/
def two (w : Half) (i b : Handle) (v : Half) (j c : Handle) : State :=
  { State.reset with
    mem := ⟨[(0, List.replicate 64 0), (1, List.replicate 64 7)], [(0, full), (1, Image.fresh 8 8)], []⟩
    port := portOf w (some i) (some b) none
    others := [{ portFor 1 (.word v) (some j) (some c) none with
      ops := { Operands.reset with argW := 8, argH := 8, img := some j, buf := some c } }] }

/-- A word for each clause, at the edges of its range. -/
theorem test_witness_DecodeFollowsPseudocode :
    (0x1106 : Half).toNat / 4096 ≠ 0 ∧ (0x01FF : Half).toNat / 4096 = 0 ∧ (0x01FF : Half).toNat / 256 % 16 = 1 ∧
      (0x0200 : Half).toNat / 256 % 16 = 2 ∧ (0x03FF : Half).toNat / 256 % 16 = 3 ∧ (0x0400 : Half).toNat / 256 % 16 = 4 ∧
      (0x0400 : Half).toNat % 256 = 0 ∧ (0x0401 : Half).toNat % 256 ≠ 0 ∧ (0x0500 : Half).toNat / 256 % 16 = 5 ∧
      (0x063F : Half).toNat / 256 % 16 = 6 ∧ (0x063F : Half).toNat % 256 < 64 ∧ 64 ≤ (0x0640 : Half).toNat % 256 ∧
      (0x0703 : Half).toNat / 256 % 16 = 7 ∧ (0x0807 : Half).toNat / 256 % 16 = 8 ∧ (0x00FF : Half).toNat / 256 % 16 = 0 ∧
      9 ≤ (0x0900 : Half).toNat / 256 % 16 := by decide

theorem test_witness_DecodeOfEncode :
    (Instr.encodeInvalid 0xFF).wellFormed = true ∧ (Instr.hdrWrite 3).wellFormed = true ∧ (Instr.tileLookup 63).wellFormed = true := by decide

theorem test_witness_EncodeOfDecode : decode 0x08FF = .ok (.pxunpackInvalid 0xFF) ∧ decode 0x0300 = .ok (.hdrWrite 0) := by decide

theorem test_witness_IllegalWordsEndAtOnce :
    (∃ e, decode 0x1106 = .error e) ∧ (∃ e, decode 0x0900 = .error e) ∧ (∃ e, decode 0x0640 = .error e) ∧
      (decode 0x0401 = .error .hdrReadArgument ∧ (pending (.word 0x0401) Operands.reset noMem).Live ∧
        (pending (.word 0x0401) Operands.reset noMem).host = [] ∧
        (pending (.word 0x0401) Operands.reset noMem).port.cmd = some (.word 0x0401)) :=
  ⟨⟨.reservedBits, by decide⟩, ⟨.unassignedClass, by decide⟩, ⟨.tileIndexRange, by decide⟩, by decide⟩

theorem test_witness_StepRunsDecodedInstruction :
    let s := pending (.word 0x0506) Operands.reset noMem
    s.Live ∧ s.port.cmd = some (.word 0x0506) ∧ decode 0x0506 = .ok (.fmtResolve 6) ∧ s.overlapped = false ∧ s.host = [] ∧
      State.host { s with host := [.complete, .turn] } = .complete :: [.turn] := by decide

theorem test_witness_MarkedStateHasNoStep :
    (State.reset.takeFault .imageBounds).faulted = some .imageBounds ∧ State.reset.setRefused.faulted = none ∧
      State.reset.setRefused.refused = true := by decide

/-- ENCODE into buffer 0 beside DECODE of buffer 0 overlap; two ENCODEs of one image into two buffers do not. -/
theorem test_witness_OverlappingCommandsAreRefused :
    (let s := two 0x0102 0 0 0x0202 1 0
     s.Live ∧ s.host = [] ∧ s.port.cmd = some (.word 0x0102) ∧
      ∃ q ∈ s.others, ∃ a ∈ s.port.footprint s.mem, ∃ b ∈ q.footprint s.mem, a.kind = b.kind ∧ a.handle = b.handle ∧ (a.writes = true ∨ b.writes = true)) ∧
    (let s := two 0x0102 0 0 0x0102 0 1
     s.Live ∧ s.host = [] ∧ s.port.cmd = some (.word 0x0102) ∧
      ∀ q ∈ s.others, ∀ a ∈ s.port.footprint s.mem, ∀ b ∈ q.footprint s.mem,
        a.kind = b.kind → a.handle = b.handle → a.writes = false ∧ b.writes = false) := by decide

/-- An instance with each kind of command; words of every class, among them words that use no object; ids with and without a codec. -/
theorem test_witness_FootprintOfCommands :
    (∀ c : Command, (portFor 0 c (some 3) (some 4) none).cmd = some c) ∧ (Port.reset 0).cmd = none ∧
      (decode 0x0106 = .ok (encodeInstr .rgb565) ∧ decode 0x0200 = .ok (decodeInstr .rgba8) ∧ decode 0x0400 = .ok .hdrRead) ∧
      (∀ w ∈ ([0x0103, 0x0104, 0x02FF, 0x0204, 0x0306, 0x0500, 0x063F, 0x0706, 0x0703, 0x0802, 0x0804] : List Half), ∃ i, decode w = .ok i ∧
        (∀ x, i ≠ encodeInstr x ∧ i ≠ decodeInstr x) ∧ i ≠ .hdrRead) ∧
      decode 0x0401 = .error .hdrReadArgument ∧ resolve 7 = .ok .rgba4 ∧ resolve 8 = .error .invalidFormatId := by
  refine ⟨fun _ => rfl, rfl, by decide, ?_, by decide, rfl, rfl⟩
  intro w hw
  have key : ∃ i, decode w = .ok i ∧ (∀ x ∈ [PixelFormat.rgba8, .rgb8, .a8, .rgb565, .rgba4, .rgba5551], i ≠ encodeInstr x ∧ i ≠ decodeInstr x) ∧
      i ≠ .hdrRead := by
    fin_cases hw <;> exact ⟨_, rfl, by decide⟩
  obtain ⟨i, hi, hx, hh⟩ := key
  exact ⟨i, hi, fun x => hx x (by cases x <;> decide), hh⟩

/-- The uses of an ENCODE whose `BUF` holds no handle, and of a PXPACK whose handles all name something. -/
theorem test_footprint_of_handles :
    (portOf 0x0106 (some 3) none (some 5)).operands = [⟨.image, 3, false⟩] ∧ (portOf 0x0706 (some 3) (some 4) (some 5)).operands = [] := by decide

/-- A write to the buffer, the image and the file of a running command, and an issue to an instance that runs one. -/
theorem test_witness_HostWriteToOperandInUse :
    (let s := { two 0x0102 0 0 0x0202 1 1 with host := [.putBuffer 1 [5]] }
     s.Live ∧ s.host = .putBuffer 1 [5] :: [] ∧ ∃ p ∈ s.port :: s.others, ∃ x ∈ p.operands, x.kind = .buffer ∧ x.handle = 1) ∧
    (let s := { two 0x0102 0 0 0x0202 1 1 with host := [.putImage 0 8 8 []] }
     s.Live ∧ s.host = .putImage 0 8 8 [] :: [] ∧ ∃ p ∈ s.port :: s.others, ∃ x ∈ p.operands, x.kind = .image ∧ x.handle = 0) ∧
    (let s := { State.reset with port := portOf 0x0400 none none (some 2), host := [.putFile 2 []] }
     s.Live ∧ s.host = .putFile 2 [] :: [] ∧ ∃ p ∈ s.port :: s.others, ∃ x ∈ p.operands, x.kind = .file ∧ x.handle = 2) ∧
    (let s := { State.reset with port := portOf 0x0400 none none (some 2), host := [.issue .containerRead (objOps 8 8)] }
     s.Live ∧ s.host = .issue .containerRead (objOps 8 8) :: [] ∧ s.port.cmd ≠ none) := by decide

/-- A write to a buffer, to a file and to an image that no running command uses; the file's handle is the one that a CONTAINER_WRITE would take. -/
theorem test_witness_HostWriteToFreeObject :
    (let s := { two 0x0102 0 0 0x0202 1 0 with host := [.putBuffer 1 [5]] }
     s.Live ∧ s.host = .putBuffer 1 [5] :: [] ∧ ∀ p ∈ s.port :: s.others, ∀ x ∈ p.operands, x.kind = .buffer → x.handle ≠ 1) ∧
    (let s := { State.reset with port := portFor 0 (.containerWrite 6) none none none, host := [.putFile 1 [7]] }
     s.Live ∧ s.host = .putFile 1 [7] :: [] ∧ ∀ p ∈ s.port :: s.others, ∀ x ∈ p.operands, x.kind = .file → x.handle ≠ 1) ∧
    (let s := { two 0x0102 0 0 0x0202 1 1 with host := [.putImage 2 4 4 [(3, 3, ⟨1, 2, 3, 4⟩), (4, 0, ⟨5, 6, 7, 8⟩), (3, 3, ⟨9, 9, 9, 9⟩)]] }
     s.Live ∧ s.host = .putImage 2 4 4 [(3, 3, ⟨1, 2, 3, 4⟩), (4, 0, ⟨5, 6, 7, 8⟩), (3, 3, ⟨9, 9, 9, 9⟩)] :: [] ∧
      ∀ p ∈ s.port :: s.others, ∀ x ∈ p.operands, x.kind = .image → x.handle ≠ 2) := by decide

/-- The pixels of such a write: the last one listed for a place, none outside, the rest unwritten (20_memory.md R41). -/
theorem test_put_image :
    let img := Image.ofPixels 4 4 [(3, 3, ⟨1, 2, 3, 4⟩), (4, 0, ⟨5, 6, 7, 8⟩), (3, 3, ⟨9, 9, 9, 9⟩)]
    img.read 3 3 = .ok ⟨9, 9, 9, 9⟩ ∧ img.read 0 1 = .error .unwrittenPixel ∧ img.read 4 0 = .error .imageBounds := ⟨rfl, rfl, rfl⟩

theorem test_witness_ResetAbortsRunningCommand :
    let s := { two 0x0102 0 0 0x0202 1 1 with host := [.reset] }
    s.Live ∧ s.host = .reset :: [] ∧ s.port.cmd.isSome = true := by decide

theorem test_witness_IssuedCommandIsPending :
    let s := { State.reset with host := [.issue .containerRead (objOps 0 0)] }
    s.Live ∧ s.host = .issue .containerRead (objOps 0 0) :: [] ∧ s.port.cmd = none ∧
      (nextOf (step s)).map State.overlapped = some false := by decide

theorem test_witness_IdleInstanceWaits :
    (State.reset.Live ∧ State.reset.host = [] ∧ State.reset.port.cmd = none ∧ State.reset.others = []) ∧
    (let s := { State.reset with others := [portOf 0x0104 none none none] }
     s.Live ∧ s.host = [] ∧ s.port.cmd = none ∧ s.others = portOf 0x0104 none none none :: []) ∧
    (let s := { State.reset with host := [.start] }
     s.Live ∧ s.host = .start :: []) := by decide

/-- One command for each of the three ways. -/
theorem test_witness_CommandsEndInThreeWays :
    (nextOf (runCommand (.word 0x0506) State.reset)).isSome = true ∧ (nextOf (runCommand (.word 0x0503) State.reset)).isSome = true ∧
      (nextOf (runCommand (.word 0x0806) State.reset)).isSome = true := by decide

/-- A command that ends with each status the block raises. -/
theorem test_witness_StatusesAreRaisedByTheListedCommands :
    let st := fun (c : Command) (ops : Operands) (m : Memory) =>
      (nextOf (runCommand c (pending c ops m))).map fun t => (t.faulted, t.port.status)
    st (.word 0x0400) (objOps 0 0) (mem [] full [0x54]) = some (none, 1) ∧ st (.word 0x0508) Operands.reset noMem = some (none, 2) ∧
      st (.containerWrite 255) Operands.reset noMem = some (none, 2) ∧ st (.word 0x0304) Operands.reset noMem = some (none, 3) ∧
      st (.containerWrite 4) Operands.reset noMem = some (none, 3) ∧
      st (.word 0x0400) (objOps 0 0) (mem [] full magic) = some (none, 4) ∧ st (.word 0x0900) Operands.reset noMem = some (none, 6) := by
  decide +kernel

theorem test_witness_UnlistedFormatIdsEndWithTheirStatus :
    State.reset.Live ∧ (0x0103 : Half).toNat / 256 ∈ [1, 2, 3, 5, 7, 8] ∧ (0x0103 : Half).toNat % 256 = 3 ∧
      (0x08FF : Half).toNat / 256 ∈ [1, 2, 3, 5, 7, 8] ∧ 8 ≤ (0x08FF : Half).toNat % 256 ∧ 8 ≤ (0x0208 : Half).toNat % 256 ∧
      (0x0304 : Half).toNat / 256 ∈ [1, 2, 3, 5, 7, 8] ∧ (0x0304 : Half).toNat % 256 = 4 := by decide

theorem test_witness_InvalidFormatIdsEndWithStatus2 :
    State.reset.Live ∧ namedFormatId 3 = false ∧ namedFormatId 8 = false ∧ namedFormatId 0xFF = false := by decide

/-- For Etc1AlwaysUnsupported, FmtResolveFollowsDispatchTable and TileLookupGivesEntryAndPosition. -/
theorem test_witness_live_commands : State.reset.Live := by decide

/-- A place of the visited region of a 3×2 grid, and the last pixel step of it. -/
theorem test_witness_VisitedRegionExactlyOnce :
    TileInjective defaultTileOrder ∧ (23 : Nat) < 3 * 8 ∧ (15 : Nat) < 2 * 8 ∧ (⟨1, 2, 63, 5 * (64 * 2)⟩ : Cursor) ∈ traversal 2 3 2 :=
  ⟨test_default_table_ok.1, by decide, by decide, mem_traversal.2 ⟨by decide, by decide, rfl⟩⟩

/-- For PxpackByteFormats, PxpackRgb565AndRgba4 and PxpackRgba5551. -/
theorem test_witness_Pxpack :
    State.Live { State.reset with port := { Port.reset 0 with ops := pixelOps 255 0 7 128 } } ∧ (pixelOps 255 0 7 128).argPixel = ⟨255, 0, 7, 128⟩ := by
  decide

/-- For PxunpackByteFormats and PxunpackWordFormats, each length on both sides of its bound. -/
theorem test_witness_Pxunpack :
    State.reset.Live ∧ (bytesOps [1, 2, 3, 4, 5]).argBytes = 1 :: 2 :: 3 :: 4 :: [5] ∧ (bytesOps [1, 2, 3]).argBytes = 1 :: 2 :: 3 :: [] ∧
      (bytesOps [1, 2]).argBytes = 1 :: 2 :: [] ∧ (bytesOps [1]).argBytes = 1 :: [] ∧ (bytesOps [1, 2, 3]).argBytes.length < 4 ∧
      (bytesOps [1, 2]).argBytes.length < 3 ∧ (bytesOps [1]).argBytes.length < 2 ∧ (bytesOps []).argBytes.length < 1 := by decide

theorem test_witness_PackOfUnpackIsIdentity :
    ([0x45, 0xF8] : List Byte).length = bpp .rgba5551 ∧ unpack 255 .rgba5551 [0x45, 0xF8] = .ok ⟨248, 8, 16, 255⟩ := ⟨by decide, rfl⟩

theorem test_witness_ChannelsAreIndependentLanes :
    Channel.red ≠ Channel.alpha ∧ channelOf .green ⟨1, 9, 2, 3⟩ = channelOf .green ⟨4, 9, 5, 6⟩ ∧
      unpack 7 .rgb565 [0x1F, 0x00] = .ok ⟨0, 0, 248, 255⟩ ∧ unpack 7 .rgb565 [0x3F, 0xF8] = .ok ⟨248, 4, 248, 255⟩ ∧
      groupNumber [0x1F, 0x00] &&& fieldMask .rgb565 .blue = groupNumber [0x3F, 0xF8] &&& fieldMask .rgb565 .blue :=
  ⟨by decide, by decide, rfl, rfl, by decide⟩

/-- ENCODE's operands, the buffer exactly `need` long; and an image below 8×8 with an empty buffer. -/
theorem test_witness_EncodeWritesVisitedGroups :
    (let s := pending (.word 0x0106) (objOps 0 0) (mem (List.replicate 128 0) full [])
     s.Live ∧ EncodeReady s .rgb565 0 full 0 (List.replicate 128 0)) ∧
    (let s := pending (.word 0x0100) (objOps 0 0) (mem [] (Image.fresh 32767 7) [])
     s.Live ∧ EncodeReady s .rgba8 0 (Image.fresh 32767 7) 0 []) := by
  refine ⟨by decide +kernel, ⟨rfl, rfl⟩, rfl, rfl, by decide, by decide, by decide, ?_⟩
  intro x _ y hy
  exact absurd hy (Nat.not_lt_zero y)

/-- DECODE's operands, the buffer exactly `need` long and the image exactly the visited region; and an empty grid. -/
theorem test_witness_DecodeWritesVisitedPixels :
    (let s := pending (.word 0x0206) (objOps 12 9) (mem (List.replicate 128 0) (Image.fresh 8 8) [])
     s.Live ∧ TileInjective s.tileOrder ∧ DecodeReady s .rgb565 0 (List.replicate 128 0) 0 (Image.fresh 8 8) 12 9) ∧
    (let s := pending (.word 0x0200) (objOps 0 32767) (mem [] (Image.fresh 0 32760) [])
     s.Live ∧ TileInjective s.tileOrder ∧ DecodeReady s .rgba8 0 [] 0 (Image.fresh 0 32760) 0 32767) :=
  ⟨⟨by decide, test_default_table_ok.1, by decide +kernel⟩, by decide, test_default_table_ok.1, by decide +kernel⟩

theorem test_witness_EncodeFaultsInOrder :
    (let s := pending (.word 0x0102) (objOps 0 0) (mem [] (Image.fresh 32768 0) [])
     s.Live ∧ s.imgValue = Image.fresh 32768 0 ∧ s.bufValue = [] ∧ 32767 < (Image.fresh 32768 0).w) ∧
    (let s := pending (.word 0x0102) (objOps 0 0) (mem (List.replicate 63 0) (Image.fresh 8 8) [])
     s.Live ∧ s.imgValue = Image.fresh 8 8 ∧ s.bufValue = List.replicate 63 0 ∧
      (List.replicate 63 (0 : Byte)).length < need .a8 8 8) ∧
    (let s := pending (.word 0x0102) (objOps 0 0) (mem (List.replicate 64 0) (Image.fresh 8 8) [])
     s.Live ∧ s.imgValue = Image.fresh 8 8 ∧ s.bufValue = List.replicate 64 0 ∧ TileInjective s.tileOrder ∧
      need .a8 8 8 ≤ (List.replicate 64 (0 : Byte)).length ∧
      ∃ x < 8 / 8 * 8, ∃ y < 8 / 8 * 8, (Image.fresh 8 8).read x y = .error .unwrittenPixel) :=
  ⟨by decide, by decide +kernel, by decide, rfl, rfl, test_default_table_ok.1, by decide, 7, by decide, 7, by decide, rfl⟩

theorem test_witness_DecodeFaultsInOrder :
    (let s := pending (.word 0x0202) (objOps (-1) 8) (mem [] (Image.fresh 8 8) [])
     s.Live ∧ s.imgValue = Image.fresh 8 8 ∧ s.bufValue = [] ∧ s.port.ops.argW < 0) ∧
    (let s := pending (.word 0x0202) (objOps 8 32768) (mem [] (Image.fresh 8 8) [])
     s.Live ∧ s.imgValue = Image.fresh 8 8 ∧ s.bufValue = [] ∧ 32767 < s.port.ops.argH) ∧
    (let s := pending (.word 0x0202) (objOps 8 8) (mem (List.replicate 63 0) (Image.fresh 8 8) [])
     s.Live ∧ s.imgValue = Image.fresh 8 8 ∧ s.bufValue = List.replicate 63 0 ∧ s.port.ops.argW = 8 ∧
      s.port.ops.argH = 8 ∧ (List.replicate 63 (0 : Byte)).length < need .a8 8 8) ∧
    (let s := pending (.word 0x0202) (objOps 8 8) (mem (List.replicate 64 0) (Image.fresh 7 8) [])
     s.Live ∧ s.imgValue = Image.fresh 7 8 ∧ s.bufValue = List.replicate 64 0 ∧ TileInjective s.tileOrder ∧
      s.port.ops.argW = 8 ∧ s.port.ops.argH = 8 ∧ need .a8 8 8 ≤ (List.replicate 64 (0 : Byte)).length ∧
      ∃ x < 8 / 8 * 8, ∃ y < 8 / 8 * 8, (Image.fresh 7 8).w ≤ x ∨ (Image.fresh 7 8).h ≤ y) :=
  ⟨by decide, by decide, by decide +kernel, by decide, rfl, rfl, test_default_table_ok.1, by decide +kernel⟩

/-- No handle names anything. -/
theorem test_witness_EveryCommandRuns : State.reset.Live ∧ State.reset.imgOperand = none ∧ State.reset.bufOperand = none := by decide

/-- The last pixel step of a 32767×32767 command; for GroupOffsets too. -/
theorem test_witness_TraversalStaysBelowBounds :
    (⟨4094, 4094, 63, (4094 * 4095 + 4094) * (64 * bpp .rgba8)⟩ : Cursor) ∈ traversal (bpp .rgba8) (32767 / 8) (32767 / 8) :=
  mem_traversal.2 ⟨by decide, by decide, rfl⟩

/-- The states of a round trip through a format: before ENCODE, after it, and before DECODE of its buffer. -/
def tripStart (f : PixelFormat) : State := pending (.word 0x0102) (objOps 0 0) (mem (List.replicate (64 * bpp f) 0) full [])

def tripMiddle (f : PixelFormat) : State := (nextOf (exec (encodeInstr f) (tripStart f))).getD (tripStart f)

def tripEnd (f : PixelFormat) : State := { tripMiddle f with port := { (tripMiddle f).port with ops := objOps 8 8 } }

/-- What RoundTrip asks of them. -/
def Trips (f : PixelFormat) : Prop :=
  TileInjective (tripStart f).tileOrder ∧ nextOf (exec (encodeInstr f) (tripStart f)) = some (tripMiddle f) ∧ (tripMiddle f).faulted = none ∧
    (tripStart f).imgOperand = some (0, full) ∧ (tripStart f).bufOperand = some (0, List.replicate (64 * bpp f) 0) ∧
    (tripEnd f).tileOrder = (tripStart f).tileOrder ∧ Store.find? (tripEnd f).mem.bufs 0 = Store.find? (tripMiddle f).mem.bufs 0 ∧
    (tripEnd f).port.ops.buf = some 0 ∧ (tripEnd f).port.ops.img = some 0 ∧ (tripEnd f).port.ops.argW = full.w ∧
    (tripEnd f).port.ops.argH = full.h ∧
    ((nextOf (exec (decodeInstr f) (tripEnd f))).map fun v => (v.faulted, (Store.find? v.mem.imgs 0).isSome)) = some (none, true)

theorem test_witness_ByteFormatRoundTrip : Trips .rgba8 ∧ Trips .rgb8 ∧ Trips .a8 :=
  ⟨⟨test_default_table_ok.1, by decide +kernel⟩, ⟨test_default_table_ok.1, by decide +kernel⟩, test_default_table_ok.1, by decide +kernel⟩

theorem test_witness_QuantizedRoundTrip : Trips .rgb565 ∧ Trips .rgba5551 ∧ Trips .rgba4 :=
  ⟨⟨test_default_table_ok.1, by decide +kernel⟩, ⟨test_default_table_ok.1, by decide +kernel⟩, test_default_table_ok.1, by decide +kernel⟩

/-- ENCODE.A8 of a written image into a buffer that is long enough. -/
def trip0 : State := tripStart .a8

/-- DECODE.A8 of what it wrote. -/
def trip2 : State := tripEnd .a8

/-- A state without a mark, an id for each case, and dimensions on both sides of each bound. -/
theorem test_witness_HdrWriteFollowsPseudocode :
    (pending (.word 0x0307) (dimOps 32767 0) noMem).Live ∧ (4 : Byte).toNat = 4 ∧ (3 : Byte).toNat = 3 ∧ 8 ≤ (8 : Byte).toNat ∧
      8 ≤ (255 : Byte).toNat ∧ ¬((7 : Byte).toNat = 3 ∨ 8 ≤ (7 : Byte).toNat) ∧
      (pending (.word 0x0306) (dimOps (-1) 0) noMem).port.ops.argW < 0 ∧
      32767 < (pending (.word 0x0306) (dimOps 0 32768) noMem).port.ops.argH ∧
      ¬32767 < (pending (.word 0x0306) (dimOps 32767 0) noMem).port.ops.argW := by decide

/-- Two files that differ in bytes 7 and 0x7F only. -/
theorem test_witness_ReservedHeaderBytesAreIgnored :
    let f := header [8, 0, 8, 0, 2]
    let g := (f.set 7 9).set 0x7F 9
    let s := pending (.word 0x0400) (objOps 0 0) (mem [] full f)
    s.Live ∧ s.fileOperand = some (0, f) ∧ f.length = g.length ∧ f ≠ g ∧ ∀ o < 0x90, o < 7 ∨ (0x10 ≤ o ∧ o < 0x15) ∨ 0x80 ≤ o → f[o]? = g[o]? := by
  decide +kernel

theorem test_witness_HdrReadFollowsPseudocode :
    let s := pending (.word 0x0400) (objOps 0 0) (mem [] (Image.fresh 0 0) [0x74])
    s.Live ∧ s.fileValue = [0x74] := by decide

/-- Reading back the header of `HDR_WRITE.RGB565 64, 32` with one payload byte after it. -/
theorem test_witness_HeaderRoundTrip :
    let s := pending (.word 0x0306) (dimOps 64 32) noMem
    let u := pending (.word 0x0400) (objOps 0 0) (mem [] (Image.fresh 0 0) (header [0x40, 0, 0x20, 0, 6] ++ [9]))
    s.port.ops.argW = (64 : Nat) ∧ s.port.ops.argH = (32 : Nat) ∧
      ((nextOf (exec (.hdrWrite 6) s)).map fun t => (t.faulted, t.port.result)) = some (none, .bytes (header [0x40, 0, 0x20, 0, 6])) ∧
      u.Live ∧ u.fileOperand = some (0, header [0x40, 0, 0x20, 0, 6] ++ [9]) ∧ NoIoFailure u 2 := by decide +kernel

/-- An id of each kind, an image that is too wide, one with an unwritten visited pixel, and a covered one with the file access going well and failing. -/
theorem test_witness_ContainerWriteMakesFile :
    (State.reset.Live ∧ (3 : Byte).toNat = 3 ∧ 8 ≤ (8 : Byte).toNat ∧ 8 ≤ (255 : Byte).toNat ∧ (4 : Byte).toNat = 4) ∧
    (let s := pending (.containerWrite 6) (objOps 0 0) (mem [] (Image.fresh 8 32768) [])
     s.Live ∧ 32767 < s.imgValue.h) ∧
    (let s := pending (.containerWrite 6) (objOps 0 0) (mem [] (Image.fresh 8 8) [])
     s.Live ∧ s.imgValue.w ≤ 32767 ∧ s.imgValue.h ≤ 32767 ∧ TileInjective s.tileOrder ∧
      ∃ x < s.imgValue.w / 8 * 8, ∃ y < s.imgValue.h / 8 * 8, s.imgValue.read x y = .error .unwrittenPixel) ∧
    (let s := pending (.containerWrite 6) (objOps 0 0) (mem [] full [])
     s.Live ∧ s.imgValue = full ∧ full.w ≤ 32767 ∧ full.h ≤ 32767 ∧ full.Covered ∧ s.ioFails 0 = false ∧ (withAnswers s [true]).Live ∧
      (withAnswers s [true]).imgValue = full ∧ (withAnswers s [true]).ioFails 0 = true) :=
  ⟨by decide, by decide, ⟨by decide, by decide, by decide, test_default_table_ok.1, 7, by decide, 7, by decide, rfl⟩, by decide +kernel⟩

theorem test_witness_resolve : resolve 6 = .ok .rgb565 := rfl

/-- A 12×9 file with exactly `need` payload bytes. -/
theorem test_witness_ContainerReadMakesImage :
    let file := header [0x0C, 0, 9, 0, 6] ++ List.replicate 128 0xFF
    let s := pending .containerRead (objOps 0 0) (mem [] full file)
    TileInjective s.tileOrder ∧ s.Live ∧ s.fileValue = file ∧ NoIoFailure s 3 ∧ file.take 7 = magic ∧ 0x80 ≤ file.length ∧
      (headerFields file).w = (12 : Nat) ∧ (headerFields file).h = (9 : Nat) ∧ (headerFields file).fmt = 6 ∧
      need .rgb565 12 9 ≤ file.length - 0x80 :=
  ⟨test_default_table_ok.1, by decide +kernel⟩

theorem test_witness_ContainerReadPriority :
    let s := pending .containerRead (objOps 0 0) (mem [] full (header [8, 0, 8, 0, 6]))
    s.Live ∧ s.fileValue = header [8, 0, 8, 0, 6] := by decide +kernel

/-- A CONTAINER_READ that ends with OK, and a state that meets the hypotheses on its DECODE. -/
theorem test_witness_ContainerReadIsItsExpansion :
    let file := header [8, 0, 8, 0, 2] ++ List.replicate 64 0x7F
    let s := pending .containerRead (objOps 0 0) (mem [] full file)
    let u := pending (.word 0x0202) { objOps 8 8 with img := some 1 } ⟨[(0, file.drop 0x80)], [(1, Image.fresh 8 8)], []⟩
    s.fileValue = file ∧
      ((nextOf (runCommand .containerRead s)).map fun t => (t.faulted, t.port.status, t.port.result)) = some (none, 0, .image (some 1)) ∧
      u.Live ∧ u.tileOrder = s.tileOrder ∧ u.rgb8DecodeAlpha = s.rgb8DecodeAlpha ∧ u.port.ops.argW = 8 ∧ u.port.ops.argH = 8 ∧
      u.bufValue = s.fileValue.drop 0x80 ∧ u.imgOperand = some (1, Image.fresh 8 8) := by decide +kernel

/-- A CONTAINER_WRITE that ends with OK, and states that meet the hypotheses on its HDR_WRITE and its ENCODE. -/
theorem test_witness_ContainerWriteIsItsExpansion :
    let s := pending (.containerWrite 2) (objOps 0 0) (mem [] full [])
    let s1 := pending (.word 0x0302) (dimOps 8 8) noMem
    let s2 := pending (.word 0x0102) (objOps 0 0) (mem (s.freshBytes (full.w * full.h * bpp .a8)) full [])
    s.imgValue = full ∧ resolve 2 = .ok .a8 ∧
      ((nextOf (runCommand (.containerWrite 2) s)).map fun t => (t.faulted, t.port.status, t.port.result)) = some (none, 0, .file 1) ∧
      s1.Live ∧ s1.port.ops.argW = full.w ∧ s1.port.ops.argH = full.h ∧ s2.Live ∧ s2.tileOrder = s.tileOrder ∧
      s2.imgValue = s.imgValue ∧ s2.bufOperand = some (0, s.freshBytes (full.w * full.h * bpp .a8)) :=
  ⟨by decide +kernel, rfl, by decide +kernel, by decide, by decide +kernel, by decide +kernel, ⟨rfl, rfl⟩, rfl, rfl, rfl⟩

theorem test_witness_CommandsThatStoreNothing :
    (∀ f, Instr.tileLookup 5 ≠ encodeInstr f ∧ Instr.tileLookup 5 ≠ decodeInstr f) ∧ Instr.tileLookup 5 ≠ .hdrRead ∧
      (∀ fmt, Instr.tileLookup 5 = .encodeInvalid fmt ∨ Instr.tileLookup 5 = .decodeInvalid fmt → namedFormatId fmt = false) ∧
      (nextOf (exec (.tileLookup 5) State.reset)).isSome = true := by
  refine ⟨fun f => ?_, by decide, by simp, by decide⟩
  cases f <;> decide

theorem test_witness_HdrReadFrame :
    (nextOf (exec .hdrRead (pending (.word 0x0400) (objOps 0 0) (mem [] full [0x74])))).isSome = true := by decide +kernel

/-- ENCODE that completes, and one that faults. -/
theorem test_witness_EncodeFrame :
    (nextOf (exec (encodeInstr .a8) trip0)).isSome = true ∧ (nextOf (exec (encodeInstr .rgba8) trip0)).isSome = true := by decide +kernel

theorem test_witness_DecodeFrame :
    (nextOf (exec (decodeInstr .a8) trip2)).isSome = true := by decide +kernel

theorem test_witness_StepKeepsInvariant : trip0.Inv ∧ (nextOf (step trip0)).isSome = true :=
  ⟨⟨by decide +kernel, test_default_table_ok, by decide, by decide, by decide, by decide⟩, by decide +kernel⟩

theorem test_witness_ConstantTablesAreNeverWritten :
    (nextOf (exec (encodeInstr .a8) trip0)).isSome = true ∧ (nextOf (step trip0)).isSome = true := by decide +kernel

theorem test_witness_CommandsNeverResize :
    (nextOf (runCommand (.word 0x0102) trip0)).isSome = true ∧ Store.find? trip0.mem.bufs 0 = some (List.replicate 64 0) ∧
      Store.find? trip0.mem.imgs 0 = some full ∧ Store.find? trip0.mem.files 0 = some [] := by decide +kernel

/-- For HDR_READ: two states that agree on `FILE` and on two answers of `IO_FAIL` only. -/
def header0 (answers : List Bool) (m : Memory) : State := withAnswers (pending (.word 0x0400) (objOps 0 0) m) answers

/-- Each group of premises: an ENCODE in two states that differ in what earlier commands left, in `ARG_W`, in the file and in every answer of `IO_FAIL`; a
PXPACK in two states that agree on `ARG_PIXEL` only; HDR_READ; and the two sequences. -/
theorem test_witness_OutputsDependOnOperandsOnly :
    (let t := { withAnswers (pending (.word 0x0102) (objOps 5 6) (mem (List.replicate 64 0) full [7])) [true, true] with host := [.turn] }
     trip0.Live ∧ t.Live ∧ trip0.tileOrder = t.tileOrder ∧ trip0.rgb8DecodeAlpha = t.rgb8DecodeAlpha ∧ SameOwnOperands .encodeA8 trip0 t ∧
      trip0.ioFails 0 ≠ t.ioFails 0 ∧ trip0.fileOperand ≠ t.fileOperand ∧ (nextOf (exec .encodeA8 trip0)).isSome = true) ∧
    (let s := pending (.word 0x0702) (pixelOps 1 2 3 4) noMem
     let t := { trip0 with port := { trip0.port with ops := pixelOps 1 2 3 4 } }
     s.Live ∧ t.Live ∧ s.tileOrder = t.tileOrder ∧ s.rgb8DecodeAlpha = t.rgb8DecodeAlpha ∧ SameOwnOperands .pxpackA8 s t ∧ s.mem ≠ t.mem) ∧
    (let s := header0 [false, false] (mem [1] full magic)
     let t := header0 [false, false, true] (mem [] full magic)
     s.Live ∧ t.Live ∧ s.tileOrder = t.tileOrder ∧ s.rgb8DecodeAlpha = t.rgb8DecodeAlpha ∧ SameFileOperand s t ∧ SameIo s t 2 ∧ s.bufOperand ≠ t.bufOperand) ∧
    (let s := header0 [false, false, false] (mem [1] full magic)
     let t := header0 [false, false, false, true] (mem [] full magic)
     s.Live ∧ t.Live ∧ s.tileOrder = t.tileOrder ∧ s.rgb8DecodeAlpha = t.rgb8DecodeAlpha ∧ SameFileOperand s t ∧ SameImgOperand s t ∧ SameIo s t 3 ∧
      s.freshFile = t.freshFile ∧ s.freshImage = t.freshImage ∧ (∀ n, s.freshBytes n = t.freshBytes n) ∧
      (nextOf (runCommand (.containerWrite 2) s)).isSome = true ∧ (nextOf (runCommand .containerRead s)).isSome = true) := by
  refine ⟨⟨by decide, by decide, rfl, rfl, ⟨fun f => ?_, by simp⟩, by decide, by decide, by decide +kernel⟩,
    ⟨by decide, by decide, rfl, rfl, ⟨fun f => ?_, by simp⟩, by decide⟩,
    ⟨by decide, by decide, rfl, rfl, ⟨rfl, by decide⟩, by unfold SameIo; decide, by decide⟩,
    by decide, by decide, rfl, rfl, ⟨rfl, by decide⟩, ⟨rfl, by decide +kernel⟩, by unfold SameIo; decide, by decide, by decide, fun _ => rfl,
    by decide +kernel, by decide +kernel⟩
  · refine ⟨fun _ => ⟨⟨rfl, by decide +kernel⟩, rfl, by decide +kernel⟩, ?_⟩
    cases f <;> simp [decodeInstr, pxpackInstr, pxunpackInstr]
  · refine ⟨?_, ?_, fun _ => rfl, ?_, ?_⟩ <;> cases f <;> simp [encodeInstr, decodeInstr, pxunpackInstr]

/-- ENCODE of image 0 into buffer 0 beside DECODE of buffer 1 into image 1. -/
def pair0 : State := two 0x0102 0 0 0x0202 1 1

def pair1 : State := (nextOf (runCommand (.word 0x0102) pair0)).getD pair0

/-- HDR_READ of one file by two instances; the first access of the second one fails. -/
def readers : State :=
  { State.reset with
    mem := mem [] full (header [8, 0, 8, 0, 2])
    port := portOf 0x0400 none none (some 0)
    others := [{ portFor 1 (.word 0x0400) none none (some 0) with ioAnswers := [true] }] }

/-- CONTAINER_READ of one file by two instances. -/
def loaders : State :=
  { State.reset with
    mem := mem [] full (header [8, 0, 8, 0, 2] ++ List.replicate 64 0x7F)
    port := portFor 0 .containerRead none none (some 0)
    others := [portFor 1 .containerRead none none (some 0)] }

/-- What DisjointCommandsCommute asks of two instances and the state after the first command. -/
def Commuting (s s1 : State) (c d : Command) : Prop :=
  s.mem.wf = true ∧ (∃ q, s.others = q :: [] ∧ q.cmd = some d ∧ s.port.overlaps q s.mem = false) ∧ s.port.cmd = some c ∧
    nextOf (runCommand c s) = some s1 ∧ (nextOf (runCommand d (swap s1))).map State.faulted = some none

/-- ENCODE beside DECODE; two HDR_READs of which one fails; two CONTAINER_READs. -/
theorem test_witness_DisjointCommandsCommute :
    Commuting pair0 pair1 (.word 0x0102) (.word 0x0202) ∧
      Commuting readers ((nextOf (runCommand (.word 0x0400) readers)).getD readers) (.word 0x0400) (.word 0x0400) ∧
      Commuting loaders ((nextOf (runCommand .containerRead loaders)).getD loaders) .containerRead .containerRead :=
  ⟨⟨by decide +kernel, ⟨_, rfl, rfl, by decide +kernel⟩, by decide +kernel⟩, ⟨by decide +kernel, ⟨_, rfl, rfl, by decide +kernel⟩, by decide +kernel⟩,
    by decide +kernel, ⟨_, rfl, rfl, by decide +kernel⟩, by decide +kernel⟩

/-- Both orders of two commands end in the same state. -/
def sameEnd (s : State) (c d : Command) : Bool :=
  (((nextOf (runCommand c s)).bind fun t => nextOf (runCommand d (swap t))).map swap) ==
    (nextOf (runCommand d (swap s))).bind fun t => nextOf (runCommand c (swap t))

theorem test_disjoint_commands_commute :
    sameEnd pair0 (.word 0x0102) (.word 0x0202) = true ∧ sameEnd readers (.word 0x0400) (.word 0x0400) = true ∧
      sameEnd loaders .containerRead .containerRead = true := by decide +kernel

end Sys2Proof.Tests
end

section
/-!
SUPPORT. The decoder in plain arithmetic (30_encoding.md R70 to R80): an equation for each class of word, which words are legal, and how a
word ends whose format id has no codec.
-/

namespace Sys2Proof.Machine

/-! ### The fields of a word -/

@[simp] theorem Half.rsv_eq_zero_iff (w : Half) : Half.rsv w = 0#4 ↔ w.toNat / 4096 = 0 := by
  rw [← BitVec.toNat_inj, (Half.fields_eq w).1, BitVec.toNat_ofNat, Nat.zero_mod]

@[simp] theorem Half.toNat_cls (w : Half) : (Half.cls w).toNat = w.toNat / 256 % 16 :=
  (Half.fields_eq w).2.2.2

theorem Half.arg_eq (w : Half) : Half.arg w = BitVec.ofNat 8 (w.toNat % 256) :=
  (Half.fields_eq w).2.2.1

@[simp] theorem Half.toNat_arg (w : Half) : (Half.arg w).toNat = w.toNat % 256 := by
  rw [Half.arg_eq, BitVec.toNat_ofNat, Nat.mod_mod]

theorem Half.arg_eq_zero_iff (w : Half) : Half.arg w = 0#8 ↔ w.toNat % 256 = 0 := by
  rw [← BitVec.toNat_inj, Half.toNat_arg, BitVec.toNat_ofNat, Nat.zero_mod]

/-- `arg[7:6]` is 00 where the argument is a traversal index (30_encoding.md R75). -/
theorem Half.tileReserved_eq_zero_iff (w : Half) : (Half.arg w).extractLsb' 6 2 = 0#2 ↔ w.toNat % 256 < 64 := by
  rw [← BitVec.toNat_inj, BitVec.extractLsb'_toNat, Half.toNat_arg, Nat.shiftRight_eq_div_pow, BitVec.toNat_ofNat]
  omega

/-- `arg[5:0]` in plain arithmetic (30_encoding.md R75). -/
theorem Half.tileIndex_eq (w : Half) : (Half.arg w).extractLsb' 0 6 = BitVec.ofNat 6 (w.toNat % 256) := by
  rw [← BitVec.toNat_inj, BitVec.extractLsb'_toNat, Half.toNat_arg, Nat.shiftRight_zero, BitVec.toNat_ofNat]

/-! ### An equation of the decoder for each kind of word -/

section
variable {w : Half}

theorem decode_of_reserved (hr : w.toNat / 4096 ≠ 0) : decode w = .error .reservedBits := by
  have hrsv : Half.rsv w ≠ 0 := mt (Half.rsv_eq_zero_iff w).1 hr
  rw [decode, if_pos hrsv]

variable (hr : w.toNat / 4096 = 0)
include hr

theorem decode_of_class_encode (hc : w.toNat / 256 % 16 = 1) : decode w = .ok (encodeOfFmt (Half.arg w)) := by
  simp [decode, hr, hc]

theorem decode_of_class_decode (hc : w.toNat / 256 % 16 = 2) : decode w = .ok (decodeOfFmt (Half.arg w)) := by
  simp [decode, hr, hc]

theorem decode_of_class_hdrWrite (hc : w.toNat / 256 % 16 = 3) : decode w = .ok (.hdrWrite (Half.arg w)) := by
  simp [decode, hr, hc]

theorem decode_of_class_hdrRead (hc : w.toNat / 256 % 16 = 4) :
    decode w = if w.toNat % 256 = 0 then .ok .hdrRead else .error .hdrReadArgument := by
  simp only [← Half.arg_eq_zero_iff]
  simp [decode, hr, hc]

theorem decode_of_class_fmtResolve (hc : w.toNat / 256 % 16 = 5) : decode w = .ok (.fmtResolve (Half.arg w)) := by
  simp [decode, hr, hc]

theorem decode_of_class_tileLookup (hc : w.toNat / 256 % 16 = 6) :
    decode w = if w.toNat % 256 < 64 then .ok (.tileLookup (BitVec.ofNat 6 (w.toNat % 256))) else .error .tileIndexRange := by
  simp only [← Half.tileReserved_eq_zero_iff, ← Half.tileIndex_eq]
  simp [decode, hr, hc]

theorem decode_of_class_pxpack (hc : w.toNat / 256 % 16 = 7) : decode w = .ok (pxpackOfFmt (Half.arg w)) := by
  simp [decode, hr, hc]

theorem decode_of_class_pxunpack (hc : w.toNat / 256 % 16 = 8) : decode w = .ok (pxunpackOfFmt (Half.arg w)) := by
  simp [decode, hr, hc]

theorem decode_of_class_unassigned (hc : w.toNat / 256 % 16 = 0 ∨ 9 ≤ w.toNat / 256 % 16) : decode w = .error .unassignedClass := by
  have hrsv : Half.rsv w = 0 := (Half.rsv_eq_zero_iff w).2 hr
  rw [decode, if_neg (not_not.2 hrsv), Half.toNat_cls]
  split
  case h_9 => rfl
  all_goals omega

/-- A word of an assigned class whose argument suits its class is legal. -/
theorem decode_ok_of_legal (hc : 1 ≤ w.toNat / 256 % 16 ∧ w.toNat / 256 % 16 ≤ 8)
    (h4 : w.toNat / 256 % 16 = 4 → w.toNat % 256 = 0) (h6 : w.toNat / 256 % 16 = 6 → w.toNat % 256 < 64) :
    ∃ i, decode w = .ok i := by
  have hcases : w.toNat / 256 % 16 = 1 ∨ w.toNat / 256 % 16 = 2 ∨ w.toNat / 256 % 16 = 3 ∨ w.toNat / 256 % 16 = 4 ∨
      w.toNat / 256 % 16 = 5 ∨ w.toNat / 256 % 16 = 6 ∨ w.toNat / 256 % 16 = 7 ∨ w.toNat / 256 % 16 = 8 := by omega
  rcases hcases with hc | hc | hc | hc | hc | hc | hc | hc
  · exact ⟨_, decode_of_class_encode hr hc⟩
  · exact ⟨_, decode_of_class_decode hr hc⟩
  · exact ⟨_, decode_of_class_hdrWrite hr hc⟩
  · exact ⟨_, by rw [decode_of_class_hdrRead hr hc, if_pos (h4 hc)]⟩
  · exact ⟨_, decode_of_class_fmtResolve hr hc⟩
  · exact ⟨_, by rw [decode_of_class_tileLookup hr hc, if_pos (h6 hc)]⟩
  · exact ⟨_, decode_of_class_pxpack hr hc⟩
  · exact ⟨_, decode_of_class_pxunpack hr hc⟩

end

/-- The illegal words are the four kinds of 30_encoding.md R80. -/
theorem decode_error_iff (w : Half) : (∃ e, decode w = .error e) ↔
    w.toNat / 4096 ≠ 0 ∨ w.toNat / 256 % 16 = 0 ∨ 9 ≤ w.toNat / 256 % 16 ∨
      (w.toNat / 256 % 16 = 6 ∧ w.toNat / 64 % 4 ≠ 0) ∨ (w.toNat / 256 % 16 = 4 ∧ w.toNat % 256 ≠ 0) := by
  by_cases hr : w.toNat / 4096 = 0
  · constructor
    · rintro ⟨e, he⟩
      by_contra hn
      obtain ⟨i, hi⟩ := decode_ok_of_legal hr (by omega) (by omega) (by omega)
      simp [hi] at he
    · rintro (h | h | h | ⟨hc, ha⟩ | ⟨hc, ha⟩)
      · exact absurd hr h
      · exact ⟨_, decode_of_class_unassigned hr (.inl h)⟩
      · exact ⟨_, decode_of_class_unassigned hr (.inr h)⟩
      · exact ⟨_, by rw [decode_of_class_tileLookup hr hc, if_neg (by omega)]⟩
      · exact ⟨_, by rw [decode_of_class_hdrRead hr hc, if_neg ha]⟩
  · exact iff_of_true ⟨_, decode_of_reserved hr⟩ (.inl hr)

/-- Settles O2: each clause is the decoder's equation for that kind of word. -/
theorem decodeFollowsPseudocode : Obligations.DecodeFollowsPseudocode := by
  intro w
  dsimp only
  rw [← Half.arg_eq]
  refine ⟨fun hr => ⟨_, decode_of_reserved hr⟩, fun hr => ⟨decode_of_class_encode hr, decode_of_class_decode hr,
    decode_of_class_hdrWrite hr, fun hc ha => ?_, fun hc ha => ⟨.hdrReadArgument, ?_⟩, decode_of_class_fmtResolve hr,
    fun hc ha => ?_, fun hc ha => ⟨.tileIndexRange, ?_⟩, decode_of_class_pxpack hr, decode_of_class_pxunpack hr,
    fun hc => ⟨_, decode_of_class_unassigned hr hc⟩⟩⟩
  · rw [decode_of_class_hdrRead hr hc, if_pos ha]
  · rw [decode_of_class_hdrRead hr hc, if_neg ha]
  · rw [decode_of_class_tileLookup hr hc, if_pos ha]
  · rw [decode_of_class_tileLookup hr hc, if_neg (Nat.not_lt.2 ha)]

/-! ### Running a word -/

theorem runCommand_of_decode_ok {w : Half} {i : Instr} (h : decode w = .ok i) (s : State) : runCommand (.word w) s = exec i s := by
  simp only [runCommand, h]

theorem runCommand_of_decode_error {w : Half} {e : DecodeReject} {s : State} (hl : s.Live) (h : decode w = .error e) :
    runCommand (.word w) s = .next (s.endStatus .illegalCommand) := by
  simp only [runCommand, h, illegalCommand, guarded_live hl]

/-- An illegal word uses no object (30_encoding.md R80). -/
theorem Port.footprint_of_decode_error {p : Port} {w : Half} {e : DecodeReject} (hc : p.cmd = some (.word w)) (h : decode w = .error e)
    (m : Memory) : p.footprint m = [] := by
  simp only [Port.footprint, hc, Port.commandFootprint, Port.commandOperands, h]

/-- A command that uses no object overlaps with no other one (20_memory.md R61). -/
theorem State.overlapped_of_footprint_nil {s : State} (h : s.port.footprint s.mem = []) : s.overlapped = false := by
  simp [State.overlapped, Port.overlaps, h]

/-- Settles O5: an illegal word's footprint is empty, so it overlaps with no other command, and the step is the end with IllegalCommand. -/
theorem illegalWordsEndAtOnce : Obligations.IllegalWordsEndAtOnce := by
  intro w
  refine ⟨decode_error_iff w, fun s e he hl hh hc => ?_⟩
  have hfoot : s.port.footprint s.mem = [] := Port.footprint_of_decode_error hc he s.mem
  refine ⟨hfoot, ?_⟩
  calc step s = runPending s := step_of_no_action hl hh
    _ = runCommand (.word w) s := runPending_of_cmd hc (State.overlapped_of_footprint_nil hfoot)
    _ = .next (s.endStatus .illegalCommand) := runCommand_of_decode_error hl he

/-! ### Format ids without a codec -/

theorem execFmtResolve_of_error {fmt : Byte} {s : State} {st : Status} (hl : s.Live) (hr : resolve fmt = .error st) :
    execFmtResolve fmt s = .next (s.endStatus st) := by
  simp only [execFmtResolve, guarded_live hl, hr]

/-- A word of a class that carries a format id is legal, and where the id has no codec its command ends with the status of format
resolution (30_encoding.md R79). -/
theorem decode_of_unresolved {w : Half} {s : State} {st : Status} (hl : s.Live) (hw : w.toNat / 256 ∈ [1, 2, 3, 5, 7, 8])
    (hf : resolve (Half.arg w) = .error st) : ∃ i, decode w = .ok i ∧ exec i s = .next (s.endStatus st) := by
  simp only [List.mem_cons, List.not_mem_nil, or_false] at hw
  have hr : w.toNat / 4096 = 0 := by omega
  rcases hw with hc | hc | hc | hc | hc | hc
  · exact ⟨_, decode_of_class_encode hr (by omega), (exec_encodeOfFmt _ s).trans (encodeCommand_of_error hl hf)⟩
  · exact ⟨_, decode_of_class_decode hr (by omega), (exec_decodeOfFmt _ s).trans (decodeCommand_of_error hl hf)⟩
  · exact ⟨_, decode_of_class_hdrWrite hr (by omega), execHdrWrite_of_error hl hf⟩
  · exact ⟨_, decode_of_class_fmtResolve hr (by omega), execFmtResolve_of_error hl hf⟩
  · exact ⟨_, decode_of_class_pxpack hr (by omega), (exec_pxpackOfFmt _ s).trans (pxpackCommand_of_error hl hf)⟩
  · exact ⟨_, decode_of_class_pxunpack hr (by omega), (exec_pxunpackOfFmt _ s).trans (pxunpackCommand_of_error hl hf)⟩

/-- The same of the pending word: it is legal and its command ends with that status. -/
theorem runCommand_of_unresolved {w : Half} {s : State} {st : Status} (hl : s.Live) (hw : w.toNat / 256 ∈ [1, 2, 3, 5, 7, 8])
    (hf : resolve (Half.arg w) = .error st) : (∃ i, decode w = .ok i) ∧ runCommand (.word w) s = .next (s.endStatus st) := by
  obtain ⟨i, hi, he⟩ := decode_of_unresolved hl hw hf
  exact ⟨⟨i, hi⟩, (runCommand_of_decode_ok hi s).trans he⟩

/-- The ids without a name in plain arithmetic (30_encoding.md R73). -/
theorem namedFormatId_eq_false_iff (fmt : Byte) : namedFormatId fmt = false ↔ fmt.toNat = 3 ∨ 8 ≤ fmt.toNat := by
  simp only [namedFormatId, Bool.and_eq_false_iff, decide_eq_false_iff_not, bne_eq_false_iff_eq]
  omega

/-- Settles O17: every class that carries a format id resolves it first, and an id without a codec ends the command there. -/
theorem unlistedFormatIdsEndWithTheirStatus : Obligations.UnlistedFormatIdsEndWithTheirStatus := by
  intro w s hl hw
  refine ⟨fun ha => runCommand_of_unresolved hl hw (resolve_of_not_named ?_), fun ha => runCommand_of_unresolved hl hw (resolve_etc1 ?_)⟩
  · rwa [namedFormatId_eq_false_iff, Half.toNat_arg]
  · rw [Half.arg_eq, ha]
    rfl

end Sys2Proof.Machine
end

section
/-!
SUPPORT. TILE_LOOKUP (40_tile_order.md R100): its words in plain arithmetic, and how its command ends.
-/

namespace Sys2Proof.Machine

/-! ### Tile lookup -/

/-- The word of TILE_LOOKUP in plain arithmetic: class 6 and the index fill disjoint bits (30_encoding.md R70, R75). -/
theorem toNat_tileLookupWord (idx : BitVec 6) : (0x0600#16 ||| idx.zeroExtend 16).toNat = 1536 + idx.toNat := by
  have hidx : idx.toNat < 64 := idx.isLt
  calc (0x0600#16 ||| idx.zeroExtend 16).toNat = 2 ^ 6 * 24 ||| idx.toNat := by
        rw [BitVec.toNat_or, BitVec.zeroExtend_eq_setWidth, BitVec.toNat_setWidth_of_le (by decide)]
        rfl
    _ = 2 ^ 6 * 24 + idx.toNat := (Nat.two_pow_add_eq_or_of_lt hidx 24).symm

theorem decode_tileLookupWord (idx : BitVec 6) : decode (0x0600#16 ||| idx.zeroExtend 16) = .ok (.tileLookup idx) := by
  have hw := toNat_tileLookupWord idx
  have hidx : idx.toNat < 64 := idx.isLt
  have harg : (0x0600#16 ||| idx.zeroExtend 16).toNat % 256 = idx.toNat := by omega
  rw [decode_of_class_tileLookup (by omega) (by omega), harg, if_pos hidx, BitVec.ofNat_toNat, BitVec.setWidth_eq]

/-- TILE_LOOKUP has no failure mode: where no mark is set it ends with OK and the table's entry (40_tile_order.md R100). -/
theorem execTileLookup_live {s : State} (hl : s.Live) (idx : BitVec 6) :
    execTileLookup idx s =
      .next (s.endOk (.tile s.tileOrder[idx.toFin].val (s.tileOrder[idx.toFin].val % 8) (s.tileOrder[idx.toFin].val / 8))) :=
  guarded_live hl _

/-- Settles O21: the word decodes to the lookup of its index, and the lookup ends with OK, the entry and its position, for any table. -/
theorem tileLookupGivesEntryAndPosition : Obligations.TileLookupGivesEntryAndPosition := by
  intro idx s hl
  exact ⟨decode_tileLookupWord idx, s.tileOrder[idx.toFin].val, rfl, execTileLookup_live hl idx⟩

end Sys2Proof.Machine
end

section
/-!
SUPPORT. The codec engines: the traversal written out block by block (41_codec_engines.md R106), the end of every ETC1 command (R122, R129), and
the round trip of a pixel and of an image through a format (R130 to R134).
-/

namespace Sys2Proof.Machine

open Sys2Proof.Claims

/-! ### ETC1 -/

/-- Settles O19: format id 4 does not resolve, so each of the four commands ends there, before it reads an operand. -/
theorem etc1AlwaysUnsupported : Obligations.Etc1AlwaysUnsupported := by
  refine ⟨by decide, by decide, by decide, by decide, fun s hl => ?_⟩
  have hr : resolve 4 = .error .unsupportedFormat := resolve_etc1 rfl
  exact ⟨encodeCommand_of_error hl hr, decodeCommand_of_error hl hr, pxpackCommand_of_error hl hr, pxunpackCommand_of_error hl hr⟩

/-! ### The order of the traversal -/

/-- The byte cursor goes on from one list of blocks to the next (41_codec_engines.md R106). -/
theorem cursorsFrom_append (n byte : Nat) (bs bs' : List (Nat × Nat)) :
    cursorsFrom n byte (bs ++ bs') = cursorsFrom n byte bs ++ cursorsFrom n (byte + bs.length * (64 * n)) bs' := by
  induction bs generalizing byte with
  | nil => simp [cursorsFrom]
  | cons b bs ih =>
    have hbyte : byte + 64 * n + bs.length * (64 * n) = byte + (bs.length + 1) * (64 * n) := by ring
    rw [List.cons_append, cursorsFrom, ih, hbyte, cursorsFrom, List.append_assoc, List.length_cons]

/-- One row of blocks, from left to right. -/
theorem cursorsFrom_row (n byte nbx r : Nat) :
    cursorsFrom n byte ((List.range nbx).map fun c => (r, c)) =
      (List.range nbx).flatMap fun c => blockCursors (r, c) (byte + c * (64 * n)) := by
  induction nbx with
  | zero => rfl
  | succ m ih => simp [List.range_succ, cursorsFrom_append, cursorsFrom, ih]

/-- The blocks of a grid with one more row. -/
theorem blocks_succ (nbx nby : Nat) : blocks nbx (nby + 1) = blocks nbx nby ++ (List.range nbx).map fun c => (nby, c) := by
  simp [blocks, List.range_succ]

/-- The traversal in closed form: row by row, block by block, each block from the byte cursor of its place. -/
theorem traversal_eq_flatMap (n nbx nby : Nat) :
    traversal n nbx nby =
      (List.range nby).flatMap fun r => (List.range nbx).flatMap fun c => blockCursors (r, c) ((r * nbx + c) * (64 * n)) := by
  induction nby with
  | zero => rfl
  | succ m ih =>
    rw [traversal] at ih
    have hbyte (c : Nat) : 0 + nbx * m * (64 * n) + c * (64 * n) = (m * nbx + c) * (64 * n) := by ring
    simp only [traversal, blocks_succ, cursorsFrom_append, ih, length_blocks, cursorsFrom_row, hbyte, List.range_succ, List.flatMap_append,
      List.flatMap_singleton]

/-- Settles O35: the closed form of the traversal, with the 64 cursors of each block in the order of their indices. -/
theorem traversalOrder : Obligations.TraversalOrder := by
  intro f nbx nby
  have hblock (r c byte : Nat) :
      (blockCursors (r, c) byte).map (fun d => (d.row, d.col, d.idx.val, d.byte)) = (List.range 64).map fun i => (r, c, i, byte) := by
    rw [blockCursors, ← List.map_coe_finRange_eq_range, List.map_map, List.map_map]
    rfl
  simp only [traversal_eq_flatMap, List.map_flatMap, hblock]

/-! ### The round trip of one pixel -/

/-- A channel with its lower `k` bits cut off, in plain arithmetic. -/
theorem byte_ushiftRight_shiftLeft (c : Byte) (k : Nat) : (c >>> k) <<< k = BitVec.ofNat 8 (c.toNat / 2 ^ k * 2 ^ k) := by
  apply BitVec.eq_of_toNat_eq
  rw [BitVec.toNat_shiftLeft, BitVec.toNat_ushiftRight, Nat.shiftLeft_eq, Nat.shiftRight_eq_div_pow, BitVec.toNat_ofNat]

/-- A channel cut to its upper 4 bits, in plain arithmetic. -/
theorem byte_div_mul16 (c : Byte) : c / 16 * 16 = BitVec.ofNat 8 (c.toNat / 16 * 16) := by
  apply BitVec.eq_of_toNat_eq
  rw [BitVec.toNat_mul, BitVec.toNat_udiv, BitVec.toNat_ofNat]
  rfl

/-- The word of RGB565 unpacks to the stored pixel (42_pixel_formats.md R146, R147). -/
theorem unpack565_word565 (alpha : Byte) (p : Pixel) : unpack565 (word565 p) = storedPixel alpha .rgb565 p := by
  have hr := p.r.isLt
  have hg := p.g.isLt
  have hb := p.b.isLt
  simp only [unpack565, storedPixel, widen5_eq, widen6_eq, toNat_word565, byte_ushiftRight_shiftLeft]
  congr 2 <;> omega

/-- The one bit of alpha is set for 255 only (42_pixel_formats.md R150, R151). -/
theorem widen1_word5551 (p : Pixel) : widen1 (word5551 p) = if p.a = 255 then 255 else 0 := by
  have ha := p.a.isLt
  have hbit : (word5551 p).toNat % 2 = 1 ↔ p.a = 255 := by
    rw [toNat_word5551, ← BitVec.toNat_inj, show (255 : Byte).toNat = 255 from rfl]
    omega
  simp only [widen1_eq, hbit]

/-- The word of RGBA5551 unpacks to the stored pixel (42_pixel_formats.md R150, R151). -/
theorem unpack5551_word5551 (alpha : Byte) (p : Pixel) : unpack5551 (word5551 p) = storedPixel alpha .rgba5551 p := by
  have hr := p.r.isLt
  have hg := p.g.isLt
  have hb := p.b.isLt
  have ha := p.a.isLt
  simp only [unpack5551, storedPixel, widen5_eq, widen1_word5551, toNat_word5551, byte_ushiftRight_shiftLeft]
  congr 2 <;> omega

/-- The two nibbles of a byte, widened, are the two channels cut to their upper 4 bits (42_pixel_formats.md R148, R149). -/
theorem widen4_nibbles (lo hi : Byte) :
    widen4 (field4 lo ||| (field4 hi <<< 4)) 0 = lo / 16 * 16 ∧ widen4 (field4 lo ||| (field4 hi <<< 4)) 4 = hi / 16 * 16 := by
  have hlo := lo.isLt
  have hhi := hi.isLt
  simp only [nibbles_eq, widen4_eq, byte_div_mul16, BitVec.toNat_ofNat]
  constructor <;> congr 1 <;> omega

/-- Unpacking a packed pixel gives what the format stores of it (42_pixel_formats.md R155 (a)). -/
theorem unpack_pack (alpha : Byte) (f : PixelFormat) (p : Pixel) : unpack alpha f (pack f p) = .ok (storedPixel alpha f p) := by
  cases f with
  | rgba8 | rgb8 | a8 => rfl
  | rgb565 => rw [← unpack565_word565, ← fromLe16_le16 (word565 p)]; rfl
  | rgba5551 => rw [← unpack5551_word5551, ← fromLe16_le16 (word5551 p)]; rfl
  | rgba4 =>
    simp only [pack, unpack, storedPixel, (widen4_nibbles _ _).1, (widen4_nibbles _ _).2]

/-! ### The round trip of an image -/

theorem exec_encodeInstr (f : PixelFormat) (s : State) : exec (encodeInstr f) s = encodeCommand f.id s := by
  cases f <;> rfl

theorem exec_decodeInstr (f : PixelFormat) (s : State) : exec (decodeInstr f) s = decodeCommand f.id s := by
  cases f <;> rfl

/-- What ENCODE leaves in `BUF` where it ends without a fault: the output of BlockEncode (41_codec_engines.md R113). -/
theorem exec_encodeInstr_buf {f : PixelFormat} {s t : State} {ih bh : Handle} {img : Image} {buf : List Byte}
    (hi : s.imgOperand = some (ih, img)) (hb : s.bufOperand = some (bh, buf)) (h : exec (encodeInstr f) s = .next t)
    (hf : t.faulted = none) : ∃ packed, blockEncode s.tileOrder f img buf = .ok packed ∧ Store.find? t.mem.bufs bh = some packed := by
  rw [exec_encodeInstr] at h
  obtain ⟨packed, rfl, he⟩ := encodeCommand_next (resolve_id f) h hf
  rw [State.imgValue_of_some hi, State.bufValue_of_some hb] at he
  exact ⟨packed, he, by rw [State.writeBuf_of_some packed hb]; exact Store.find?_put_self _ bh packed⟩

/-- What DECODE leaves in `IMG` where it ends without a fault and the image is there: the output of BlockDecode (41_codec_engines.md R114). -/
theorem exec_decodeInstr_img {f : PixelFormat} {u v : State} {jh : Handle} {out : Image} (hj : u.port.ops.img = some jh)
    (h : exec (decodeInstr f) u = .next v) (hf : v.faulted = none) (ho : Store.find? v.mem.imgs jh = some out) :
    blockDecode u.tileOrder u.rgb8DecodeAlpha f u.bufValue u.port.ops.argW u.port.ops.argH u.imgValue = .ok out := by
  rw [exec_decodeInstr] at h
  obtain ⟨decoded, rfl, hd⟩ := decodeCommand_next (resolve_id f) h hf
  rw [State.endOk_mem] at ho
  cases hi : u.imgOperand with
  | none =>
    rw [State.writeImg_of_none decoded hi] at ho
    rw [State.imgOperand_eq.2 ⟨hj, ho⟩] at hi
    cases hi
  | some e =>
    obtain ⟨kh, old⟩ := e
    obtain rfl : jh = kh := Option.some.inj (hj.symm.trans (State.imgOperand_eq.1 hi).1)
    rw [State.writeImg_of_some decoded hi] at ho
    obtain rfl : decoded = out := Option.some.inj ((Store.find?_put_self _ jh decoded).symm.trans ho)
    exact hd

/-- A group of a byte sequence, read byte by byte. -/
theorem take_drop_eq_of_getElem? {α : Type} {bs g : List α} {off : Nat} (h : ∀ j < g.length, bs[off + j]? = g[j]?) :
    (bs.drop off).take g.length = g := by
  refine List.ext_getElem? fun j => ?_
  rw [List.getElem?_take, List.getElem?_drop]
  split
  · exact h j ‹_›
  · rw [List.getElem?_eq_none (by omega)]

/-- A decode loop over the buffer of an encode loop leaves in every visited pixel what the format stores of it: both visit one cursor at
each position, whose group holds the packed pixel (41_codec_engines.md R107, R108, R110). -/
theorem decodeLoop_encodeLoop {t : TileTable} (ht : TileInjective t) {alpha : Byte} {f : PixelFormat} {nbx nby : Nat}
    {img old out : Image} {buf packed : List Byte} (he : encodeLoop t f img (traversal (bpp f) nbx nby) buf = .ok packed)
    (hd : decodeLoop t alpha f packed (traversal (bpp f) nbx nby) old = .ok out) {x y : Nat} (hx : x < nbx * 8) (hy : y < nby * 8) :
    ∃ p, img.read x y = .ok p ∧ out.read x y = .ok (storedPixel alpha f p) := by
  obtain ⟨c, hc, rfl, rfl⟩ := exists_pos ht (bpp f) hx hy
  obtain ⟨p, hp, hg⟩ := encodeLoop_writes (pairwise_offsets _ _ _) he c hc
  obtain ⟨q, hq, hout⟩ := decodeLoop_writes (pairwise_pos ht _ _ _) hd c hc
  have hgroup : (packed.drop (c.offset (bpp f))).take (bpp f) = pack f p := by
    rw [← length_pack f p] at hg ⊢
    exact take_drop_eq_of_getElem? hg
  rw [hgroup, unpack_pack] at hq
  obtain rfl : storedPixel alpha f p = q := Except.ok.inj hq
  exact ⟨p, hp, hout⟩

/-- The round trip through any format leaves what the format stores of each visited pixel (41_codec_engines.md R130 to R134). -/
theorem roundTrip_storedPixel (f : PixelFormat) : RoundTrip f fun alpha p => storedPixel alpha f p := by
  intro s t u v ih bh jh img out buf ht hi hb he hft htile hbuf hub huj hw hh hd hfv hout x hx y hy
  obtain ⟨packed, henc, hfind⟩ := exec_encodeInstr_buf hi hb he hft
  have hdec := exec_decodeInstr_img huj hd hfv hout
  rw [State.bufValue_of_some (State.bufOperand_eq.2 ⟨hub, hbuf.trans hfind⟩), hw, hh, htile] at hdec
  obtain ⟨-, -, -, heloop⟩ := blockEncode_ok henc
  obtain ⟨-, -, -, hdloop⟩ := blockDecode_ok hdec
  exact decodeLoop_encodeLoop ht heloop hdloop hx hy

/-- Settles O38: what each of the three formats stores, and RGBA4's division by 16 in plain arithmetic. -/
theorem quantizedRoundTrip : Obligations.QuantizedRoundTrip := by
  refine ⟨roundTrip_storedPixel .rgb565, roundTrip_storedPixel .rgba5551, ?_⟩
  simp only [← byte_div_mul16]
  exact roundTrip_storedPixel .rgba4

end Sys2Proof.Machine
end

section
/-!
SUPPORT. The per-pixel commands (42_pixel_formats.md R140 to R151): how PXPACK and PXUNPACK end for each format with a codec, and the fields of the
16-bit formats in plain arithmetic.
-/

namespace Sys2Proof.Machine

open Sys2Proof.Claims

/-! ### The per-pixel commands of a format with a codec -/

theorem exec_pxpackInstr (f : PixelFormat) (s : State) : exec (pxpackInstr f) s = pxpackCommand f.id s := by
  cases f <;> rfl

theorem exec_pxunpackInstr (f : PixelFormat) (s : State) : exec (pxunpackInstr f) s = pxunpackCommand f.id s := by
  cases f <;> rfl

section
variable {s : State} (hl : s.Live)
include hl

/-- PXPACK of a format with a codec has no failure mode: it ends with OK and the bytes of the format. -/
theorem exec_pxpackInstr_live {f : PixelFormat} {bs : List Byte} (hb : pack f s.port.ops.argPixel = bs) :
    exec (pxpackInstr f) s = .next (s.endOk (.bytes bs)) := by
  rw [exec_pxpackInstr, pxpackCommand_of_ok hl (resolve_id f), hb]

theorem exec_pxunpackInstr_of_ok {f : PixelFormat} {p : Pixel} (hu : unpack s.rgb8DecodeAlpha f s.port.ops.argBytes = .ok p) :
    exec (pxunpackInstr f) s = .next (s.endOk (.pixel p)) := by
  rw [exec_pxunpackInstr, pxunpackCommand_of_ok hl (resolve_id f) hu]

/-- A group cut short is the fault BufferUnderrun, for every format with a codec (42_pixel_formats.md R157). -/
theorem exec_pxunpackInstr_of_short {f : PixelFormat} (hn : s.port.ops.argBytes.length < bpp f) :
    exec (pxunpackInstr f) s = .next (s.takeFault .bufferUnderrun) := by
  rw [exec_pxunpackInstr, pxunpackCommand_of_short hl (resolve_id f) hn]

end

/-! ### The 16-bit formats in plain arithmetic -/

theorem le16_eq_bytesOf16 (v : Half) : le16 v = bytesOf16 v.toNat :=
  le16_eq v

theorem toNat_fromLe16_eq_numberOf (b0 b1 : Byte) : (fromLe16 b0 b1).toNat = numberOf b0 b1 :=
  toNat_fromLe16 b0 b1

/-- The fields of RGB565 do not overlap, so they add up to the word (42_pixel_formats.md R146). -/
theorem pack_rgb565_eq (p : Pixel) : pack .rgb565 p = bytesOf16 (p.r.toNat / 8 * 2048 + p.g.toNat / 4 * 32 + p.b.toNat / 8) := by
  rw [pack, le16_eq_bytesOf16, toNat_word565]

/-- Each byte of RGBA4 holds two quantized channels (42_pixel_formats.md R148). -/
theorem pack_rgba4_eq (p : Pixel) : pack .rgba4 p =
    [BitVec.ofNat 8 (p.a.toNat / 16 + p.b.toNat / 16 * 16), BitVec.ofNat 8 (p.g.toNat / 16 + p.r.toNat / 16 * 16)] := by
  rw [pack, nibbles_eq, nibbles_eq]

theorem widen5_eq_bitsOf (v : Half) (lo : Nat) : widen5 v lo = BitVec.ofNat 8 (bitsOf v.toNat lo 5 * 8) :=
  widen5_eq v lo

theorem widen6_eq_bitsOf (v : Half) (lo : Nat) : widen6 v lo = BitVec.ofNat 8 (bitsOf v.toNat lo 6 * 4) :=
  widen6_eq v lo

theorem widen4_eq_bitsOf (v : Byte) (lo : Nat) : widen4 v lo = BitVec.ofNat 8 (bitsOf v.toNat lo 4 * 16) :=
  widen4_eq v lo

theorem widen1_eq_bitsOf (v : Half) : widen1 v = if bitsOf v.toNat 0 1 = 1 then 255 else 0 := by
  rw [widen1_eq, bitsOf, pow_zero, Nat.div_one, pow_one]

section
variable (alpha b0 b1 : Byte) (rest : List Byte)

/-- The fields of an RGB565 word, widened by a plain left shift (42_pixel_formats.md R147). -/
theorem unpack_rgb565_eq :
    let v := numberOf b0 b1
    unpack alpha .rgb565 (b0 :: b1 :: rest) = .ok
      ⟨BitVec.ofNat 8 (bitsOf v 11 5 * 8), BitVec.ofNat 8 (bitsOf v 5 6 * 4), BitVec.ofNat 8 (bitsOf v 0 5 * 8), 255⟩ := by
  simp only [unpack, unpack565, widen5_eq_bitsOf, widen6_eq_bitsOf, toNat_fromLe16_eq_numberOf]

/-- The nibbles of the two bytes, times 16 (42_pixel_formats.md R149). -/
theorem unpack_rgba4_eq :
    unpack alpha .rgba4 (b0 :: b1 :: rest) = .ok
      ⟨BitVec.ofNat 8 (bitsOf b1.toNat 4 4 * 16), BitVec.ofNat 8 (bitsOf b1.toNat 0 4 * 16),
        BitVec.ofNat 8 (bitsOf b0.toNat 4 4 * 16), BitVec.ofNat 8 (bitsOf b0.toNat 0 4 * 16)⟩ := by
  simp only [unpack, widen4_eq_bitsOf]

/-- The fields of an RGBA5551 word; its one bit of alpha is all or nothing (42_pixel_formats.md R151). -/
theorem unpack_rgba5551_eq :
    let v := numberOf b0 b1
    unpack alpha .rgba5551 (b0 :: b1 :: rest) = .ok
      ⟨BitVec.ofNat 8 (bitsOf v 11 5 * 8), BitVec.ofNat 8 (bitsOf v 6 5 * 8), BitVec.ofNat 8 (bitsOf v 1 5 * 8),
        if bitsOf v 0 1 = 1 then 255 else 0⟩ := by
  simp only [unpack, unpack5551, widen5_eq_bitsOf, widen1_eq_bitsOf, toNat_fromLe16_eq_numberOf]

end

/-! ### What each command gives -/

/-- Settles O23: the packed words of the two formats, their disjoint fields added up. -/
theorem pxpackRgb565AndRgba4 : Obligations.PxpackRgb565AndRgba4 := by
  refine ⟨by decide, by decide, fun r g b a s hl hp => ?_⟩
  exact ⟨exec_pxpackInstr_live (f := .rgb565) hl (by rw [hp, pack_rgb565_eq]),
    exec_pxpackInstr_live (f := .rgba4) hl (by rw [hp, pack_rgba4_eq])⟩

/-- Settles O26: the fields of the two bytes, widened, and the fault of every length below two. -/
theorem pxunpackWordFormats : Obligations.PxunpackWordFormats := by
  refine ⟨by decide, by decide, by decide, fun s hl => ⟨fun b0 b1 rest hb => ?_, fun hn => ?_⟩⟩
  · exact ⟨exec_pxunpackInstr_of_ok (f := .rgb565) hl (by rw [hb, unpack_rgb565_eq]),
      exec_pxunpackInstr_of_ok (f := .rgba4) hl (by rw [hb, unpack_rgba4_eq]),
      exec_pxunpackInstr_of_ok (f := .rgba5551) hl (by rw [hb, unpack_rgba5551_eq])⟩
  · exact ⟨exec_pxunpackInstr_of_short (f := .rgb565) hl hn, exec_pxunpackInstr_of_short (f := .rgba4) hl hn,
      exec_pxunpackInstr_of_short (f := .rgba5551) hl hn⟩

/-- Settles O22: the byte formats copy whole channels, the last channel of the pixel first. -/
theorem pxpackByteFormats : Obligations.PxpackByteFormats := by
  refine ⟨by decide, by decide, by decide, fun r g b a s hl hp => ?_⟩
  exact ⟨exec_pxpackInstr_live (f := .rgba8) hl (by rw [hp, pack]), exec_pxpackInstr_live (f := .rgb8) hl (by rw [hp, pack]),
    exec_pxpackInstr_live (f := .a8) hl (by rw [hp, pack])⟩

/-- Settles O25: each byte is one channel, those after the group are not read, and a group cut short is the fault. -/
theorem pxunpackByteFormats : Obligations.PxunpackByteFormats := by
  refine ⟨by decide, by decide, by decide, fun s hl => ⟨fun b0 b1 b2 b3 rest hb => ?_, fun b0 b1 b2 rest hb => ?_, fun b0 rest hb => ?_, ?_⟩⟩
  · exact exec_pxunpackInstr_of_ok (f := .rgba8) hl (by rw [hb, unpack])
  · exact exec_pxunpackInstr_of_ok (f := .rgb8) hl (by rw [hb, unpack])
  · exact exec_pxunpackInstr_of_ok (f := .a8) hl (by rw [hb, unpack])
  · exact ⟨exec_pxunpackInstr_of_short (f := .rgba8) hl, exec_pxunpackInstr_of_short (f := .rgb8) hl,
      exec_pxunpackInstr_of_short (f := .a8) hl⟩

end Sys2Proof.Machine
end

section
/-!
SUPPORT. The container header and the format dispatch (43_container.md R192 to R201): how FMT_RESOLVE and HDR_WRITE end for every format id, the
bytes of a header in plain arithmetic, and that both readers of a file pass over its reserved bytes.
-/

namespace Sys2Proof.Machine

open Sys2Proof.Claims

/-! ### FMT_RESOLVE -/

/-- The word of FMT_RESOLVE in plain arithmetic: class 5 and the format id fill disjoint bits (30_encoding.md R70, R72). -/
theorem toNat_fmtResolveWord (fmt : Byte) : (0x0500#16 ||| fmt.zeroExtend 16).toNat = 1280 + fmt.toNat := by
  have hfmt : fmt.toNat < 256 := fmt.isLt
  calc (0x0500#16 ||| fmt.zeroExtend 16).toNat = 2 ^ 8 * 5 ||| fmt.toNat := by
        rw [BitVec.toNat_or, BitVec.zeroExtend_eq_setWidth, BitVec.toNat_setWidth_of_le (by decide)]
        rfl
    _ = 2 ^ 8 * 5 + fmt.toNat := (Nat.two_pow_add_eq_or_of_lt hfmt 5).symm

theorem decode_fmtResolveWord (fmt : Byte) : decode (0x0500#16 ||| fmt.zeroExtend 16) = .ok (.fmtResolve fmt) := by
  have hw := toNat_fmtResolveWord fmt
  have hfmt : fmt.toNat < 256 := fmt.isLt
  have harg : (0x0500#16 ||| fmt.zeroExtend 16).toNat % 256 = fmt.toNat := by omega
  rw [decode_of_class_fmtResolve (by omega) (by omega), Half.arg_eq, harg, BitVec.ofNat_toNat, BitVec.setWidth_eq]

/-- FMT_RESOLVE of the id of a format with a codec (43_container.md R193). -/
theorem execFmtResolve_id {s : State} (hl : s.Live) (f : PixelFormat) : execFmtResolve f.id s = .next (s.endOk (.format f (bpp f))) := by
  simp only [execFmtResolve, guarded_live hl, resolve_id]

/-- Settles O20: the listed ids are those of the six formats, 4 is ETC1, and no other id has a name. -/
theorem fmtResolveFollowsDispatchTable : Obligations.FmtResolveFollowsDispatchTable := by
  intro fmt s hl
  refine ⟨decode_fmtResolveWord fmt, ?_⟩
  split_ifs with h0 h1 h2 h5 h6 h7 h4
  · exact h0 ▸ execFmtResolve_id hl .rgba8
  · exact h1 ▸ execFmtResolve_id hl .rgb8
  · exact h2 ▸ execFmtResolve_id hl .a8
  · exact h5 ▸ execFmtResolve_id hl .rgba5551
  · exact h6 ▸ execFmtResolve_id hl .rgb565
  · exact h7 ▸ execFmtResolve_id hl .rgba4
  · exact execFmtResolve_of_error hl (resolve_etc1 h4)
  · have hnot : namedFormatId fmt = false := (namedFormatId_eq_false_iff fmt).2 (by bv_omega)
    exact execFmtResolve_of_error hl (resolve_of_not_named hnot)

/-! ### HDR_WRITE -/

/-- A dimension in range, little-endian (43_container.md R195). -/
theorem le16_ofInt {v : Int} (h0 : 0 ≤ v) (h : v ≤ 32767) : le16 (BitVec.ofInt 16 v) = bytesOf16 v.toNat := by
  lift v to ℕ using h0
  rw [le16_eq_bytesOf16, toNat_ofInt_natCast (Int.ofNat_le.1 h), Int.toNat_natCast]

/-- HDR_WRITE of an id with a codec: the check of the dimensions in plain arithmetic, then the header (43_container.md R195). -/
theorem execHdrWrite_eq_ite {fmt : Byte} {f : PixelFormat} {s : State} (hl : s.Live) (hr : resolve fmt = .ok f) :
    let w := s.port.ops.argW
    let h := s.port.ops.argH
    execHdrWrite fmt s = .next
      (if w < 0 ∨ 32767 < w ∨ h < 0 ∨ 32767 < h then s.takeFault .dimensionOutOfRange else s.endOk (.bytes (headerBytes fmt w h))) := by
  simp only [execHdrWrite_of_ok hl hr, ← dims_bad_iff]
  cases dimOk s.port.ops.argW && dimOk s.port.ops.argH <;> rfl

/-- Settles O41: the id is resolved first, an id that resolves leaves the check of the dimensions, and dimensions in range are their own
low 16 bits. -/
theorem hdrWriteFollowsPseudocode : Obligations.HdrWriteFollowsPseudocode := by
  intro fmt s hl
  refine ⟨by simp [bytesOf16], ?_⟩
  split_ifs with h4 hnot hd
  · exact execHdrWrite_of_error hl (resolve_etc1 (byte_eq_of_toNat h4))
  · exact execHdrWrite_of_error hl (resolve_of_not_named ((namedFormatId_eq_false_iff fmt).2 hnot))
  all_goals
    obtain ⟨f, hr⟩ := resolve_ok_of_id (fmt := fmt) (by omega)
    refine (execHdrWrite_eq_ite hl hr).trans ?_
  · rw [if_pos hd]
  · rw [if_neg hd, headerBytes, le16_ofInt (by omega) (by omega), le16_ofInt (by omega) (by omega)]
    rfl

/-! ### The reserved bytes of a file -/

section
variable {f g : List Byte} (hlen : f.length = g.length) (hb : ∀ o, o < 7 ∨ (0x10 ≤ o ∧ o < 0x15) ∨ 0x80 ≤ o → f[o]? = g[o]?)
include hb

/-- The header fields lie outside the reserved bytes (20_memory.md R53). -/
theorem headerFields_congr : headerFields f = headerFields g := by
  have hbyte (o : Nat) (ho : 0x10 ≤ o ∧ o < 0x15) : fileByte f o = fileByte g o := by
    rw [fileByte, fileByte, List.getD_eq_getElem?_getD, List.getD_eq_getElem?_getD, hb o (.inr (.inl ho))]
  simp only [headerFields, hbyte 0x10 (by decide), hbyte 0x11 (by decide), hbyte 0x12 (by decide), hbyte 0x13 (by decide),
    hbyte 0x14 (by decide)]

theorem take_magic_congr : f.take 7 = g.take 7 := by
  refine List.ext_getElem? fun o => ?_
  rw [List.getElem?_take, List.getElem?_take]
  split
  · exact hb o (.inl ‹_›)
  · rfl

theorem drop_payload_congr : f.drop Config.payloadOffset = g.drop Config.payloadOffset := by
  refine List.ext_getElem? fun o => ?_
  rw [List.getElem?_drop, List.getElem?_drop]
  exact hb _ (.inr (.inr (Nat.le_add_right _ _)))

include hlen

/-- The header read does not examine the reserved bytes (43_container.md R198). -/
theorem readHeader_congr (fails0 fails1 : Bool) : readHeader f fails0 fails1 = readHeader g fails0 fails1 := by
  simp only [readHeader, hlen, take_magic_congr hb, headerFields_congr hb]

theorem State.afterHdrRead_congr (s : State) : s.afterHdrRead f = s.afterHdrRead g := by
  simp only [State.afterHdrRead, readHeader_congr hlen hb]

/-- CONTAINER_READ after its header takes the length and the payload of the file only (43_container.md R201). -/
theorem State.afterPayload_congr (s : State) (d : HeaderFields) (n : Nat) : s.afterPayload f d n = s.afterPayload g d n := by
  simp only [State.afterPayload, hlen, drop_payload_congr hb]

theorem State.afterContainerRead_congr (s : State) : s.afterContainerRead f = s.afterContainerRead g := by
  simp only [State.afterContainerRead, readHeader_congr hlen hb, State.afterPayload_congr hlen hb]

end

/-! ### Reading bytes beside the files of the memory -/

/-- What HDR_READ does with the bytes it has taken does not depend on the files. -/
theorem State.afterHdrRead_setFile {s : State} (hl : s.Live) (h : Handle) (g bs : List Byte) :
    (s.setFile h g).afterHdrRead bs = (s.afterHdrRead bs).setFile h g := by
  obtain ⟨p, hp⟩ := afterHdrRead_local s bs
  rw [hp (s.setFile h g) hl rfl, hp s hl rfl]
  rfl

/-- What CONTAINER_READ does with the bytes it has taken does not depend on the files: it makes an image at most. -/
theorem State.afterContainerRead_setFile {s : State} (hl : s.Live) (h : Handle) (g bs : List Byte) :
    (s.setFile h g).afterContainerRead bs = (s.afterContainerRead bs).setFile h g := by
  obtain ⟨p, r, w, hw, hp⟩ := afterContainerRead_local s bs
  rw [hp (s.setFile h g) hl rfl rfl rfl rfl, hp s hl rfl rfl rfl rfl]
  rcases hw with rfl | ⟨img, rfl⟩ <;> rfl

/-- After the file that `FILE` names is rewritten, a command takes the new bytes from it. -/
theorem State.fileValue_setFile {s : State} {h : Handle} {f : List Byte} (hf : s.fileOperand = some (h, f)) (g : List Byte) :
    (s.setFile h g).fileValue = g := by
  obtain ⟨hfile, -⟩ := State.fileOperand_eq.1 hf
  exact State.fileValue_of_some (State.fileOperand_eq.2 ⟨hfile, Store.find?_put_self _ h g⟩)

/-- Settles O43: both readers take from the bytes of the file what the two files have in common, and leave the file as it is. -/
theorem reservedHeaderBytesAreIgnored : Obligations.ReservedHeaderBytesAreIgnored := by
  intro s h f g hl hf hlen hb
  have hlive : (s.setFile h g).Live := hl
  have hsf : s.fileValue = f := State.fileValue_of_some hf
  have hsg : (s.setFile h g).fileValue = g := State.fileValue_setFile hf g
  refine ⟨⟨s.afterHdrRead g, ?_, ?_⟩, s.afterContainerRead g, ?_, ?_⟩
  · refine (execHdrRead_of_live hl).trans ?_
    rw [hsf, State.afterHdrRead_congr hlen hb]
  · refine (execHdrRead_of_live hlive).trans ?_
    rw [hsg, State.afterHdrRead_setFile hl]
  · refine (containerRead_of_live hl).trans ?_
    rw [hsf, State.afterContainerRead_congr hlen hb]
  · refine (containerRead_of_live hlive).trans ?_
    rw [hsg, State.afterContainerRead_setFile hl]

end Sys2Proof.Machine
end

section
/-!
SUPPORT. The three ways a command ends (60_exceptions.md R230): each is read off the effect of a command.
-/

namespace Sys2Proof.Machine

/-- The codes of the raised statuses: 0 is OK's and 5 is reserved (60_exceptions.md R238, R239). -/
theorem Status.code_of_raised {st : Status} (h : st.Raised) :
    st.code = 1 ∨ st.code = 2 ∨ st.code = 3 ∨ st.code = 4 ∨ st.code = 6 := by
  obtain ⟨hok, hreserved⟩ := h
  cases st with
  | ok => exact absurd rfl hok
  | invalidOutputFormat => exact absurd rfl hreserved
  | invalidMagic | invalidFormatId | unsupportedFormat | ioError | illegalCommand => decide

/-- The first way, whatever the command has written before it ends: status OK and an output (10_state.md R27). -/
theorem State.endOk_completes {u : State} {r : Result} (hf : u.faulted = none) (hr : r ≠ .empty) :
    (u.endOk r).faulted = none ∧ (u.endOk r).port.status = 0 ∧ (u.endOk r).port.result ≠ .empty :=
  ⟨hf, rfl, hr⟩

/-- A command that starts without a fault completes, ends with a raised status and leaves the memory, or faults and leaves `STATUS` and
`RESULT` (60_exceptions.md R230, R242, R245). -/
theorem CommandEffect.ends_in_three_ways {s t : State} (h : CommandEffect s t) (hf : s.faulted = none) :
    (t.faulted = none ∧ t.port.status = 0 ∧ t.port.result ≠ .empty) ∨
      (t.faulted = none ∧ (t.port.status = 1 ∨ t.port.status = 2 ∨ t.port.status = 3 ∨ t.port.status = 4 ∨ t.port.status = 6) ∧
        t.port.result = .empty ∧ t.mem = s.mem) ∨
      ((∃ r, t.faulted = some r) ∧ t.port.status = s.port.status ∧ t.port.result = s.port.result) := by
  cases h with
  | status n d st hst => exact .inr (.inl ⟨hf, Status.code_of_raised hst, rfl, rfl⟩)
  | fault n d r => exact .inr (.inr ⟨⟨r, rfl⟩, rfl, rfl⟩)
  | output n r hr => exact .inl (State.endOk_completes hf hr)
  | buffer | image | freshFile | freshImage => exact .inl (State.endOk_completes hf nofun)

/-- Settles O15: a command runs only where no mark is set, and every effect that it can have there is one of the three ends. -/
theorem commandsEndInThreeWays : Obligations.CommandsEndInThreeWays := by
  intro c s t h
  obtain ⟨⟨hfaulted, hrefused⟩, heffect⟩ := runCommand_effect h
  obtain ⟨hops, hcmd, hothers, -, hmark⟩ := heffect.rest
  exact ⟨hcmd, hops, hothers, hmark.trans hrefused, heffect.ends_in_three_ways hfaulted⟩

end Sys2Proof.Machine
end

section
/-!
SUPPORT. The words of the commands (30_encoding.md R70 to R80): the word of two fields in plain arithmetic, the decoder inverted, and that decoder
and encoder undo each other.
-/

namespace Sys2Proof.Machine

/-! ### Command words -/

/-- A command word in plain arithmetic: its two fields fill disjoint bits (30_encoding.md R70). -/
theorem toNat_commandWord (cls : BitVec 4) (arg : Byte) : (commandWord cls arg).toNat = cls.toNat * 256 + arg.toNat := by
  have hc : cls.toNat < 16 := cls.isLt
  have ha : arg.toNat < 256 := arg.isLt
  have hcls : (0#4 ++ cls).toNat = cls.toNat := by
    rw [BitVec.toNat_append, BitVec.toNat_ofNat, Nat.zero_mod, Nat.zero_shiftLeft, Nat.zero_or]
  rw [commandWord, BitVec.toNat_append, hcls, Nat.shiftLeft_eq, or_eq_add cls.toNat 8 ha rfl, show 2 ^ 8 = 256 from rfl]

@[simp] theorem arg_commandWord (cls : BitVec 4) (arg : Byte) : Half.arg (commandWord cls arg) = arg := by
  have ha : arg.toNat < 256 := arg.isLt
  rw [← BitVec.toNat_inj, Half.toNat_arg, toNat_commandWord]
  omega

@[simp] theorem cls_commandWord (cls : BitVec 4) (arg : Byte) : Half.cls (commandWord cls arg) = cls :=
  (Laws.Encoding.commandWord_fields cls arg).2

@[simp] theorem rsv_commandWord (cls : BitVec 4) (arg : Byte) : Half.rsv (commandWord cls arg) = 0 :=
  (Laws.Encoding.commandWord_fields cls arg).1

/-- A word without reserved bits is the word of its two fields. -/
theorem eq_commandWord {w : Half} {cls : BitVec 4} (hr : w.toNat / 4096 = 0) (hc : w.toNat / 256 % 16 = cls.toNat) :
    w = commandWord cls (Half.arg w) := by
  rw [← BitVec.toNat_inj, toNat_commandWord, Half.toNat_arg]
  omega

/-- The argument of TILE_LOOKUP holds the index below two zero bits (30_encoding.md R75). -/
theorem tileArgument_fields (idx : BitVec 6) : (0#2 ++ idx).extractLsb' 6 2 = 0 ∧ (0#2 ++ idx).extractLsb' 0 6 = idx := by
  revert idx
  decide

/-- An argument below 64 is that of an index. -/
theorem exists_tileArgument {arg : Byte} (h : arg.toNat < 64) : ∃ idx : BitVec 6, arg = 0#2 ++ idx := by
  refine ⟨arg.setWidth 6, ?_⟩
  rw [← BitVec.toNat_inj, BitVec.toNat_append, BitVec.toNat_setWidth, BitVec.toNat_ofNat, Nat.zero_mod, Nat.zero_shiftLeft, Nat.zero_or]
  omega

/-! ### The decoder, inverted -/

/-- The words that decode, with what each decodes to: one case for each class (30_encoding.md R71 to R76). -/
inductive Decoded : Half → Instr → Prop
  | encode (fmt : Byte) : Decoded (commandWord 0x1 fmt) (encodeOfFmt fmt)
  | decode (fmt : Byte) : Decoded (commandWord 0x2 fmt) (decodeOfFmt fmt)
  | hdrWrite (fmt : Byte) : Decoded (commandWord 0x3 fmt) (.hdrWrite fmt)
  | hdrRead : Decoded (commandWord 0x4 0) .hdrRead
  | fmtResolve (fmt : Byte) : Decoded (commandWord 0x5 fmt) (.fmtResolve fmt)
  | tileLookup (idx : BitVec 6) : Decoded (commandWord 0x6 (0#2 ++ idx)) (.tileLookup idx)
  | pxpack (fmt : Byte) : Decoded (commandWord 0x7 fmt) (pxpackOfFmt fmt)
  | pxunpack (fmt : Byte) : Decoded (commandWord 0x8 fmt) (pxunpackOfFmt fmt)

/-- Each of the eight kinds decodes so (30_encoding.md R78). -/
theorem Decoded.decode_eq {w : Half} {i : Instr} (h : Decoded w i) : Sys2Proof.decode w = .ok i := by
  cases h with
  | encode fmt => simp [Sys2Proof.decode]
  | decode fmt => simp [Sys2Proof.decode]
  | hdrWrite fmt => simp [Sys2Proof.decode]
  | hdrRead => rfl
  | fmtResolve fmt => simp [Sys2Proof.decode]
  | tileLookup idx => simp [Sys2Proof.decode, tileArgument_fields]
  | pxpack fmt => simp [Sys2Proof.decode]
  | pxunpack fmt => simp [Sys2Proof.decode]

/-- A word that decodes is one of the eight kinds (30_encoding.md R78). -/
theorem decoded_of_decode {w : Half} {i : Instr} (h : decode w = .ok i) : Decoded w i := by
  have hlegal := mt (decode_error_iff w).2 (by rintro ⟨e, he⟩; rw [h] at he; cases he)
  have hr : w.toNat / 4096 = 0 := by omega
  have word (cls : BitVec 4) (hc : w.toNat / 256 % 16 = cls.toNat) : ∃ arg, w = commandWord cls arg := ⟨_, eq_commandWord hr hc⟩
  have kind {j : Instr} (hj : Decoded w j) : Decoded w i := by
    obtain rfl := Except.ok.inj (hj.decode_eq.symm.trans h)
    exact hj
  have hcases : w.toNat / 256 % 16 = 1 ∨ w.toNat / 256 % 16 = 2 ∨ w.toNat / 256 % 16 = 3 ∨ w.toNat / 256 % 16 = 4 ∨
      w.toNat / 256 % 16 = 5 ∨ w.toNat / 256 % 16 = 6 ∨ w.toNat / 256 % 16 = 7 ∨ w.toNat / 256 % 16 = 8 := by omega
  rcases hcases with hc | hc | hc | hc | hc | hc | hc | hc
  · obtain ⟨fmt, rfl⟩ := word 0x1 hc
    exact kind (.encode fmt)
  · obtain ⟨fmt, rfl⟩ := word 0x2 hc
    exact kind (.decode fmt)
  · obtain ⟨fmt, rfl⟩ := word 0x3 hc
    exact kind (.hdrWrite fmt)
  · obtain ⟨arg, hw⟩ := word 0x4 hc
    have harg : w.toNat % 256 = 0 := by omega
    obtain rfl : w = commandWord 0x4 0 := by
      rw [← BitVec.toNat_inj, show (commandWord 0x4 0).toNat = 1024 from rfl]
      omega
    exact kind .hdrRead
  · obtain ⟨fmt, rfl⟩ := word 0x5 hc
    exact kind (.fmtResolve fmt)
  · obtain ⟨arg, rfl⟩ := word 0x6 hc
    obtain ⟨idx, rfl⟩ := exists_tileArgument (arg := arg) (by rw [← arg_commandWord 0x6 arg, Half.toNat_arg]; omega)
    exact kind (.tileLookup idx)
  · obtain ⟨fmt, rfl⟩ := word 0x7 hc
    exact kind (.pxpack fmt)
  · obtain ⟨fmt, rfl⟩ := word 0x8 hc
    exact kind (.pxunpack fmt)

/-! ### Decoder and encoder -/

/-- A format id without a name stands for the catch-all row of its class (30_encoding.md R79). -/
theorem ofFmt_of_not_named (fmt : Byte) (h : namedFormatId fmt = false) : encodeOfFmt fmt = .encodeInvalid fmt ∧
    decodeOfFmt fmt = .decodeInvalid fmt ∧ pxpackOfFmt fmt = .pxpackInvalid fmt ∧ pxunpackOfFmt fmt = .pxunpackInvalid fmt := by
  revert fmt
  decide

/-- What a format id stands for in each of the four classes is well-formed and has the word of its class and id (30_encoding.md R72, R73): by
evaluation, id by id. -/
theorem encode_ofFmt (fmt : Byte) :
    ((encodeOfFmt fmt).wellFormed = true ∧ encode (encodeOfFmt fmt) = commandWord 0x1 fmt) ∧
    ((decodeOfFmt fmt).wellFormed = true ∧ encode (decodeOfFmt fmt) = commandWord 0x2 fmt) ∧
    ((pxpackOfFmt fmt).wellFormed = true ∧ encode (pxpackOfFmt fmt) = commandWord 0x7 fmt) ∧
    ((pxunpackOfFmt fmt).wellFormed = true ∧ encode (pxunpackOfFmt fmt) = commandWord 0x8 fmt) := by
  revert fmt
  decide

/-- Settles O3: a row with a name has one word; a catch-all row, a header row and a lookup have the word of their operand, whose class decodes
to them. -/
theorem decodeOfEncode : Obligations.DecodeOfEncode := by
  intro i hwf
  have hnot {fmt : Byte} (h : (!namedFormatId fmt) = true) := ofFmt_of_not_named fmt (by simpa using h)
  cases i with
  | encodeInvalid fmt =>
    obtain ⟨hi, -, -, -⟩ := hnot hwf
    exact (Decoded.encode fmt).decode_eq.trans (congrArg _ hi)
  | decodeInvalid fmt =>
    obtain ⟨-, hi, -, -⟩ := hnot hwf
    exact (Decoded.decode fmt).decode_eq.trans (congrArg _ hi)
  | pxpackInvalid fmt =>
    obtain ⟨-, -, hi, -⟩ := hnot hwf
    exact (Decoded.pxpack fmt).decode_eq.trans (congrArg _ hi)
  | pxunpackInvalid fmt =>
    obtain ⟨-, -, -, hi⟩ := hnot hwf
    exact (Decoded.pxunpack fmt).decode_eq.trans (congrArg _ hi)
  | hdrWrite fmt => exact (Decoded.hdrWrite fmt).decode_eq
  | fmtResolve fmt => exact (Decoded.fmtResolve fmt).decode_eq
  | tileLookup idx => exact (Decoded.tileLookup idx).decode_eq
  | hdrRead => rfl
  | encodeRgba8 | encodeRgb8 | encodeA8 | encodeRgb565 | encodeRgba4 | encodeRgba5551 | encodeEtc1 => rfl
  | decodeRgba8 | decodeRgb8 | decodeA8 | decodeRgb565 | decodeRgba4 | decodeRgba5551 | decodeEtc1 => rfl
  | pxpackRgba8 | pxpackRgb8 | pxpackA8 | pxpackRgb565 | pxpackRgba4 | pxpackRgba5551 | pxpackEtc1 => rfl
  | pxunpackRgba8 | pxunpackRgb8 | pxunpackA8 | pxunpackRgb565 | pxunpackRgba4 | pxunpackRgba5551 | pxunpackEtc1 => rfl

/-- Settles O4: each kind of word that decodes is the word of what it decodes to. -/
theorem encodeOfDecode : Obligations.EncodeOfDecode := by
  intro w i h
  cases decoded_of_decode h with
  | encode fmt =>
    obtain ⟨he, -, -, -⟩ := encode_ofFmt fmt
    exact he
  | decode fmt =>
    obtain ⟨-, hd, -, -⟩ := encode_ofFmt fmt
    exact hd
  | pxpack fmt =>
    obtain ⟨-, -, hp, -⟩ := encode_ofFmt fmt
    exact hp
  | pxunpack fmt =>
    obtain ⟨-, -, -, hu⟩ := encode_ofFmt fmt
    exact hu
  | hdrWrite | hdrRead | fmtResolve | tileLookup => exact ⟨rfl, rfl⟩

/-- Settles O1: each word is evaluated. -/
theorem specWordsDecode : Obligations.SpecWordsDecode := by
  unfold Obligations.SpecWordsDecode
  decide

end Sys2Proof.Machine
end

section
/-!
SUPPORT. The whole machine: what every command and every step keeps (10_state.md R20, R27, 20_memory.md R40, R41, 60_exceptions.md R238), read off
their effects.
-/

namespace Sys2Proof.Machine

/-! ### What a command keeps -/

section
variable {s t : State}

/-- A raised status is a code that the block writes (60_exceptions.md R238, R239). -/
theorem writtenCode_of_raised {st : Status} (h : st.Raised) : writtenCode st.code = true := by
  rcases Status.code_of_raised h with h | h | h | h | h <;> rw [h] <;> rfl

theorem CommandEffect.tables (h : CommandEffect s t) : t.tileOrder = s.tileOrder ∧ t.rgb8DecodeAlpha = s.rgb8DecodeAlpha := by
  cases h <;> exact ⟨rfl, rfl⟩

/-- A command keeps the canonical form of the memory. -/
theorem CommandEffect.mem_wf (h : CommandEffect s t) (hw : s.mem.wf = true) : t.mem.wf = true := by
  cases h with
  | status | fault | output => exact hw
  | buffer h buf out => exact State.wf_setBuf hw h out
  | image h img out ho _ _ hwf => exact State.wf_setImg hw h (hwf (State.imgOperand_wf hw ho))
  | freshFile n d bs => exact State.wf_setFile (s := (s.afterDraws d).afterIo n) hw _ bs
  | freshImage n img hwf => exact State.wf_setImg (s := s.afterIo n) hw _ hwf

/-- A command leaves a code that the block writes, and no output beside a status other than OK (10_state.md R27). -/
theorem CommandEffect.port_ok (h : CommandEffect s t) (hp : s.port.Ok) : t.port.Ok := by
  cases h with
  | status n d st hst => exact ⟨writtenCode_of_raised hst, fun _ => rfl⟩
  | fault => exact hp
  | output | buffer | image | freshFile | freshImage => exact ⟨rfl, fun hne => absurd rfl hne⟩

end

/-! ### What a command leaves of the objects -/

section
variable {α : Type} {m : List (Nat × α)}

/-- Rewriting a listed key by a value that is related to its old one leaves every listed key with a related value. -/
theorem Store.find?_put_related {R : α → α → Prop} (hrefl : ∀ v, R v v) {k : Nat} {old new : α} (ho : Store.find? m k = some old)
    (hn : R old new) {k' : Nat} {v : α} (hv : Store.find? m k' = some v) : ∃ v', Store.find? (Store.put m k new) k' = some v' ∧ R v v' := by
  rw [Store.find?_put]
  split
  case isTrue hk =>
    subst hk
    obtain rfl : old = v := Option.some.inj (ho.symm.trans hv)
    exact ⟨new, rfl, hn⟩
  case isFalse => exact ⟨v, hv, hrefl v⟩

/-- Writing the fresh key of a lane leaves every listed key as it is. -/
theorem Store.find?_put_fresh {lane : Nat} {k : Nat} {v : α} (w : α) (hv : Store.find? m k = some v) :
    Store.find? (Store.put m (Store.fresh lane m) w) k = some v := by
  have hne : Store.fresh lane m ≠ k := by
    rintro rfl
    simp at hv
  rw [Store.find?_put_other m w hne, hv]

end

section
variable {s t : State}

/-- Every buffer that is there stays, with its length (20_memory.md R40). -/
theorem CommandEffect.bufs_keep_length (h : CommandEffect s t) {k : Handle} {buf : List Byte} (hk : Store.find? s.mem.bufs k = some buf) :
    ∃ buf', Store.find? t.mem.bufs k = some buf' ∧ buf'.length = buf.length := by
  cases h with
  | buffer h old out ho hl =>
    exact Store.find?_put_related (R := fun a b => b.length = a.length) (fun _ => rfl) (State.bufOperand_eq.1 ho).2 hl hk
  | status | fault | output | image | freshFile | freshImage => exact ⟨buf, hk, rfl⟩

/-- Every image that is there stays, with its size (20_memory.md R41). -/
theorem CommandEffect.imgs_keep_size (h : CommandEffect s t) {k : Handle} {img : Image} (hk : Store.find? s.mem.imgs k = some img) :
    ∃ img', Store.find? t.mem.imgs k = some img' ∧ img'.w = img.w ∧ img'.h = img.h := by
  cases h with
  | image h old out ho hw hh _ =>
    exact Store.find?_put_related (R := fun a b => b.w = a.w ∧ b.h = a.h) (fun _ => ⟨rfl, rfl⟩) (State.imgOperand_eq.1 ho).2 ⟨hw, hh⟩ hk
  | freshImage n new hwf => exact ⟨img, Store.find?_put_fresh new hk, rfl, rfl⟩
  | status | fault | output | buffer | freshFile => exact ⟨img, hk, rfl, rfl⟩

/-- Every file that is there stays as it is (log 14). -/
theorem CommandEffect.files_stay (h : CommandEffect s t) {k : Handle} {f : List Byte} (hk : Store.find? s.mem.files k = some f) :
    Store.find? t.mem.files k = some f := by
  cases h with
  | freshFile n d bs => exact Store.find?_put_fresh bs hk
  | status | fault | output | buffer | image | freshImage => exact hk

end

/-- Settles O58: a command rewrites an object that is there by one of its size, or makes an object under a fresh handle. -/
theorem commandsNeverResize : Obligations.CommandsNeverResize := by
  intro c s t h
  obtain ⟨-, heffect⟩ := runCommand_effect h
  exact ⟨fun _ _ => heffect.bufs_keep_length, fun _ _ => heffect.imgs_keep_size, fun _ _ => heffect.files_stay⟩

/-! ### What a step keeps -/

section
variable {u t : State}

theorem StepEffect.tables (h : StepEffect u t) : t.tileOrder = u.tileOrder ∧ t.rgb8DecodeAlpha = u.rgb8DecodeAlpha := by
  cases h with
  | command t h => exact h.tables
  | turn =>
    obtain ⟨htile, halpha, -⟩ := u.turn_frame
    exact ⟨htile, halpha⟩
  | refused | issue | start | putBuffer | putImage | putFile | reset => exact ⟨rfl, rfl⟩

/-- The invariant's clause on the interfaces speaks of all instances alike. -/
theorem State.inv_iff (s : State) : s.Inv ↔ s.mem.wf = true ∧ TileOk s.tileOrder ∧ (∀ p ∈ s.port :: s.others, p.Ok) ∧ s.LanesDiffer ∧
    (s.faulted = none ∨ s.refused = false) := by
  rw [List.forall_mem_cons]
  exact ⟨fun ⟨hw, ht, hp, ho, hrest⟩ => ⟨hw, ht, ⟨hp, ho⟩, hrest⟩, fun ⟨hw, ht, ⟨hp, ho⟩, hrest⟩ => ⟨hw, ht, hp, ho, hrest⟩⟩

theorem StepEffect.mem_wf (h : StepEffect u t) (hw : u.mem.wf = true) : t.mem.wf = true := by
  cases h with
  | command t h => exact h.mem_wf hw
  | turn =>
    obtain ⟨-, -, hm, -⟩ := u.turn_frame
    rwa [hm]
  | refused | issue | start | reset => exact hw
  | putBuffer h bs => exact State.wf_setBuf hw h bs
  | putImage h w ht px =>
    obtain ⟨-, -, hi, -⟩ := Image.ofPixels_spec w ht px
    exact State.wf_setImg hw h hi
  | putFile h bs => exact State.wf_setFile hw h bs

/-- Every step keeps the interfaces of all instances in order: a reset and a start give the reset interface. -/
theorem StepEffect.ports_ok (h : StepEffect u t) (hp : ∀ p ∈ u.port :: u.others, p.Ok) : ∀ p ∈ t.port :: t.others, p.Ok := by
  have hreset (lane : Nat) : (Port.reset lane).Ok := ⟨rfl, fun _ => rfl⟩
  obtain ⟨hport, hothers⟩ := List.forall_mem_cons.1 hp
  cases h with
  | command t h =>
    obtain ⟨-, -, ho, -⟩ := h.rest
    exact List.forall_mem_cons.2 ⟨h.port_ok hport, ho ▸ hothers⟩
  | turn => exact fun p hm => hp p (u.turn_ports.mem_iff.1 hm)
  | refused | putBuffer | putImage | putFile => exact hp
  | issue => exact List.forall_mem_cons.2 ⟨hport, hothers⟩
  | start =>
    refine List.forall_mem_cons.2 ⟨hport, List.forall_mem_append.2 ⟨hothers, ?_⟩⟩
    exact List.forall_mem_singleton.2 (hreset _)
  | reset =>
    refine List.forall_mem_cons.2 ⟨⟨rfl, fun _ => rfl⟩, List.forall_mem_map.2 fun p _ => ⟨rfl, fun _ => rfl⟩⟩

/-- Every step keeps the lanes apart: only a start adds an interface, with a lane of its own (log 14). -/
theorem StepEffect.lanesDiffer (h : StepEffect u t) (hl : u.LanesDiffer) : t.LanesDiffer := by
  cases h with
  | command t h =>
    obtain ⟨-, -, ho, -⟩ := h.rest
    simpa only [State.LanesDiffer, List.map_cons, h.lane, ho] using hl
  | turn => exact (u.turn_ports.map Port.lane).nodup_iff.2 hl
  | refused | issue | putBuffer | putImage | putFile => exact hl
  | start =>
    have hnew : ∀ p ∈ u.port :: u.others, p.lane ≠ u.nextLane := fun p hp => (State.lt_nextLane hp).ne
    have : (((u.port :: u.others) ++ [Port.reset u.nextLane]).map Port.lane).Nodup := by
      rw [List.map_append, List.nodup_append]
      refine ⟨hl, List.nodup_singleton _, ?_⟩
      simpa [Port.reset] using hnew
    exact this
  | reset =>
    have : (u.others.map Port.restart).map Port.lane = u.others.map Port.lane := by rw [List.map_map]; rfl
    simpa only [State.LanesDiffer, State.resetBlock_port, State.resetBlock_others, List.map_cons, this, Port.restart_lane] using hl

/-- From a state without a mark a step sets one mark at most. -/
theorem StepEffect.one_mark (h : StepEffect u t) (hl : u.Live) : t.faulted = none ∨ t.refused = false := by
  obtain ⟨hf, hr⟩ := hl
  cases h with
  | command t h =>
    obtain ⟨-, -, -, -, hmark⟩ := h.rest
    exact .inr (hmark.trans hr)
  | turn =>
    obtain ⟨-, -, -, -, hfaulted, -⟩ := u.turn_frame
    exact .inl (hfaulted.trans hf)
  | refused | issue | start | putBuffer | putImage | putFile => exact .inl hf
  | reset => exact .inl rfl

end

/-- Settles O56: a step starts from a state without a mark, and each of its effects keeps every clause. -/
theorem stepKeepsInvariant : Obligations.StepKeepsInvariant := by
  intro s t hinv h
  obtain ⟨hl, rest, -, heffect⟩ := step_effect h
  obtain ⟨hwf, htile, hports, hlanes, -⟩ := (State.inv_iff s).1 hinv
  obtain ⟨htables, -⟩ := heffect.tables
  exact (State.inv_iff t).2 ⟨heffect.mem_wf hwf, htables ▸ htile, heffect.ports_ok hports, heffect.lanesDiffer hlanes, heffect.one_mark hl⟩

/-- Settles O57: the two constants are in no effect. -/
theorem constantTablesAreNeverWritten : Obligations.ConstantTablesAreNeverWritten := by
  refine ⟨fun i s t h => (exec_effect h).2.tables, fun s t h => ?_⟩
  obtain ⟨-, rest, -, heffect⟩ := step_effect h
  exact heffect.tables

/-- Settles O54: the reset state is written out. -/
theorem resetValues : Obligations.ResetValues :=
  ⟨rfl, rfl, rfl, rfl, rfl, rfl, rfl⟩

/-- Settles O55: the default table was tested entry by entry, the rest of the reset state is written out. -/
theorem resetMeetsInvariant : Obligations.ResetMeetsInvariant :=
  ⟨⟨rfl, Tests.test_default_table_ok, ⟨rfl, fun _ => rfl⟩, List.forall_mem_nil _, List.nodup_singleton 0, .inl rfl⟩, rfl, rfl⟩

end Sys2Proof.Machine
end

section
/-!
SUPPORT. Which shared meaning each instruction runs, and the statements on running: when a step runs the pending command, when it refuses, and
what the host's actions do (10_state.md R32, 20_memory.md R61, 70_reset_and_hazards.md R271 to R277).
-/

namespace Sys2Proof.Machine

open Sys2Proof.Claims

/-! ### The shared meaning of an instruction -/

/-- A format id that resolves is the id of its format (43_container.md R192). -/
theorem id_of_resolve {fmt : Byte} {f : PixelFormat} (h : resolve fmt = .ok f) : fmt = f.id := by
  unfold resolve at h
  split at h <;> cases h <;> exact byte_eq_of_toNat ‹_›

/-- The shared meaning that an instruction runs. Where the meaning takes a format id with a codec, the instruction is the row of that format, or a
`#nn` term that carries its id, which no word encodes (log 25). -/
inductive Runs (i : Instr) : (State → Host.Outcome State Fault Refusal) → Prop
  | encode (fmt : Byte) (h : ∀ f, resolve fmt = .ok f → i = encodeInstr f ∨ i = .encodeInvalid f.id) : Runs i (encodeCommand fmt)
  | decode (fmt : Byte) (h : ∀ f, resolve fmt = .ok f → i = decodeInstr f ∨ i = .decodeInvalid f.id) : Runs i (decodeCommand fmt)
  | pxpack (fmt : Byte) (h : ∀ f, resolve fmt = .ok f → i = pxpackInstr f ∨ i = .pxpackInvalid f.id) : Runs i (pxpackCommand fmt)
  | pxunpack (fmt : Byte) (h : ∀ f, resolve fmt = .ok f → i = pxunpackInstr f ∨ i = .pxunpackInvalid f.id) : Runs i (pxunpackCommand fmt)
  | hdrWrite (fmt : Byte) (h : i = .hdrWrite fmt) : Runs i (execHdrWrite fmt)
  | hdrRead (h : i = .hdrRead) : Runs i execHdrRead
  | fmtResolve (fmt : Byte) (h : i = .fmtResolve fmt) : Runs i (execFmtResolve fmt)
  | tileLookup (idx : BitVec 6) (h : i = .tileLookup idx) : Runs i (execTileLookup idx)

theorem runs_encodeInstr (f : PixelFormat) : Runs (encodeInstr f) (exec (encodeInstr f)) := by
  rw [funext (exec_encodeInstr f)]
  refine .encode _ fun g hg => .inl ?_
  rw [Except.ok.inj ((resolve_id f).symm.trans hg)]

theorem runs_decodeInstr (f : PixelFormat) : Runs (decodeInstr f) (exec (decodeInstr f)) := by
  rw [funext (exec_decodeInstr f)]
  refine .decode _ fun g hg => .inl ?_
  rw [Except.ok.inj ((resolve_id f).symm.trans hg)]

theorem runs_pxpackInstr (f : PixelFormat) : Runs (pxpackInstr f) (exec (pxpackInstr f)) := by
  rw [funext (exec_pxpackInstr f)]
  refine .pxpack _ fun g hg => .inl ?_
  rw [Except.ok.inj ((resolve_id f).symm.trans hg)]

theorem runs_pxunpackInstr (f : PixelFormat) : Runs (pxunpackInstr f) (exec (pxunpackInstr f)) := by
  rw [funext (exec_pxunpackInstr f)]
  refine .pxunpack _ fun g hg => .inl ?_
  rw [Except.ok.inj ((resolve_id f).symm.trans hg)]

/-- Every instruction runs a shared meaning, row by row of the dispatch. -/
theorem runs_exec (i : Instr) : Runs i (exec i) := by
  cases i with
  | encodeRgba8 => exact runs_encodeInstr .rgba8
  | encodeRgb8 => exact runs_encodeInstr .rgb8
  | encodeA8 => exact runs_encodeInstr .a8
  | encodeRgb565 => exact runs_encodeInstr .rgb565
  | encodeRgba4 => exact runs_encodeInstr .rgba4
  | encodeRgba5551 => exact runs_encodeInstr .rgba5551
  | encodeEtc1 => exact .encode 4 nofun
  | encodeInvalid fmt => exact .encode fmt fun f hf => .inr (congrArg _ (id_of_resolve hf))
  | decodeRgba8 => exact runs_decodeInstr .rgba8
  | decodeRgb8 => exact runs_decodeInstr .rgb8
  | decodeA8 => exact runs_decodeInstr .a8
  | decodeRgb565 => exact runs_decodeInstr .rgb565
  | decodeRgba4 => exact runs_decodeInstr .rgba4
  | decodeRgba5551 => exact runs_decodeInstr .rgba5551
  | decodeEtc1 => exact .decode 4 nofun
  | decodeInvalid fmt => exact .decode fmt fun f hf => .inr (congrArg _ (id_of_resolve hf))
  | pxpackRgba8 => exact runs_pxpackInstr .rgba8
  | pxpackRgb8 => exact runs_pxpackInstr .rgb8
  | pxpackA8 => exact runs_pxpackInstr .a8
  | pxpackRgb565 => exact runs_pxpackInstr .rgb565
  | pxpackRgba4 => exact runs_pxpackInstr .rgba4
  | pxpackRgba5551 => exact runs_pxpackInstr .rgba5551
  | pxpackEtc1 => exact .pxpack 4 nofun
  | pxpackInvalid fmt => exact .pxpack fmt fun f hf => .inr (congrArg _ (id_of_resolve hf))
  | pxunpackRgba8 => exact runs_pxunpackInstr .rgba8
  | pxunpackRgb8 => exact runs_pxunpackInstr .rgb8
  | pxunpackA8 => exact runs_pxunpackInstr .a8
  | pxunpackRgb565 => exact runs_pxunpackInstr .rgb565
  | pxunpackRgba4 => exact runs_pxunpackInstr .rgba4
  | pxunpackRgba5551 => exact runs_pxunpackInstr .rgba5551
  | pxunpackEtc1 => exact .pxunpack 4 nofun
  | pxunpackInvalid fmt => exact .pxunpack fmt fun f hf => .inr (congrArg _ (id_of_resolve hf))
  | hdrWrite fmt => exact .hdrWrite fmt rfl
  | hdrRead => exact .hdrRead rfl
  | fmtResolve fmt => exact .fmtResolve fmt rfl
  | tileLookup idx => exact .tileLookup idx rfl

/-- Every shared meaning checks the marks before anything else. -/
theorem Runs.guarded {i : Instr} {run : State → Host.Outcome State Fault Refusal} (h : Runs i run) (s : State) :
    ∃ o, run s = guarded s o := by
  cases h <;> exact ⟨_, rfl⟩

/-! ### When a step runs the pending command -/

/-- Settles O7: a step and every instruction check the marks first. -/
theorem markedStateHasNoStep : Obligations.MarkedStateHasNoStep := by
  intro s
  refine ⟨fun r hf => ⟨guarded_faulted hf _, fun i => ?_⟩, fun hf hr => ⟨guarded_refused hf hr _, fun i => ?_⟩⟩
  · obtain ⟨o, ho⟩ := (runs_exec i).guarded s
    exact ho.trans (guarded_faulted hf o)
  · obtain ⟨o, ho⟩ := (runs_exec i).guarded s
    exact ho.trans (guarded_refused hf hr o)

/-- Settles O6: without an overlap the step of a state without a host action, and of one that waits for the command, is the command's. -/
theorem stepRunsDecodedInstruction : Obligations.StepRunsDecodedInstruction := by
  intro s w i rest hl hc hd ho
  refine ⟨fun hh => ?_, fun hh => ?_⟩
  · calc step s = runPending s := step_of_no_action hl hh
      _ = runCommand (.word w) s := runPending_of_cmd hc ho
      _ = exec i s := runCommand_of_decode_ok hd s
  · calc step s = runPending { s with host := rest } := step_of_action hl hh
      _ = runCommand (.word w) { s with host := rest } := runPending_of_cmd (s := { s with host := rest }) hc ho
      _ = exec i { s with host := rest } := runCommand_of_decode_ok hd _

/-- An overlap in words: two uses of one object, one of them a write (20_memory.md R61). -/
theorem State.overlapped_iff (s : State) : s.overlapped = true ↔ ∃ q ∈ s.others, ∃ a ∈ s.port.footprint s.mem, ∃ b ∈ q.footprint s.mem,
    a.kind = b.kind ∧ a.handle = b.handle ∧ (a.writes = true ∨ b.writes = true) := by
  simp only [State.overlapped, Port.overlaps, Access.conflicts, List.any_eq_true, Bool.and_eq_true, Bool.or_eq_true, beq_iff_eq, and_assoc]

/-- A pending command that overlaps with another one is refused. -/
theorem runPending_of_overlap {s : State} {c : Command} (hc : s.port.cmd = some c) (ho : s.overlapped = true) :
    runPending s = .next s.setRefused := by
  simp only [runPending, hc, ho, if_true]

/-- A state that a step refuses has no step (60_exceptions.md R251). -/
theorem step_of_refused {s : State} (hf : s.faulted = none) (hr : s.refused = true) : step s = .refused .refusedRun :=
  guarded_refused hf hr _

/-- Settles O8: the two clauses are whether the pending command overlaps. -/
theorem overlappingCommandsAreRefused : Obligations.OverlappingCommandsAreRefused := by
  intro s c hl hh hc
  refine ⟨fun ho => ⟨?_, step_of_refused hl.1 rfl⟩, fun hno => ?_⟩
  · exact (step_of_no_action hl hh).trans (runPending_of_overlap hc ((State.overlapped_iff s).2 ho))
  · have ho : s.overlapped = false := by
      rw [← Bool.not_eq_true, State.overlapped_iff]
      rintro ⟨q, hq, a, ha, b, hb, hk, hhd, hw⟩
      obtain ⟨hra, hrb⟩ := hno q hq a ha b hb hk hhd
      simp [hra, hrb] at hw
    exact (step_of_no_action hl hh).trans (runPending_of_cmd hc ho)

/-! ### What each command uses -/

theorem accessOf_eq_uses (kind : ObjectKind) (writes : Bool) (h : Option Handle) : accessOf kind writes h = uses kind h writes := by
  cases h <;> rfl

theorem encodeOfFmt_id (f : PixelFormat) : encodeOfFmt f.id = encodeInstr f := by
  cases f <;> rfl

theorem decodeOfFmt_id (f : PixelFormat) : decodeOfFmt f.id = decodeInstr f := by
  cases f <;> rfl

/-- Only the classes of ENCODE, DECODE and HDR_READ use objects. -/
theorem wordFootprint_of_class {ops : Operands} {cls : Nat} {fmt : Byte} (h1 : cls ≠ 1) (h2 : cls ≠ 2) (h4 : cls ≠ 4) :
    wordFootprint ops cls fmt = [] := by
  unfold wordFootprint
  split
  case h_4 => rfl
  all_goals contradiction

/-- A format id without a codec uses no object (30_encoding.md R79). -/
theorem wordFootprint_of_unresolved {ops : Operands} {cls : Nat} {fmt : Byte} {st : Status} (h4 : cls ≠ 4) (hr : resolve fmt = .error st) :
    wordFootprint ops cls fmt = [] := by
  unfold wordFootprint
  rw [hr]
  split
  case h_4 => rfl
  all_goals contradiction

/-- The operands of a word that decodes are those of its class and argument. -/
theorem Port.commandOperands_of_decode {p : Port} {w : Half} {i : Instr} (h : decode w = .ok i) :
    p.commandOperands (.word w) = wordFootprint p.ops (Half.cls w).toNat (Half.arg w) := by
  simp only [Port.commandOperands, h]

/-- A word whose instruction is neither ENCODE nor DECODE of a format with a codec, nor HDR_READ, uses no object. -/
theorem Port.commandOperands_of_other {p : Port} {w : Half} {i : Instr} (h : decode w = .ok i)
    (hcodec : ∀ x, i ≠ encodeInstr x ∧ i ≠ decodeInstr x) (hread : i ≠ .hdrRead) : p.commandOperands (.word w) = [] := by
  rw [Port.commandOperands_of_decode h]
  cases decoded_of_decode h with
  | encode fmt =>
    rw [cls_commandWord, arg_commandWord]
    cases hr : resolve fmt with
    | error st => exact wordFootprint_of_unresolved (by decide) hr
    | ok f =>
      obtain rfl := id_of_resolve hr
      exact absurd (encodeOfFmt_id f) (hcodec f).1
  | decode fmt =>
    rw [cls_commandWord, arg_commandWord]
    cases hr : resolve fmt with
    | error st => exact wordFootprint_of_unresolved (by decide) hr
    | ok f =>
      obtain rfl := id_of_resolve hr
      exact absurd (decodeOfFmt_id f) (hcodec f).2
  | hdrRead => exact absurd rfl hread
  | hdrWrite | fmtResolve | tileLookup | pxpack | pxunpack =>
    rw [cls_commandWord]
    exact wordFootprint_of_class (by decide) (by decide) (by decide)

theorem Port.commandOperands_encode {p : Port} {w : Half} {x : PixelFormat} (h : decode w = .ok (encodeInstr x)) :
    p.commandOperands (.word w) = uses .image p.ops.img false ++ uses .buffer p.ops.buf true := by
  obtain ⟨-, rfl⟩ := encodeOfDecode w _ h
  rw [Port.commandOperands_of_decode h, ← accessOf_eq_uses, ← accessOf_eq_uses]
  cases x <;> rfl

theorem Port.commandOperands_decode {p : Port} {w : Half} {x : PixelFormat} (h : decode w = .ok (decodeInstr x)) :
    p.commandOperands (.word w) = uses .buffer p.ops.buf false ++ uses .image p.ops.img true := by
  obtain ⟨-, rfl⟩ := encodeOfDecode w _ h
  rw [Port.commandOperands_of_decode h, ← accessOf_eq_uses, ← accessOf_eq_uses]
  cases x <;> rfl

theorem Port.commandOperands_hdrRead {p : Port} {w : Half} (h : decode w = .ok .hdrRead) :
    p.commandOperands (.word w) = uses .file p.ops.file false := by
  obtain ⟨-, rfl⟩ := encodeOfDecode w _ h
  exact accessOf_eq_uses _ _ _

theorem Port.operands_of_cmd {p : Port} {c : Command} (hc : p.cmd = some c) : p.operands = p.commandOperands c := by
  simp only [Port.operands, hc]

theorem Port.footprint_of_cmd {p : Port} {c : Command} (hc : p.cmd = some c) (m : Memory) : p.footprint m = p.commandFootprint m c := by
  simp only [Port.footprint, hc]

/-- Settles O9: a word uses its operands only, by its class and format id; a whole-container sequence uses its fresh object too. -/
theorem footprintOfCommands : Obligations.FootprintOfCommands := by
  intro p m
  refine ⟨fun hc => ?_, fun w hc => ?_, fun fmt x hc hr => ?_, fun fmt st hc hr => ?_, fun hc => ?_⟩
  · simp only [Port.operands, Port.footprint, hc, and_self]
  · rw [Port.operands_of_cmd hc, Port.footprint_of_cmd hc]
    refine ⟨rfl, fun x => Port.commandOperands_encode, fun x => Port.commandOperands_decode, Port.commandOperands_hdrRead,
      fun i => Port.commandOperands_of_other, fun e he => ?_⟩
    simp only [Port.commandOperands, he]
  · simp only [Port.operands_of_cmd hc, Port.footprint_of_cmd hc, Port.commandFootprint, Port.commandOperands, hr, accessOf_eq_uses, uses,
      Option.toList_some, List.map_cons, List.map_nil, and_self]
  · simp only [Port.operands_of_cmd hc, Port.footprint_of_cmd hc, Port.commandFootprint, Port.commandOperands, hr, and_self]
  · rw [Port.operands_of_cmd hc, Port.footprint_of_cmd hc, ← accessOf_eq_uses]
    exact ⟨rfl, rfl⟩

/-! ### The host's actions -/

/-- An object in use in words: the running command of some port has it as an operand (70_reset_and_hazards.md R277). -/
theorem State.inUse_iff {s : State} {kind : ObjectKind} {h : Handle} :
    s.inUse kind h = true ↔ ∃ p ∈ s.port :: s.others, ∃ x ∈ p.operands, x.kind = kind ∧ x.handle = h := by
  simp only [State.inUse, List.any_eq_true, Bool.and_eq_true, beq_iff_eq]

theorem State.not_inUse {s : State} {kind : ObjectKind} {h : Handle}
    (hfree : ∀ p ∈ s.port :: s.others, ∀ x ∈ p.operands, x.kind = kind → x.handle ≠ h) : ¬s.inUse kind h = true := by
  rw [State.inUse_iff]
  rintro ⟨p, hp, x, hx, hk, hh⟩
  exact hfree p hp x hx hk hh

/-- Settles O10: each of the four actions tests what it writes, and refuses where that is in use. -/
theorem hostWriteToOperandInUse : Obligations.HostWriteToOperandInUse := by
  intro s a rest hl hh hwrite
  refine ⟨(step_of_action hl hh).trans ?_, step_of_refused hl.1 rfl⟩
  obtain ⟨kind, h, hkind, huse⟩ | ⟨hcmd, c, ops, rfl⟩ := hwrite
  · have hin : State.inUse { s with host := rest } kind h = true := State.inUse_iff.2 huse
    obtain ⟨rfl, bs, rfl⟩ | ⟨rfl, w, ht, px, rfl⟩ | ⟨rfl, bs, rfl⟩ := hkind <;> exact if_pos hin
  · exact if_pos (Option.isSome_iff_ne_none.2 hcmd)

/-- What a write of one object leaves unwritten. -/
theorem sameBufs_put (m : Memory) (h : Handle) (bs : List Byte) : SameBufs m { m with bufs := Store.put m.bufs h bs } (some h) := by
  intro k o hk
  simp only [bufByte, Store.find?_put_other m.bufs bs fun hkh => hk (congrArg some hkh)]

theorem sameFiles_put (m : Memory) (h : Handle) (bs : List Byte) : SameFiles m { m with files := Store.put m.files h bs } (some h) := by
  intro k o hk
  simp only [fileByteAt, Store.find?_put_other m.files bs fun hkh => hk (congrArg some hkh)]

theorem sameImgs_put (m : Memory) (h : Handle) (img : Image) : SameImgs m { m with imgs := Store.put m.imgs h img } (some h) := by
  intro k x y hk
  simp only [imgPixel, Store.find?_put_other m.imgs img fun hkh => hk (congrArg some hkh)]

/-- Settles O11: a write that is not refused puts the object under its handle and leaves every other one. -/
theorem hostWriteToFreeObject : Obligations.HostWriteToFreeObject := by
  intro s h rest hl
  refine ⟨fun bs hh hfree => ?_, fun bs hh hfree => ?_, fun w ht px hh hfree => ?_⟩
  · refine ⟨State.setBuf { s with host := rest } h bs, (step_of_action hl hh).trans (if_neg (State.not_inUse hfree)), fun o => ?_, sameBufs_put s.mem h bs,
      fun _ _ _ => rfl, fun _ _ _ _ => rfl, rfl, rfl, rfl, hl.2⟩
    simp [bufByte]
  · refine ⟨State.setFile { s with host := rest } h bs, (step_of_action hl hh).trans (if_neg (State.not_inUse hfree)), fun o => ?_, fun _ _ _ => rfl,
      sameFiles_put s.mem h bs, fun _ _ _ _ => rfl, rfl, rfl, rfl, hl.2⟩
    simp [fileByteAt]
  · obtain ⟨-, -, -, hread⟩ := Image.ofPixels_spec w ht px
    refine ⟨State.setImg { s with host := rest } h (Image.ofPixels w ht px), (step_of_action hl hh).trans (if_neg (State.not_inUse hfree)), fun x y => ?_,
      fun _ _ _ => rfl, fun _ _ _ => rfl, sameImgs_put s.mem h _, rfl, rfl, rfl, hl.2⟩
    simp only [imgPixel, State.setImg_mem, Store.find?_put_self, Option.map_some]
    exact congrArg some (hread x y)

/-- Settles O12: the reset is done whatever is pending, on every interface. -/
theorem resetAbortsRunningCommand : Obligations.ResetAbortsRunningCommand := by
  intro s rest hl hh
  refine ⟨State.resetBlock { s with host := rest }, step_of_action hl hh, rfl, rfl, rfl, rfl, rfl, rfl, List.length_map _, ?_⟩
  have hrestart (p : Port) : p.restart.cmd = none ∧ p.restart.result = .empty ∧ p.restart.ops.img = none ∧ p.restart.ops.buf = none ∧
      p.restart.ops.file = none ∧ p.restart.ops = Operands.reset ∧ p.restart.status = 0 := ⟨rfl, rfl, rfl, rfl, rfl, rfl, rfl⟩
  exact List.forall_mem_cons.2 ⟨hrestart s.port, List.forall_mem_map.2 fun p _ => hrestart p⟩

/-- Settles O13: an idle port takes the command, and without a host action the next step runs it. -/
theorem issuedCommandIsPending : Obligations.IssuedCommandIsPending := by
  intro s c ops rest hl hh hc t
  refine ⟨(step_of_action hl hh).trans (if_neg ?_), fun hrest ho => ?_⟩
  · simp [hc]
  · exact (step_of_no_action (s := t) hl hrest).trans (runPending_of_cmd rfl ho)

/-- Settles O14: without a command the turn passes on, and a start adds an interface with a lane above all others. -/
theorem idleInstanceWaits : Obligations.IdleInstanceWaits := by
  refine ⟨fun s hl hh hc => ?_, fun s rest hl hh => ?_⟩
  · have hturn : step s = .next s.turn := by rw [step_of_no_action hl hh, runPending, hc]
    refine ⟨fun ho => ?_, fun q qs ho => ?_⟩ <;> rw [hturn, State.turn, ho]
  · exact ⟨s.nextLane, step_of_action hl hh, fun p hp => (State.lt_nextLane hp).ne⟩

end Sys2Proof.Machine
end

section
/-!
SUPPORT. The laws of the packed pixels: the `#nn` rows (30_encoding.md R79), RGBA5551 in plain arithmetic, round trips and independent channels
(42_pixel_formats.md R150, R155, R156).
-/

namespace Sys2Proof.Machine

open Sys2Proof.Claims

/-- Settles O18: an id without a name does not resolve, so each of the four commands ends there, before it reads an operand. -/
theorem invalidFormatIdsEndWithStatus2 : Obligations.InvalidFormatIdsEndWithStatus2 := by
  intro fmt s hl hnot
  have hr : resolve fmt = .error .invalidFormatId := resolve_of_not_named hnot
  exact ⟨encodeCommand_of_error hl hr, decodeCommand_of_error hl hr, pxpackCommand_of_error hl hr, pxunpackCommand_of_error hl hr⟩

/-- Settles O24: the fields of RGBA5551 do not overlap, so they add up to the word. -/
theorem pxpackRgba5551 : Obligations.PxpackRgba5551 := by
  refine ⟨by decide, fun r g b a s hl hp => exec_pxpackInstr_live (f := .rgba5551) hl ?_⟩
  rw [hp, pack, le16_eq_bytesOf16, toNat_word5551]

/-! ### Pack after unpack, and unpack after pack -/

/-- Cutting the lower bits of a channel twice is cutting them once. -/
theorem byte_truncate_twice (c : Byte) (k : Nat) : (((c >>> k) <<< k) >>> k) <<< k = (c >>> k) <<< k := by
  have hle : c.toNat / 2 ^ k * 2 ^ k < 2 ^ 8 := (Nat.div_mul_le_self _ _).trans_lt c.isLt
  rw [byte_ushiftRight_shiftLeft, byte_ushiftRight_shiftLeft, BitVec.toNat_ofNat, Nat.mod_eq_of_lt hle,
    Nat.mul_div_cancel _ (Nat.two_pow_pos k)]

theorem byte_div_mul16_twice (c : Byte) : c / 16 * 16 / 16 * 16 = c / 16 * 16 := by
  have hc := c.isLt
  rw [byte_div_mul16, byte_div_mul16, BitVec.toNat_ofNat]
  congr 1
  omega

/-- What a format stores of a stored pixel is that pixel (42_pixel_formats.md R155 (c)). -/
theorem storedPixel_storedPixel (alpha : Byte) (f : PixelFormat) (p : Pixel) :
    storedPixel alpha f (storedPixel alpha f p) = storedPixel alpha f p := by
  cases f with
  | rgba8 | rgb8 | a8 => rfl
  | rgb565 => simp only [storedPixel, byte_truncate_twice]
  | rgba4 => simp only [storedPixel, byte_div_mul16_twice]
  | rgba5551 =>
    simp only [storedPixel, byte_truncate_twice]
    split <;> rfl

/-- Settles O27: the round trip of one pixel leaves what the format stores, of which nothing more is lost. -/
theorem unpackOfPackTruncates : Obligations.UnpackOfPackTruncates :=
  fun alpha f p => ⟨unpack_pack alpha f p, storedPixel_storedPixel alpha f p⟩

/-- The bytes of a word read from two bytes are those bytes. -/
theorem le16_fromLe16 (b0 b1 : Byte) : le16 (fromLe16 b0 b1) = [b0, b1] := by
  have h0 := b0.isLt
  have h1 := b1.isLt
  have hlow : (b0.toNat + 256 * b1.toNat) % 256 = b0.toNat := by omega
  have hhigh : (b0.toNat + 256 * b1.toNat) / 256 = b1.toNat := by omega
  rw [le16_eq, toNat_fromLe16, hlow, hhigh, BitVec.ofNat_toNat, BitVec.ofNat_toNat, BitVec.setWidth_eq, BitVec.setWidth_eq]

theorem word565_unpack565 (v : Half) : word565 (unpack565 v) = v := by
  have hv := v.isLt
  rw [← BitVec.toNat_inj, toNat_word565]
  simp only [unpack565, widen5_eq, widen6_eq, BitVec.toNat_ofNat]
  omega

theorem word5551_unpack5551 (v : Half) : word5551 (unpack5551 v) = v := by
  have hv := v.isLt
  have hbit : (widen1 v).toNat / 255 = v.toNat % 2 := by
    rw [widen1_eq]
    split
    · rw [‹v.toNat % 2 = 1›]; rfl
    · have : v.toNat % 2 = 0 := by omega
      rw [this]; rfl
  rw [← BitVec.toNat_inj, toNat_word5551]
  simp only [unpack5551, hbit, widen5_eq, BitVec.toNat_ofNat]
  omega

/-- The nibbles of a byte, widened and quantized again, are the byte (42_pixel_formats.md R148, R149). -/
theorem nibbles_widen4 (b : Byte) : field4 (widen4 b 0) ||| (field4 (widen4 b 4) <<< 4) = b := by
  have hb := b.isLt
  rw [nibbles_eq, ← BitVec.toNat_inj]
  simp only [widen4_eq, BitVec.toNat_ofNat]
  omega

/-- Packing an unpacked group gives its bytes back (42_pixel_formats.md R155 (b)). -/
theorem pack_of_unpack {alpha : Byte} {f : PixelFormat} {bs : List Byte} {p : Pixel} (hlen : bs.length = bpp f)
    (hu : unpack alpha f bs = .ok p) : pack f p = bs := by
  match f, bs, hlen with
  | .rgba8, [b0, b1, b2, b3], _ | .rgb8, [b0, b1, b2], _ | .a8, [b0], _ =>
    obtain rfl := Except.ok.inj hu
    rfl
  | .rgb565, [b0, b1], _ =>
    obtain rfl := Except.ok.inj hu
    rw [pack, word565_unpack565, le16_fromLe16]
  | .rgba5551, [b0, b1], _ =>
    obtain rfl := Except.ok.inj hu
    rw [pack, word5551_unpack5551, le16_fromLe16]
  | .rgba4, [b0, b1], _ =>
    obtain rfl := Except.ok.inj hu
    rw [pack, nibbles_widen4, nibbles_widen4]

/-- Settles O28: every bit of a group is a bit of some channel's field. -/
theorem packOfUnpackIsIdentity : Obligations.PackOfUnpackIsIdentity :=
  fun _ _ _ _ => pack_of_unpack

/-! ### The channels' fields -/

/-- Where a channel's field stands in the packed number: its lowest bit and its number of bits (30_encoding.md R82 to R87). -/
def fieldPlace : PixelFormat → Channel → Nat × Nat
  | .rgba8, .red => (24, 8)
  | .rgba8, .green => (16, 8)
  | .rgba8, .blue => (8, 8)
  | .rgba8, .alpha => (0, 8)
  | .rgb8, .red => (16, 8)
  | .rgb8, .green => (8, 8)
  | .rgb8, .blue => (0, 8)
  | .rgb8, .alpha => (0, 0)
  | .a8, .alpha => (0, 8)
  | .a8, _ => (0, 0)
  | .rgb565, .red => (11, 5)
  | .rgb565, .green => (5, 6)
  | .rgb565, .blue => (0, 5)
  | .rgb565, .alpha => (0, 0)
  | .rgba4, .red => (12, 4)
  | .rgba4, .green => (8, 4)
  | .rgba4, .blue => (4, 4)
  | .rgba4, .alpha => (0, 4)
  | .rgba5551, .red => (11, 5)
  | .rgba5551, .green => (6, 5)
  | .rgba5551, .blue => (1, 5)
  | .rgba5551, .alpha => (0, 1)

/-- What a format stores of a channel in its field: the channel's upper bits (42_pixel_formats.md R154). -/
def quantized (f : PixelFormat) (c : Channel) (v : Byte) : Nat :=
  match f, c with
  | .rgba5551, .alpha => v.toNat / 255
  | _, _ => v.toNat / 2 ^ (8 - (fieldPlace f c).2)

/-- What a format gives for a channel whose field holds this: the field at the top of the byte, or the format's fixed value
(42_pixel_formats.md R155). -/
def widened (alpha : Byte) (f : PixelFormat) (c : Channel) (n : Nat) : Byte :=
  match f, c with
  | .rgb8, .alpha => alpha
  | .rgb565, .alpha => 255
  | .rgba5551, .alpha => if n = 1 then 255 else 0
  | _, _ => BitVec.ofNat 8 (n * 2 ^ (8 - (fieldPlace f c).2))

/-- The bits of a number under a mask of consecutive bits, in plain arithmetic. -/
theorem and_consecutive (n lo len : Nat) : n &&& ((2 ^ len - 1) <<< lo) = bitsOf n lo len <<< lo := by
  refine Nat.eq_of_testBit_eq fun i => ?_
  simp only [bitsOf, Nat.testBit_and, Nat.testBit_shiftLeft, Nat.testBit_mod_two_pow, Nat.testBit_div_two_pow, Nat.testBit_two_pow_sub_one]
  by_cases hi : lo ≤ i
  · simp [hi, Bool.and_comm, Nat.sub_add_cancel hi]
  · simp [hi]

/-- The mask of a channel is that of its field's place. -/
theorem toNat_fieldMask (f : PixelFormat) (c : Channel) : (fieldMask f c).toNat = (2 ^ (fieldPlace f c).2 - 1) <<< (fieldPlace f c).1 := by
  cases f <;> cases c <;> rfl

/-- The fields of two channels share no bit: by evaluation, format by format. -/
theorem fieldMask_disjoint (f : PixelFormat) (c d : Channel) (h : c ≠ d) : fieldMask f c &&& fieldMask f d = 0 := by
  revert h
  cases f <;> cases c <;> cases d <;> decide

/-- Two numbers agree under a channel's mask where they agree on the bits of its field. -/
theorem and_fieldMask_eq_iff (f : PixelFormat) (c : Channel) (x y : BitVec 32) : x &&& fieldMask f c = y &&& fieldMask f c ↔
    bitsOf x.toNat (fieldPlace f c).1 (fieldPlace f c).2 = bitsOf y.toNat (fieldPlace f c).1 (fieldPlace f c).2 := by
  rw [← BitVec.toNat_inj, BitVec.toNat_and, BitVec.toNat_and, toNat_fieldMask, and_consecutive, and_consecutive, Nat.shiftLeft_eq,
    Nat.shiftLeft_eq, Nat.mul_left_inj (by positivity)]

/-- A 16-bit group as a number is its word (30_encoding.md R85 to R87). -/
theorem toNat_groupNumber_le16 (v : Half) : (groupNumber (le16 v)).toNat = v.toNat := by
  have hv := v.isLt
  simp only [le16_eq, groupNumber, List.foldr_cons, List.foldr_nil, BitVec.toNat_ofNat]
  omega

/-- The RGBA4 group as a number: four nibbles (30_encoding.md R86). -/
theorem toNat_groupNumber_rgba4 (p : Pixel) : (groupNumber (pack .rgba4 p)).toNat =
    p.a.toNat / 16 + 16 * (p.b.toNat / 16) + 256 * (p.g.toNat / 16) + 4096 * (p.r.toNat / 16) := by
  have hr := p.r.isLt
  have hg := p.g.isLt
  have hb := p.b.isLt
  have ha := p.a.isLt
  simp only [pack_rgba4_eq, groupNumber, List.foldr_cons, List.foldr_nil, BitVec.toNat_ofNat]
  omega

/-- The bits of a channel's field in a packed pixel are the channel's quantization (30_encoding.md R82 to R87). -/
theorem bitsOf_groupNumber_pack (f : PixelFormat) (c : Channel) (p : Pixel) :
    bitsOf (groupNumber (pack f p)).toNat (fieldPlace f c).1 (fieldPlace f c).2 = quantized f c (channelOf c p) := by
  have hr := p.r.isLt
  have hg := p.g.isLt
  have hb := p.b.isLt
  have ha := p.a.isLt
  cases f with
  | rgba8 | rgb8 | a8 =>
    cases c <;> simp [groupNumber, pack, bitsOf, fieldPlace, quantized, channelOf] <;> omega
  | rgb565 =>
    rw [pack, toNat_groupNumber_le16, toNat_word565]
    cases c <;> simp only [bitsOf, fieldPlace, quantized, channelOf] <;> omega
  | rgba5551 =>
    rw [pack, toNat_groupNumber_le16, toNat_word5551]
    cases c <;> simp only [bitsOf, fieldPlace, quantized, channelOf] <;> omega
  | rgba4 =>
    rw [toNat_groupNumber_rgba4]
    cases c <;> simp only [bitsOf, fieldPlace, quantized, channelOf] <;> omega

/-- Alpha has its one bit of RGBA5551 for 255 only (42_pixel_formats.md R150). -/
theorem div255_eq_one_iff (a : Byte) : a.toNat / 255 = 1 ↔ a = 255 := by
  have ha := a.isLt
  rw [← BitVec.toNat_inj, show (255 : Byte).toNat = 255 from rfl]
  omega

/-- What a format stores of a channel is its quantization widened, or the format's fixed value. -/
theorem channelOf_storedPixel (alpha : Byte) (f : PixelFormat) (c : Channel) (p : Pixel) :
    channelOf c (storedPixel alpha f p) = widened alpha f c (quantized f c (channelOf c p)) := by
  have hwhole (v : Byte) : v = BitVec.ofNat 8 (v.toNat / 2 ^ 0 * 2 ^ 0) := by simp
  have hnone (v : Byte) : 0 = BitVec.ofNat 8 (v.toNat / 2 ^ 8 * 2 ^ 8) := by
    rw [Nat.div_eq_of_lt v.isLt]
    rfl
  cases f with
  | rgba8 => cases c <;> exact hwhole _
  | rgb8 =>
    cases c
    case alpha => rfl
    all_goals exact hwhole _
  | a8 =>
    cases c
    case alpha => exact hwhole _
    all_goals exact hnone _
  | rgb565 =>
    cases c
    case alpha => rfl
    all_goals exact byte_ushiftRight_shiftLeft _ _
  | rgba4 => cases c <;> exact byte_div_mul16 _
  | rgba5551 =>
    cases c
    case alpha => simp only [channelOf, storedPixel, widened, quantized, div255_eq_one_iff]
    all_goals exact byte_ushiftRight_shiftLeft _ _

/-- Settles O29: a packed field is its channel's quantization, and an unpacked pixel is what the format stores of itself. -/
theorem channelsAreIndependentLanes : Obligations.ChannelsAreIndependentLanes := by
  intro f
  refine ⟨fun c d hcd => ?_, ?_, fun c p q hpq => ?_, fun alpha c bs bs' p q hlen hlen' hp hq h => ?_⟩
  · exact fieldMask_disjoint f c d hcd
  · cases f <;> rfl
  · rw [and_fieldMask_eq_iff, bitsOf_groupNumber_pack, bitsOf_groupNumber_pack, hpq]
  · have hstored {bs : List Byte} {p : Pixel} (hlen : bs.length = bpp f) (hp : unpack alpha f bs = .ok p) : storedPixel alpha f p = p := by
      refine Except.ok.inj ((unpack_pack alpha f p).symm.trans ?_)
      rw [pack_of_unpack hlen hp, hp]
    rw [and_fieldMask_eq_iff, ← pack_of_unpack hlen hp, ← pack_of_unpack hlen' hq, bitsOf_groupNumber_pack, bitsOf_groupNumber_pack] at h
    rw [← hstored hlen hp, ← hstored hlen' hq, channelOf_storedPixel, channelOf_storedPixel, h]

end Sys2Proof.Machine
end

section
/-!
SUPPORT. BlockEncode and BlockDecode as wholes: when they complete, what they leave and how they fault (41_codec_engines.md R106 to R114,
60_exceptions.md R241, R246 to R249), and the commands that run them.
-/

namespace Sys2Proof.Machine

open Sys2Proof.Claims

/-! ### The traversal -/

/-- Settles O36: the closed form of each offset, and the offsets in the order of the traversal. -/
theorem groupOffsets : Obligations.GroupOffsets :=
  fun f nbx nby => ⟨fun _ hc => offset_closed hc, offsets_traversal (bpp f) nbx nby⟩

/-- Settles O37: in a table without repetition the positions of the cursors are the visited region, each once. -/
theorem visitedRegionExactlyOnce : Obligations.VisitedRegionExactlyOnce := by
  intro t n nbx nby ht
  refine ⟨nodup_traversal n nbx nby, fun c hc => pos_lt t hc, fun x hx y hy => ?_⟩
  obtain ⟨c, hc, rfl, rfl⟩ := exists_pos ht n hx hy
  exact ⟨c, hc, rfl, rfl, fun d hd hdx hdy => pos_inj ht hd hc hdx hdy⟩

/-- The number of blocks along an edge in range is at most 4095 (41_codec_engines.md R112). -/
theorem blocks_le {w : Nat} (h : w ≤ 32767) : w / 8 ≤ 4095 := by
  omega

/-- Settles O40: the number of steps and the end of the last group grow with the grid, whose edges are at most 4095 blocks. -/
theorem traversalStaysBelowBounds : Obligations.TraversalStaysBelowBounds := by
  intro t f w h
  refine ⟨length_traversal _ _ _, fun hw hh => ?_⟩
  have hblocks : w / 8 * (h / 8) ≤ 4095 * 4095 := Nat.mul_le_mul (blocks_le hw) (blocks_le hh)
  refine ⟨(length_traversal _ _ _).trans_le (Nat.mul_le_mul_right 64 hblocks), fun c hc => ⟨?_, ?_⟩⟩
  · calc c.offset (bpp f) + bpp f ≤ w / 8 * (h / 8) * 64 * bpp f := offset_add_le hc
      _ ≤ 4095 * 4095 * 64 * 4 := Nat.mul_le_mul (Nat.mul_le_mul_right 64 hblocks) (bpp_le_four f)
  · have hpos := pos_lt t hc
    omega

/-! ### BlockEncode -/

section
variable {t : TileTable} {f : PixelFormat} {img : Image} {buf : List Byte}

/-- A natural number up to 32767 is in range. -/
theorem dimOk_natCast {v : Nat} (h : v ≤ 32767) : dimOk (v : Int) = true :=
  (dimOk_iff _).2 ⟨Int.natCast_nonneg v, Int.ofNat_le.2 h⟩

/-- BlockEncode of a covered image in range into a long enough buffer completes (70_reset_and_hazards.md R274). -/
theorem blockEncode_completes (hw : img.w ≤ 32767) (hh : img.h ≤ 32767) (hn : need f img.w img.h ≤ buf.length) (hc : img.Covered) :
    ∃ out, blockEncode t f img buf = .ok out := by
  rw [blockEncode_eq (dimOk_natCast hw) (dimOk_natCast hh) hn]
  refine encodeLoop_completes (fun c hcm => ?_) (offset_le_of_need hn)
  obtain ⟨hx, hy⟩ := pos_lt t hcm
  have hok := hc _ hx _ hy
  cases hr : img.read (c.x t) (c.y t) with
  | ok p => exact ⟨p, rfl⟩
  | error r =>
    rw [hr] at hok
    cases hok

/-- What a completed BlockEncode leaves: the length, the groups of the visited pixels, and every byte from `need` on. -/
theorem blockEncode_holds {out : List Byte} (h : blockEncode t f img buf = .ok out) :
    out.length = buf.length ∧ HoldsGroups t f img out ∧ ∀ o, need f img.w img.h ≤ o → out[o]? = buf[o]? := by
  obtain ⟨-, -, -, hloop⟩ := blockEncode_ok h
  obtain ⟨hlen, hframe⟩ := encodeLoop_frame hloop
  refine ⟨hlen, fun row hr col hc i => encodeLoop_group hloop hr hc i, fun o ho => hframe o fun c hc hin => ?_⟩
  have hend : c.offset (bpp f) + bpp f ≤ need f img.w img.h := offset_add_le hc
  omega

/-- An unwritten visited pixel is the fault UnwrittenPixel, after the other checks (60_exceptions.md R241, R249). -/
theorem blockEncode_of_unwritten (ht : TileInjective t) (hw : img.w ≤ 32767) (hh : img.h ≤ 32767)
    (hn : need f img.w img.h ≤ buf.length) (hu : ∃ x < img.w / 8 * 8, ∃ y < img.h / 8 * 8, img.read x y = .error .unwrittenPixel) :
    blockEncode t f img buf = .error .unwrittenPixel := by
  obtain ⟨x, hx, y, hy, hread⟩ := hu
  obtain ⟨c, hc, rfl, rfl⟩ := exists_pos ht (bpp f) hx hy
  rw [blockEncode_eq (dimOk_natCast hw) (dimOk_natCast hh) hn]
  cases hloop : encodeLoop t f img (traversal (bpp f) (img.w / 8) (img.h / 8)) buf with
  | error r =>
    obtain ⟨rfl, -⟩ := encodeLoop_error (pos_lt_image t) (offset_le_of_need hn) hloop
    rfl
  | ok out =>
    obtain ⟨p, hp, -⟩ := encodeLoop_writes (pairwise_offsets _ _ _) hloop c hc
    rw [hread] at hp
    cases hp

/-- BlockEncode of an image without a written pixel changes no byte: it completes only where it visits none. -/
theorem blockEncode_fresh {w h : Nat} {out : List Byte} (he : blockEncode t f (Image.fresh w h) buf = .ok out) : out = buf := by
  obtain ⟨-, -, -, hloop⟩ := blockEncode_ok he
  refine List.ext_getElem? fun o => (encodeLoop_frame hloop).2 o fun c hc => ?_
  obtain ⟨p, hp, -⟩ := encodeLoop_writes (pairwise_offsets _ _ _) hloop c hc
  rw [Image.read_fresh] at hp
  split at hp <;> cases hp

end

/-! ### BlockDecode -/

section
variable {t : TileTable} {alpha : Byte} {f : PixelFormat} {img : Image} {buf : List Byte} {w h : Int}

/-- BlockDecode in range, from a long enough buffer into an image that covers the visited region, completes (70_reset_and_hazards.md R274). -/
theorem blockDecode_completes (hw : dimOk w = true) (hh : dimOk h = true) (hn : need f w.toNat h.toNat ≤ buf.length)
    (hiw : w.toNat / 8 * 8 ≤ img.w) (hih : h.toNat / 8 * 8 ≤ img.h) : ∃ out, blockDecode t alpha f buf w h img = .ok out := by
  rw [blockDecode_eq hw hh hn]
  refine decodeLoop_completes (offset_le_of_need hn) fun c hc => ?_
  have hpos := pos_lt t hc
  omega

/-- What a completed BlockDecode leaves: the size, and in the visited region the pixels of the groups. -/
theorem blockDecode_holds (ht : TileInjective t) {out : Image} (hd : blockDecode t alpha f buf w h img = .ok out) :
    out.w = img.w ∧ out.h = img.h ∧ HoldsPixels t alpha f buf w.toNat h.toNat out := by
  obtain ⟨-, -, -, hloop⟩ := blockDecode_ok hd
  obtain ⟨hw, hh, -, -⟩ := decodeLoop_frame hloop
  exact ⟨hw, hh, fun row hr col hc i => decodeLoop_pixel ht hloop hr hc i⟩

/-- A completed BlockDecode leaves every pixel outside the visited region (41_codec_engines.md R110). -/
theorem blockDecode_frame {out : Image} (hd : blockDecode t alpha f buf w h img = .ok out) {x y : Nat}
    (hxy : w.toNat / 8 * 8 ≤ x ∨ h.toNat / 8 * 8 ≤ y) : out.read x y = img.read x y := by
  obtain ⟨-, -, -, hloop⟩ := blockDecode_ok hd
  obtain ⟨-, -, -, hframe⟩ := decodeLoop_frame hloop
  refine hframe x y fun c hc hat => ?_
  have hpos := pos_lt t hc
  omega

/-- A visited pixel outside the image is the fault ImageBounds, after the other checks (60_exceptions.md R241, R248). -/
theorem blockDecode_of_outside (ht : TileInjective t) (hw : dimOk w = true) (hh : dimOk h = true) (hn : need f w.toNat h.toNat ≤ buf.length)
    (hout : ∃ x < w.toNat / 8 * 8, ∃ y < h.toNat / 8 * 8, img.w ≤ x ∨ img.h ≤ y) :
    blockDecode t alpha f buf w h img = .error .imageBounds := by
  obtain ⟨x, hx, y, hy, hxy⟩ := hout
  obtain ⟨c, hc, rfl, rfl⟩ := exists_pos ht (bpp f) hx hy
  rw [blockDecode_eq hw hh hn]
  cases hloop : decodeLoop t alpha f buf (traversal (bpp f) (w.toNat / 8) (h.toNat / 8)) img with
  | error r =>
    obtain ⟨rfl, -⟩ := decodeLoop_error (offset_le_of_need hn) hloop
    rfl
  | ok out =>
    obtain ⟨p, -, hp⟩ := decodeLoop_writes (pairwise_pos ht _ _ _) hloop c hc
    obtain ⟨hw', hh', -, -⟩ := decodeLoop_frame hloop
    rw [Image.read, if_neg (by omega)] at hp
    cases hp

end

/-! ### ENCODE and DECODE -/

section
variable {f : PixelFormat} {s : State} (hl : s.Live)
include hl

theorem exec_encodeInstr_of_error {r : FaultReason} (h : blockEncode s.tileOrder f s.imgValue s.bufValue = .error r) :
    exec (encodeInstr f) s = .next (s.takeFault r) := by
  rw [exec_encodeInstr, encodeCommand_of_ok hl (resolve_id f), State.afterEncode_of_error h]

theorem exec_encodeInstr_of_ok {out : List Byte} (h : blockEncode s.tileOrder f s.imgValue s.bufValue = .ok out) :
    exec (encodeInstr f) s = .next ((s.writeBuf out).endOk (.buffer s.port.ops.buf)) := by
  rw [exec_encodeInstr, encodeCommand_of_ok hl (resolve_id f), State.afterEncode_of_ok h]

theorem exec_decodeInstr_of_error {r : FaultReason}
    (h : blockDecode s.tileOrder s.rgb8DecodeAlpha f s.bufValue s.port.ops.argW s.port.ops.argH s.imgValue = .error r) :
    exec (decodeInstr f) s = .next (s.takeFault r) := by
  rw [exec_decodeInstr, decodeCommand_of_ok hl (resolve_id f), State.afterDecode_of_error h]

theorem exec_decodeInstr_of_ok {out : Image}
    (h : blockDecode s.tileOrder s.rgb8DecodeAlpha f s.bufValue s.port.ops.argW s.port.ops.argH s.imgValue = .ok out) :
    exec (decodeInstr f) s = .next ((s.writeImg out).endOk (.image s.port.ops.img)) := by
  rw [exec_decodeInstr, decodeCommand_of_ok hl (resolve_id f), State.afterDecode_of_ok h]

/-- ENCODE into a buffer that is there. -/
theorem exec_encodeInstr_writes {bh : Handle} {buf out : List Byte} (hb : s.bufOperand = some (bh, buf))
    (h : blockEncode s.tileOrder f s.imgValue s.bufValue = .ok out) :
    exec (encodeInstr f) s = .next ((s.setBuf bh out).endOk (.buffer (some bh))) := by
  rw [exec_encodeInstr_of_ok hl h, State.writeBuf_of_some out hb, (State.bufOperand_eq.1 hb).1]

/-- DECODE into an image that is there. -/
theorem exec_decodeInstr_writes {ih : Handle} {img out : Image} (hi : s.imgOperand = some (ih, img))
    (h : blockDecode s.tileOrder s.rgb8DecodeAlpha f s.bufValue s.port.ops.argW s.port.ops.argH s.imgValue = .ok out) :
    exec (decodeInstr f) s = .next ((s.setImg ih out).endOk (.image (some ih))) := by
  rw [exec_decodeInstr_of_ok hl h, State.writeImg_of_some out hi, (State.imgOperand_eq.1 hi).1]

end

/-- Settles O30: with its operands in order BlockEncode completes, and its output is written to the buffer. -/
theorem encodeWritesVisitedGroups : Obligations.EncodeWritesVisitedGroups := by
  rintro f s ih bh img buf hl ⟨hi, hb, hw, hh, hn, hc⟩
  obtain ⟨-, hw⟩ := (dimOk_iff _).1 hw
  obtain ⟨-, hh⟩ := (dimOk_iff _).1 hh
  obtain ⟨out, hout⟩ := blockEncode_completes (t := s.tileOrder) (Int.ofNat_le.1 hw) (Int.ofNat_le.1 hh) hn hc
  refine ⟨out, exec_encodeInstr_writes hl hb ?_, blockEncode_holds hout⟩
  rw [State.imgValue_of_some hi, State.bufValue_of_some hb, hout]

/-- Settles O31: with its operands in order BlockDecode completes, and its output is written to the image. -/
theorem decodeWritesVisitedPixels : Obligations.DecodeWritesVisitedPixels := by
  rintro f s ih bh img buf w h hl ht ⟨hb, hi, haw, hah, hw, hh, hn, hiw, hih⟩
  obtain ⟨out, hout⟩ := blockDecode_completes (t := s.tileOrder) (alpha := s.rgb8DecodeAlpha) (dimOk_natCast hw) (dimOk_natCast hh) hn hiw hih
  obtain ⟨howw, hohh, hpixels⟩ := blockDecode_holds ht hout
  refine ⟨out, exec_decodeInstr_writes hl hi ?_, howw, hohh, hpixels, fun x y hxy => blockDecode_frame hout hxy⟩
  rw [State.imgValue_of_some hi, State.bufValue_of_some hb, haw, hah, hout]

/-- Settles O32: the three checks of BlockEncode in their order. -/
theorem encodeFaultsInOrder : Obligations.EncodeFaultsInOrder := by
  intro f s hl img buf
  exact ⟨fun hd => exec_encodeInstr_of_error hl (blockEncode_of_dims hd),
    fun hw hh hn => exec_encodeInstr_of_error hl (blockEncode_of_short hw hh hn),
    fun ht hw hh hn hu => exec_encodeInstr_of_error hl (blockEncode_of_unwritten ht hw hh hn hu)⟩

/-- Settles O33: the three checks of BlockDecode in their order. -/
theorem decodeFaultsInOrder : Obligations.DecodeFaultsInOrder := by
  intro f s hl img buf w h
  refine ⟨fun hd => exec_decodeInstr_of_error hl (blockDecode_of_dims hd),
    fun hw0 hw hh0 hh hn => exec_decodeInstr_of_error hl (blockDecode_of_short (by omega) hn),
    fun ht hw0 hw hh0 hh hn hout => exec_decodeInstr_of_error hl ?_⟩
  exact blockDecode_of_outside ht ((dimOk_iff w).2 ⟨hw0, hw⟩) ((dimOk_iff h).2 ⟨hh0, hh⟩) hn hout

/-- Where a handle names nothing the command takes an image without a written pixel (log 12). -/
theorem State.imgValue_of_none {s : State} (hi : s.imgOperand = none) :
    s.imgValue = Image.fresh (Config.absentWidth s.port.ops.img) (Config.absentHeight s.port.ops.img) := by
  simp only [State.imgValue, hi]

/-- Writing a buffer's own bytes leaves every byte. -/
theorem bufByte_writeBuf_self (s : State) (h : Handle) (o : Nat) : bufByte (s.writeBuf s.bufValue).mem h o = bufByte s.mem h o := by
  cases hb : s.bufOperand with
  | none => rw [State.writeBuf_of_none _ hb]
  | some b =>
    obtain ⟨k, buf⟩ := b
    rw [State.writeBuf_of_some _ hb, State.bufValue_of_some hb]
    simp only [bufByte, State.setBuf_mem, Store.find?_put]
    split
    · rw [← ‹k = h›, (State.bufOperand_eq.1 hb).2]
    · rfl

/-- A write through `BUF` leaves images and files. -/
theorem State.writeBuf_imgs_files (s : State) (bs : List Byte) : (s.writeBuf bs).mem.imgs = s.mem.imgs ∧ (s.writeBuf bs).mem.files = s.mem.files := by
  unfold State.writeBuf
  split <;> exact ⟨rfl, rfl⟩

/-- A write through `IMG` leaves buffers and files. -/
theorem State.writeImg_bufs_files (s : State) (img : Image) : (s.writeImg img).mem.bufs = s.mem.bufs ∧ (s.writeImg img).mem.files = s.mem.files := by
  unfold State.writeImg
  split <;> exact ⟨rfl, rfl⟩

/-- Settles O34: where no mark is set every command runs; nothing is written through a handle that names nothing, and an image that is not
there has no pixel to encode. -/
theorem everyCommandRuns : Obligations.EveryCommandRuns := by
  intro s hl
  refine ⟨runCommand_live hl, fun f => ⟨fun hb => ?_, fun hi => ?_, fun hi => ?_⟩⟩
  · cases he : blockEncode s.tileOrder f s.imgValue s.bufValue with
    | error r => exact ⟨_, exec_encodeInstr_of_error hl he, rfl⟩
    | ok out => exact ⟨_, exec_encodeInstr_of_ok hl he, by rw [State.endOk_mem, State.writeBuf_of_none _ hb]⟩
  · cases he : blockEncode s.tileOrder f s.imgValue s.bufValue with
    | error r => exact ⟨_, exec_encodeInstr_of_error hl he, fun _ _ _ => rfl, fun _ _ _ => rfl, fun _ _ _ _ => rfl⟩
    | ok out =>
      obtain rfl : out = s.bufValue := blockEncode_fresh (State.imgValue_of_none hi ▸ he)
      obtain ⟨himgs, hfiles⟩ := s.writeBuf_imgs_files s.bufValue
      refine ⟨_, exec_encodeInstr_of_ok hl he, fun h o _ => bufByte_writeBuf_self s h o, fun h o _ => ?_, fun h x y _ => ?_⟩
      · simp only [fileByteAt, State.endOk_mem, hfiles]
      · simp only [imgPixel, State.endOk_mem, himgs]
  · cases hd : blockDecode s.tileOrder s.rgb8DecodeAlpha f s.bufValue s.port.ops.argW s.port.ops.argH s.imgValue with
    | error r => exact ⟨_, exec_decodeInstr_of_error hl hd, rfl⟩
    | ok out => exact ⟨_, exec_decodeInstr_of_ok hl hd, by rw [State.endOk_mem, State.writeImg_of_none _ hi]⟩

/-- Settles O39: what each of the three byte formats stores. -/
theorem byteFormatRoundTrip : Obligations.ByteFormatRoundTrip :=
  ⟨roundTrip_storedPixel .rgba8, roundTrip_storedPixel .rgb8, roundTrip_storedPixel .a8⟩

end Sys2Proof.Machine
end

section
/-!
SUPPORT. The container commands as wholes: each of their endings by its conditions, and back from an ending to the conditions (43_container.md R195
to R203, 60_exceptions.md R240, R241).
-/

namespace Sys2Proof.Machine

open Sys2Proof.Claims

theorem Status.code_inj {a b : Status} (h : a.code = b.code) : a = b := by
  revert h
  cases a <;> cases b <;> decide

/-! ### HDR_READ -/

/-- HDR_READ's conditions in their order (43_container.md R196, R197). -/
theorem State.afterHdrRead_eq_ite (s : State) (f : List Byte) :
    let d := headerFields f
    s.afterHdrRead f =
      if s.ioFails 0 = true then (s.afterIo 1).endStatus .ioError
      else if f.take 7 ≠ magic then (s.afterIo 1).endStatus .invalidMagic
      else if f.length < 0x15 then (s.afterIo 1).endStatus .ioError
      else if s.ioFails 1 = true then (s.afterIo 2).endStatus .ioError
      else (s.afterIo 2).endOk (.header d.w d.h d.fmt) := by
  simp only [State.afterHdrRead, readHeader, magic_check]
  split_ifs <;> rfl

/-- Settles O42: the conditions in their order, and the signed fields in plain arithmetic. -/
theorem hdrReadFollowsPseudocode : Obligations.HdrReadFollowsPseudocode := by
  intro s hl f
  refine (execHdrRead_of_live hl).trans ?_
  rw [State.afterHdrRead_eq_ite]
  simp only [headerFields, sext16_fromLe16]
  rfl

/-- What a HDR_WRITE that gives bytes had: an id with a codec and dimensions in range (43_container.md R195). -/
theorem execHdrWrite_bytes {fmt : Byte} {s t : State} {hdr : List Byte} (h : execHdrWrite fmt s = .next t) (hf : t.faulted = none)
    (hb : t.port.result = .bytes hdr) :
    ¬(s.port.ops.argW < 0 ∨ 32767 < s.port.ops.argW ∨ s.port.ops.argH < 0 ∨ 32767 < s.port.ops.argH) ∧
      hdr = headerBytes fmt s.port.ops.argW s.port.ops.argH := by
  obtain ⟨hl, -⟩ := execHdrWrite_effect h
  cases hr : resolve fmt with
  | error st =>
    rw [execHdrWrite_of_error hl hr] at h
    cases h
    cases hb
  | ok f =>
    rw [execHdrWrite_eq_ite hl hr] at h
    split_ifs at h with hd <;> cases h
    · cases hf
    · cases hb
      exact ⟨hd, rfl⟩

/-- Settles O44: the written header has the magic and its fields, which are read back whatever follows them. -/
theorem headerRoundTrip : Obligations.HeaderRoundTrip := by
  intro fmt s t u hdr payload h w ht hw hh hwrite hf hb hlu hfile hio
  obtain ⟨hd, rfl⟩ := execHdrWrite_bytes hwrite hf hb
  rw [hw, hh] at hd hfile
  have hmagic : (headerBytes fmt w ht ++ payload).take 7 = magic := rfl
  have hlen : ¬(headerBytes fmt w ht ++ payload).length < 0x15 := by
    rw [List.length_append, length_headerBytes]
    omega
  refine (execHdrRead_of_live hlu).trans ?_
  rw [State.fileValue_of_some hfile, State.afterHdrRead_eq_ite, headerFields_headerBytes fmt (by omega) (by omega), hio 0 (by decide),
    hio 1 (by decide), if_neg Bool.false_ne_true, if_neg (not_not.2 hmagic), if_neg hlen, if_neg Bool.false_ne_true]

/-! ### CONTAINER_WRITE -/

section
variable {s : State} {fmt : Byte} {f : PixelFormat} {img : Image}

theorem State.afterContainerWrite_of_dims (h : 32767 < img.w ∨ 32767 < img.h) :
    s.afterContainerWrite fmt f img = s.takeFault .dimensionOutOfRange := by
  rw [State.afterContainerWrite, if_pos ((dims_bad_iff _ _).2 (by omega))]

variable (hw : img.w ≤ 32767) (hh : img.h ≤ 32767)
include hw hh

/-- A fault of BlockEncode comes after the draws of the buffer. -/
theorem State.afterContainerWrite_of_error {r : FaultReason}
    (he : blockEncode s.tileOrder f img (s.freshBytes (img.w * img.h * bpp f)) = .error r) :
    s.afterContainerWrite fmt f img = (s.afterDraws (img.w * img.h * bpp f)).takeFault r := by
  rw [State.afterContainerWrite, if_neg (by rw [dims_bad_iff]; omega)]
  simp only [he]

/-- The file access comes last. -/
theorem State.afterContainerWrite_of_ok {payload : List Byte}
    (he : blockEncode s.tileOrder f img (s.freshBytes (img.w * img.h * bpp f)) = .ok payload) :
    s.afterContainerWrite fmt f img =
      if s.ioFails 0 = true then ((s.afterDraws (img.w * img.h * bpp f)).afterIo 1).endStatus .ioError
      else (((s.afterDraws (img.w * img.h * bpp f)).afterIo 1).setFile s.freshFile (headerBytes fmt img.w img.h ++ payload)).endOk
        (.file s.freshFile) := by
  rw [State.afterContainerWrite, if_neg (by rw [dims_bad_iff]; omega)]
  simp only [he]

end

@[simp] theorem State.find?_freshFile (s : State) : Store.find? s.mem.files s.freshFile = none :=
  Store.find?_fresh s.port.lane s.mem.files

@[simp] theorem State.find?_freshImage (s : State) : Store.find? s.mem.imgs s.freshImage = none :=
  Store.find?_fresh s.port.lane s.mem.imgs

/-- The buffer that CONTAINER_WRITE allocates is long enough (43_container.md R200). -/
theorem need_le_freshBytes (s : State) (f : PixelFormat) (w h : Nat) : need f w h ≤ (s.freshBytes (w * h * bpp f)).length := by
  rw [State.length_freshBytes]
  exact need_le f w h

/-- Settles O45: the endings in their order; a covered image completes, since the fresh buffer is long enough. -/
theorem containerWriteMakesFile : Obligations.ContainerWriteMakesFile := by
  intro fmt s hl
  refine ⟨fun hnot => containerWrite_of_error hl (resolve_of_not_named ((namedFormatId_eq_false_iff fmt).2 hnot)),
    fun h4 => containerWrite_of_error hl (resolve_etc1 (byte_eq_of_toNat h4)), fun f hr => ?_⟩
  intro img
  have hrun : runCommand (.containerWrite fmt) s = .next (s.afterContainerWrite fmt f img) := containerWrite_of_ok hl hr
  have hn : need f img.w img.h ≤ (s.freshBytes (img.w * img.h * bpp f)).length := need_le_freshBytes s f img.w img.h
  rw [hrun]
  refine ⟨fun hd => ?_, fun hw hh ht hu => ?_, fun hw hh hc hio => ?_, fun hw hh hc hio => ?_⟩
  · rw [State.afterContainerWrite_of_dims hd]
  · rw [State.afterContainerWrite_of_error hw hh (blockEncode_of_unwritten ht hw hh hn hu)]
  · obtain ⟨payload, he⟩ := blockEncode_completes (t := s.tileOrder) hw hh hn hc
    obtain ⟨hlen, hgroups, htail⟩ := blockEncode_holds he
    rw [State.length_freshBytes] at hlen
    refine ⟨_, payload, s.freshFile, rfl, ?_⟩
    rw [State.afterContainerWrite_of_ok hw hh he, hio, if_neg Bool.false_ne_true]
    refine ⟨rfl, rfl, hl.1, s.find?_freshFile, Store.find?_put_self _ _ _, hlen, hgroups, fun o ho hlt => ?_, rfl, rfl, fun h hne => ?_⟩
    · rw [htail o ho, State.getElem?_freshBytes s (hlen ▸ hlt)]
    · exact Store.find?_put_other s.mem.files _ hne.symm
  · obtain ⟨payload, he⟩ := blockEncode_completes (t := s.tileOrder) hw hh hn hc
    refine ⟨_, rfl, ?_⟩
    rw [State.afterContainerWrite_of_ok hw hh he, hio, if_pos rfl]
    exact ⟨rfl, rfl, rfl⟩

/-- What a CONTAINER_WRITE that ends with OK had: an image in range, a completed BlockEncode, and the file (43_container.md R200). -/
theorem State.afterContainerWrite_inv {s : State} {fmt : Byte} {f : PixelFormat} {img : Image}
    (hf : (s.afterContainerWrite fmt f img).faulted = none) (hst : (s.afterContainerWrite fmt f img).port.status = 0) :
    ∃ payload, img.w ≤ 32767 ∧ img.h ≤ 32767 ∧
      blockEncode s.tileOrder f img (s.freshBytes (img.w * img.h * bpp f)) = .ok payload ∧
      s.afterContainerWrite fmt f img = (((s.afterDraws (img.w * img.h * bpp f)).afterIo 1).setFile s.freshFile
        (headerBytes fmt img.w img.h ++ payload)).endOk (.file s.freshFile) := by
  by_cases hd : 32767 < img.w ∨ 32767 < img.h
  · rw [State.afterContainerWrite_of_dims hd] at hf
    cases hf
  · have hw : img.w ≤ 32767 := by omega
    have hh : img.h ≤ 32767 := by omega
    cases he : blockEncode s.tileOrder f img (s.freshBytes (img.w * img.h * bpp f)) with
    | error r =>
      rw [State.afterContainerWrite_of_error hw hh he] at hf
      cases hf
    | ok payload =>
      rw [State.afterContainerWrite_of_ok hw hh he] at hst ⊢
      split_ifs at hst ⊢
      · cases hst
      · exact ⟨payload, hw, hh, rfl, rfl⟩

/-- Settles O49: the file of a CONTAINER_WRITE that ends with OK is the header of its size and BlockEncode's output in the fresh buffer. -/
theorem containerWriteIsItsExpansion : Obligations.ContainerWriteIsItsExpansion := by
  intro s t fh fmt f hr h hf hst hres
  dsimp only
  intro s1 s2 bh hl1 hw1 hh1 hl2 htile himg hbuf
  obtain ⟨hl, -⟩ := runCommand_effect h
  obtain rfl := Host.Outcome.next.inj ((containerWrite_of_ok hl hr).symm.trans h)
  obtain ⟨payload, hw, hh, he, ht⟩ := State.afterContainerWrite_inv hf hst
  rw [ht] at hres ⊢
  obtain rfl : s.freshFile = fh := Result.file.inj hres
  have he2 : blockEncode s2.tileOrder f s2.imgValue s2.bufValue = .ok payload := by
    rw [htile, himg, State.bufValue_of_some hbuf, he]
  refine ⟨s1.endOk (.bytes (headerBytes fmt s.imgValue.w s.imgValue.h)), (s2.setBuf bh payload).endOk (.buffer (some bh)),
    headerBytes fmt s.imgValue.w s.imgValue.h,
    payload, ?_, rfl, ?_, rfl, Store.find?_put_self _ _ _, Store.find?_put_self _ _ _⟩
  · refine (execHdrWrite_eq_ite hl1 hr).trans ?_
    rw [hw1, hh1, if_neg (by omega)]
  · obtain rfl := id_of_resolve hr
    rw [encodeOfFmt_id]
    exact exec_encodeInstr_writes hl2 hbuf he2

/-! ### CONTAINER_READ -/

/-- CONTAINER_READ up to its header: the conditions of HDR_READ in their order (43_container.md R201). -/
theorem State.afterContainerRead_eq_ite (s : State) (f : List Byte) :
    s.afterContainerRead f =
      if s.ioFails 0 = true then (s.afterIo 1).endStatus .ioError
      else if f.take 7 ≠ magic then (s.afterIo 1).endStatus .invalidMagic
      else if f.length < 0x15 then (s.afterIo 1).endStatus .ioError
      else if s.ioFails 1 = true then (s.afterIo 2).endStatus .ioError
      else s.afterPayload f (headerFields f) 2 := by
  simp only [State.afterContainerRead, readHeader, magic_check]
  split_ifs <;> rfl

section
variable {s : State} {file : List Byte} {d : HeaderFields} {n : Nat} {f : PixelFormat}

theorem State.afterPayload_of_unresolved {st : Status} (hr : resolve d.fmt = .error st) :
    s.afterPayload file d n = (s.afterIo n).endStatus st := by
  simp only [State.afterPayload, hr]

variable (hr : resolve d.fmt = .ok f)
include hr

theorem State.afterPayload_of_short (h : file.length < 0x80) : s.afterPayload file d n = (s.afterIo n).endStatus .ioError := by
  simp only [State.afterPayload, hr]
  exact if_pos h

variable (hlen : ¬file.length < 0x80)
include hlen

theorem State.afterPayload_of_ioFails (hio : s.ioFails n = true) :
    s.afterPayload file d n = (s.afterIo (n + 1)).endStatus .ioError := by
  simp only [State.afterPayload, hr]
  rw [if_neg (show ¬file.length < Config.headerSize from hlen), if_pos hio]

variable (hio : ¬s.ioFails n = true)
include hio

/-- A fault of BlockDecode, its check of the dimensions among them. -/
theorem State.afterPayload_of_error {r : FaultReason}
    (hd : blockDecode s.tileOrder s.rgb8DecodeAlpha f (file.drop 0x80) d.w d.h (Image.fresh d.w.toNat d.h.toNat) = .error r) :
    s.afterPayload file d n = (s.afterIo (n + 1)).takeFault r := by
  simp only [State.afterPayload, hr]
  rw [if_neg (show ¬file.length < Config.headerSize from hlen), if_neg hio]
  split
  · rw [blockDecode_of_dims ((dims_bad_iff _ _).1 ‹_›)] at hd
    cases hd
    rfl
  · simp only [show Config.payloadOffset = 0x80 from rfl, hd]

theorem State.afterPayload_of_ok {img : Image}
    (hd : blockDecode s.tileOrder s.rgb8DecodeAlpha f (file.drop 0x80) d.w d.h (Image.fresh d.w.toNat d.h.toNat) = .ok img) :
    s.afterPayload file d n = ((s.afterIo (n + 1)).setImg s.freshImage img).endOk (.image (some s.freshImage)) := by
  obtain ⟨hw, hh, -, -⟩ := blockDecode_ok hd
  simp only [State.afterPayload, hr]
  rw [if_neg (show ¬file.length < Config.headerSize from hlen), if_neg hio, if_neg (by rw [hw, hh]; decide)]
  simp only [show Config.payloadOffset = 0x80 from rfl, hd]

end

section
variable {s : State} {file : List Byte}

/-- What a CONTAINER_READ after its header that ends with OK had: an id with a codec, the file access and a completed BlockDecode. -/
theorem State.afterPayload_inv {d : HeaderFields} {n : Nat} (hf : (s.afterPayload file d n).faulted = none)
    (hst : (s.afterPayload file d n).port.status = 0) :
    ∃ f img, resolve d.fmt = .ok f ∧
      blockDecode s.tileOrder s.rgb8DecodeAlpha f (file.drop 0x80) d.w d.h (Image.fresh d.w.toNat d.h.toNat) = .ok img ∧
      s.afterPayload file d n = ((s.afterIo (n + 1)).setImg s.freshImage img).endOk (.image (some s.freshImage)) := by
  cases hr : resolve d.fmt with
  | error st =>
    rw [State.afterPayload_of_unresolved hr] at hst
    obtain rfl : st = .ok := Status.code_inj hst
    exact absurd rfl (raised_of_resolve hr).1
  | ok f =>
    by_cases hlen : file.length < 0x80
    · rw [State.afterPayload_of_short hr hlen] at hst
      cases hst
    · by_cases hio : s.ioFails n = true
      · rw [State.afterPayload_of_ioFails hr hlen hio] at hst
        cases hst
      · cases hd : blockDecode s.tileOrder s.rgb8DecodeAlpha f (file.drop 0x80) d.w d.h (Image.fresh d.w.toNat d.h.toNat) with
        | error r =>
          rw [State.afterPayload_of_error hr hlen hio hd] at hf
          cases hf
        | ok img => exact ⟨f, img, rfl, hd, State.afterPayload_of_ok hr hlen hio hd⟩

/-- What a CONTAINER_READ that ends with OK had: a HDR_READ that ends with OK, and the rest. -/
theorem State.afterContainerRead_inv (hst : (s.afterContainerRead file).port.status = 0) :
    let d := headerFields file
    s.afterHdrRead file = (s.afterIo 2).endOk (.header d.w d.h d.fmt) ∧ s.afterContainerRead file = s.afterPayload file d 2 := by
  rw [State.afterContainerRead_eq_ite] at hst ⊢
  rw [State.afterHdrRead_eq_ite]
  split_ifs at hst ⊢
  case neg => exact ⟨rfl, rfl⟩
  all_goals cases hst

end

/-- The dimensions of a header are signed 16-bit numbers (43_container.md R194). -/
theorem headerFields_le (file : List Byte) : (headerFields file).w ≤ 32767 ∧ (headerFields file).h ≤ 32767 := by
  have hle (v : Half) : sext16 v ≤ 32767 := Int.le_of_lt_add_one (BitVec.toInt_lt (x := v))
  exact ⟨hle _, hle _⟩

/-- Settles O46: a good file passes every check, and the groups of its payload are within it and within the fresh image. -/
theorem containerReadMakesImage : Obligations.ContainerReadMakesImage := by
  intro s f w ht hl htile hio
  dsimp only
  intro hmagic hlen hw hh hr hn
  obtain ⟨hwle, hhle⟩ := headerFields_le s.fileValue
  have hwn : (headerFields s.fileValue).w.toNat = w := by omega
  have hhn : (headerFields s.fileValue).h.toNat = ht := by omega
  obtain ⟨img, hd⟩ := blockDecode_completes (t := s.tileOrder) (alpha := s.rgb8DecodeAlpha) (f := f) (buf := s.fileValue.drop 0x80)
    (img := Image.fresh w ht) ((dimOk_iff _).2 ⟨by omega, hwle⟩) ((dimOk_iff _).2 ⟨by omega, hhle⟩)
    (by rw [hwn, hhn, List.length_drop]; exact hn) (by rw [hwn]; exact Nat.div_mul_le_self w 8) (by rw [hhn]; exact Nat.div_mul_le_self ht 8)
  obtain ⟨hiw, hih, hpixels⟩ := blockDecode_holds htile hd
  rw [hwn, hhn] at hpixels
  refine ⟨_, img, s.freshImage, containerRead_of_live hl, ?_⟩
  rw [State.afterContainerRead_eq_ite, hio 0 (by decide), hio 1 (by decide), if_neg Bool.false_ne_true, if_neg (not_not.2 hmagic),
    if_neg (by omega), if_neg Bool.false_ne_true,
    State.afterPayload_of_ok hr (by omega) (by rw [hio 2 (by decide)]; exact Bool.false_ne_true) (by rw [hwn, hhn]; exact hd)]
  refine ⟨rfl, rfl, hl.1, s.find?_freshImage, Store.find?_put_self _ _ _, hiw, hih, hpixels, fun x hx y hy hxy => ?_, rfl, rfl, fun k hk => ?_⟩
  · rw [blockDecode_frame hd (by rwa [hwn, hhn]), Image.read_fresh, if_pos ⟨hx, hy⟩]
  · exact Store.find?_put_other s.mem.imgs _ hk.symm

/-- How a command ended: the mark, and `STATUS` where no fault is marked. -/
def State.ending (t : State) : Option FaultReason × Byte :=
  (t.faulted, if t.faulted = none then t.port.status else 0)

theorem State.ending_endStatus {s : State} (hf : s.faulted = none) (n : Nat) (st : Status) :
    ((s.afterIo n).endStatus st).ending = (none, st.code) := by
  simp [State.ending, hf]

theorem State.ending_endOk {u : State} (hf : u.faulted = none) (r : Result) : (u.endOk r).ending = (none, 0) := by
  simp [State.ending, hf, Status.code]

theorem State.ending_takeFault (u : State) (r : FaultReason) : (u.takeFault r).ending = (some r, 0) := by
  simp [State.ending]

/-- The conditions of CONTAINER_READ after its header in their order (60_exceptions.md R240); `bytes` is what the format needs. -/
theorem State.ending_afterPayload {s : State} {file : List Byte} {d : HeaderFields} {n bytes : Nat} (hf : s.faulted = none)
    (hb : ∀ f, resolve d.fmt = .ok f → bytes = need f d.w.toNat d.h.toNat) (hw : d.w ≤ 32767) (hh : d.h ≤ 32767) :
    (s.afterPayload file d n).ending =
      if d.fmt = 4 then (none, 3)
      else if namedFormatId d.fmt = false then (none, 2)
      else if file.length < 0x80 ∨ s.ioFails n = true then (none, 4)
      else if d.w < 0 ∨ d.h < 0 then (some .dimensionOutOfRange, 0)
      else if file.length - 0x80 < bytes then (some .bufferUnderrun, 0)
      else (none, 0) := by
  split_ifs with h4 hnot hshort hd hn
  · rw [State.afterPayload_of_unresolved (resolve_etc1 h4), State.ending_endStatus hf]
    rfl
  · rw [State.afterPayload_of_unresolved (resolve_of_not_named hnot), State.ending_endStatus hf]
    rfl
  all_goals
    rw [namedFormatId_eq_false_iff] at hnot
    obtain ⟨f, hr⟩ := resolve_ok_of_id (fmt := d.fmt) (by bv_omega)
  · by_cases hlen : file.length < 0x80
    · rw [State.afterPayload_of_short hr hlen, State.ending_endStatus hf]
      rfl
    · rw [State.afterPayload_of_ioFails hr hlen (hshort.resolve_left hlen), State.ending_endStatus hf]
      rfl
  all_goals
    obtain ⟨hlen, hio⟩ := not_or.1 hshort
  · rw [State.afterPayload_of_error hr hlen hio (blockDecode_of_dims (by omega)), State.ending_takeFault]
  · rw [State.afterPayload_of_error hr hlen hio (blockDecode_of_short (by omega) (by rw [List.length_drop, ← hb f hr]; exact hn)),
      State.ending_takeFault]
  · obtain ⟨img, hdec⟩ := blockDecode_completes (t := s.tileOrder) (alpha := s.rgb8DecodeAlpha) (f := f) (buf := file.drop 0x80)
      (img := Image.fresh d.w.toNat d.h.toNat) ((dimOk_iff d.w).2 ⟨by omega, hw⟩) ((dimOk_iff d.h).2 ⟨by omega, hh⟩)
      (by rw [List.length_drop, ← hb f hr]; omega) (Nat.div_mul_le_self _ 8) (Nat.div_mul_le_self _ 8)
    exact (congrArg State.ending (State.afterPayload_of_ok hr hlen hio hdec)).trans (State.ending_endOk (by exact hf) _)

/-- Settles O47: the conditions up to the header in their order, and those after it. -/
theorem containerReadPriority : Obligations.ContainerReadPriority := by
  intro s hl
  obtain ⟨hw, hh⟩ := headerFields_le s.fileValue
  refine ⟨_, containerRead_of_live hl, ?_⟩
  dsimp only
  refine (?_ : State.ending (s.afterContainerRead s.fileValue) = _)
  rw [State.afterContainerRead_eq_ite]
  by_cases h0 : s.ioFails 0 = true
  · rw [if_pos h0, if_pos h0, State.ending_endStatus hl.1]
    rfl
  rw [if_neg h0, if_neg h0]
  by_cases hm : s.fileValue.take 7 ≠ magic
  · rw [if_pos hm, if_pos hm, State.ending_endStatus hl.1]
    rfl
  rw [if_neg hm, if_neg hm]
  by_cases hlen : s.fileValue.length < 0x15
  · rw [if_pos hlen, if_pos (.inl hlen), State.ending_endStatus hl.1]
    rfl
  rw [if_neg hlen]
  by_cases h1 : s.ioFails 1 = true
  · rw [if_pos h1, if_pos (.inr h1), State.ending_endStatus hl.1]
    rfl
  rw [if_neg h1, if_neg (not_or.2 ⟨hlen, h1⟩)]
  exact State.ending_afterPayload hl.1 (fun f hr => by rw [hr]) hw hh

/-- Settles O48: the sequence has read the header as HDR_READ does, and its image is BlockDecode's into a fresh one. -/
theorem containerReadIsItsExpansion : Obligations.ContainerReadIsItsExpansion := by
  intro s t fh h hf hst hres
  obtain ⟨hl, -⟩ := runCommand_effect h
  obtain rfl := Host.Outcome.next.inj ((containerRead_of_live hl).symm.trans h)
  obtain ⟨hhdr, hrest⟩ := State.afterContainerRead_inv hst
  rw [hrest] at hf hst hres ⊢
  obtain ⟨f, img, hr, hd, hend⟩ := State.afterPayload_inv hf hst
  rw [hend] at hres ⊢
  obtain rfl : s.freshImage = fh := Option.some.inj (Result.image.inj hres)
  have hid := id_of_resolve hr
  have hread := (execHdrRead_of_live hl).trans (congrArg _ hhdr)
  have hresolve {u : State} (hu : u.Live) : exec (.fmtResolve (headerFields s.fileValue).fmt) u = .next (u.endOk (.format f (bpp f))) := by
    rw [hid]
    exact execFmtResolve_id hu f
  refine ⟨_, _, _, _, _, f, hread, rfl, hresolve hl, rfl, ?_⟩
  intro s3 hl3 htile halpha hw hh hbuf himg
  refine ⟨(s3.setImg s.freshImage img).endOk (.image (some s.freshImage)), ?_, rfl, rfl, ?_⟩
  · rw [hid, decodeOfFmt_id]
    refine exec_decodeInstr_writes hl3 himg ?_
    rw [htile, halpha, hbuf, hw, hh, State.imgValue_of_some himg, hd]
  · exact (Store.find?_put_self _ _ _).trans (Store.find?_put_self _ _ _).symm

end Sys2Proof.Machine
end

section
/-!
SUPPORT. Which commands raise which status (60_exceptions.md R235 to R239), and what each command leaves as it was (10_state.md R26,
41_codec_engines.md R110).
-/

namespace Sys2Proof.Machine

open Sys2Proof.Claims

/-! ### The statuses -/

/-- The commands that the table of statuses lists for each status (60_exceptions.md R236); the reserved status has none (R239). -/
def Status.Sources : Status → Command → Prop
  | .ok, _ => True
  | .invalidMagic, c => c = .word 0x0400 ∨ c = .containerRead
  | .invalidFormatId, c =>
    (∃ w : Half, c = .word w ∧ w.toNat / 256 ∈ [1, 2, 3, 5, 7, 8] ∧ (w.toNat % 256 = 3 ∨ 8 ≤ w.toNat % 256)) ∨
      (∃ fmt : Byte, c = .containerWrite fmt ∧ (fmt.toNat = 3 ∨ 8 ≤ fmt.toNat)) ∨ c = .containerRead
  | .unsupportedFormat, c =>
    (∃ w : Half, c = .word w ∧ w.toNat / 256 ∈ [1, 2, 3, 5, 7, 8] ∧ w.toNat % 256 = 4) ∨ c = .containerWrite 4 ∨ c = .containerRead
  | .ioError, c => c = .word 0x0400 ∨ c = .containerRead ∨ ∃ fmt, c = .containerWrite fmt
  | .invalidOutputFormat, _ => False
  | .illegalCommand, c => ∃ w e, c = .word w ∧ decode w = .error e

/-- Which ids format resolution turns away, and how (43_container.md R192). -/
theorem resolve_error_cases {fmt : Byte} {st : Status} (h : resolve fmt = .error st) :
    (st = .unsupportedFormat ∧ fmt.toNat = 4) ∨ (st = .invalidFormatId ∧ (fmt.toNat = 3 ∨ 8 ≤ fmt.toNat)) := by
  by_cases h4 : fmt.toNat = 4
  · rw [resolve_etc1 (byte_eq_of_toNat h4)] at h
    cases h
    exact .inl ⟨rfl, h4⟩
  · by_cases hnot : fmt.toNat = 3 ∨ 8 ≤ fmt.toNat
    · rw [resolve_of_not_named ((namedFormatId_eq_false_iff fmt).2 hnot)] at h
      cases h
      exact .inr ⟨rfl, hnot⟩
    · obtain ⟨f, hf⟩ := resolve_ok_of_id (fmt := fmt) (by omega)
      rw [hf] at h
      cases h

theorem sources_of_word {w : Half} {st : Status} (hw : w.toNat / 256 ∈ [1, 2, 3, 5, 7, 8]) (hr : resolve (Half.arg w) = .error st) :
    st.Sources (.word w) := by
  obtain ⟨rfl, ha⟩ | ⟨rfl, ha⟩ := resolve_error_cases hr <;> rw [Half.toNat_arg] at ha
  · exact .inl ⟨w, rfl, hw, ha⟩
  · exact .inl ⟨w, rfl, hw, ha⟩

theorem sources_of_containerWrite {fmt : Byte} {st : Status} (hr : resolve fmt = .error st) : st.Sources (.containerWrite fmt) := by
  obtain ⟨rfl, ha⟩ | ⟨rfl, ha⟩ := resolve_error_cases hr
  · obtain rfl : fmt = 4 := byte_eq_of_toNat ha
    exact .inr (.inl rfl)
  · exact .inr (.inl ⟨fmt, rfl, ha⟩)

theorem readHeader_error {f : List Byte} {a b : Bool} {st : Status} (h : (readHeader f a b).1 = .error st) :
    st = .invalidMagic ∨ st = .ioError := by
  unfold readHeader at h
  split_ifs at h <;> cases h <;> decide

theorem pxunpackCommand_of_unpack_error {fmt : Byte} {f : PixelFormat} {s : State} {r : FaultReason} (hl : s.Live) (hr : resolve fmt = .ok f)
    (hu : unpack s.rgb8DecodeAlpha f s.port.ops.argBytes = .error r) : pxunpackCommand fmt s = .next (s.takeFault r) := by
  simp only [pxunpackCommand, guarded_live hl, hr, hu]

/-- How a command of a format id ends: with the status of format resolution, or with OK where the id has a codec. -/
theorem status_of_format {fmt : Byte} {run : State → Host.Outcome State Fault Refusal} {s t : State}
    (herr : ∀ st, resolve fmt = .error st → run s = .next (s.endStatus st))
    (hok : ∀ f, resolve fmt = .ok f → run s = .next t → t.port.status = 0) (h : run s = .next t) :
    t.port.status = 0 ∨ ∃ st, resolve fmt = .error st ∧ t.port.status = st.code := by
  cases hr : resolve fmt with
  | ok f => exact .inl (hok f hr h)
  | error st =>
    rw [herr st hr] at h
    cases h
    exact .inr ⟨st, rfl, rfl⟩

section
variable {fmt : Byte} {s t : State} (hf : t.faulted = none)
include hf

theorem encodeCommand_status (h : encodeCommand fmt s = .next t) :
    t.port.status = 0 ∨ ∃ st, resolve fmt = .error st ∧ t.port.status = st.code := by
  refine status_of_format (fun st hr => encodeCommand_of_error (encodeCommand_effect h).1 hr) (fun f hr h => ?_) h
  obtain ⟨out, rfl, -⟩ := encodeCommand_next hr h hf
  rfl

theorem decodeCommand_status (h : decodeCommand fmt s = .next t) :
    t.port.status = 0 ∨ ∃ st, resolve fmt = .error st ∧ t.port.status = st.code := by
  refine status_of_format (fun st hr => decodeCommand_of_error (decodeCommand_effect h).1 hr) (fun f hr h => ?_) h
  obtain ⟨out, rfl, -⟩ := decodeCommand_next hr h hf
  rfl

omit hf in
theorem pxpackCommand_status (h : pxpackCommand fmt s = .next t) :
    t.port.status = 0 ∨ ∃ st, resolve fmt = .error st ∧ t.port.status = st.code := by
  obtain ⟨hl, -⟩ := pxpackCommand_effect h
  refine status_of_format (fun st hr => pxpackCommand_of_error hl hr) (fun f hr h => ?_) h
  rw [pxpackCommand_of_ok hl hr] at h
  cases h
  rfl

theorem pxunpackCommand_status (h : pxunpackCommand fmt s = .next t) :
    t.port.status = 0 ∨ ∃ st, resolve fmt = .error st ∧ t.port.status = st.code := by
  obtain ⟨hl, -⟩ := pxunpackCommand_effect h
  refine status_of_format (fun st hr => pxunpackCommand_of_error hl hr) (fun f hr h => ?_) h
  cases hu : unpack s.rgb8DecodeAlpha f s.port.ops.argBytes with
  | ok p =>
    rw [pxunpackCommand_of_ok hl hr hu] at h
    cases h
    rfl
  | error r =>
    rw [pxunpackCommand_of_unpack_error hl hr hu] at h
    cases h
    cases hf

theorem execHdrWrite_status (h : execHdrWrite fmt s = .next t) :
    t.port.status = 0 ∨ ∃ st, resolve fmt = .error st ∧ t.port.status = st.code := by
  obtain ⟨hl, -⟩ := execHdrWrite_effect h
  refine status_of_format (fun st hr => execHdrWrite_of_error hl hr) (fun f hr h => ?_) h
  rw [execHdrWrite_eq_ite hl hr] at h
  split_ifs at h <;> cases h
  · cases hf
  · rfl

omit hf in
theorem execFmtResolve_status (h : execFmtResolve fmt s = .next t) :
    t.port.status = 0 ∨ ∃ st, resolve fmt = .error st ∧ t.port.status = st.code := by
  obtain ⟨hl, -⟩ := execFmtResolve_effect h
  refine status_of_format (fun st hr => execFmtResolve_of_error hl hr) (fun f hr h => ?_) h
  obtain rfl := id_of_resolve hr
  rw [execFmtResolve_id hl f] at h
  cases h
  rfl

end

/-- A word that decodes ends, without a fault, with a status that lists it. -/
theorem exec_status {w : Half} {i : Instr} {s t : State} (hd : decode w = .ok i) (h : exec i s = .next t) (hf : t.faulted = none) :
    ∃ st : Status, t.port.status = st.code ∧ st.Sources (.word w) := by
  have hformat {cls : BitVec 4} {fmt : Byte} (hc : cls.toNat ∈ [1, 2, 3, 5, 7, 8])
      (hst : t.port.status = 0 ∨ ∃ st, resolve fmt = .error st ∧ t.port.status = st.code) :
      ∃ st : Status, t.port.status = st.code ∧ st.Sources (.word (commandWord cls fmt)) := by
    obtain hst | ⟨st, hr, hst⟩ := hst
    · exact ⟨.ok, hst, trivial⟩
    · have ha : fmt.toNat < 256 := fmt.isLt
      have hw : (commandWord cls fmt).toNat / 256 = cls.toNat := by rw [toNat_commandWord]; omega
      exact ⟨st, hst, sources_of_word (hw ▸ hc) (by rwa [arg_commandWord])⟩
  cases decoded_of_decode hd with
  | encode fmt => exact hformat (by decide) (encodeCommand_status hf ((exec_encodeOfFmt fmt s).symm.trans h))
  | decode fmt => exact hformat (by decide) (decodeCommand_status hf ((exec_decodeOfFmt fmt s).symm.trans h))
  | pxpack fmt => exact hformat (by decide) (pxpackCommand_status ((exec_pxpackOfFmt fmt s).symm.trans h))
  | pxunpack fmt => exact hformat (by decide) (pxunpackCommand_status hf ((exec_pxunpackOfFmt fmt s).symm.trans h))
  | hdrWrite fmt => exact hformat (by decide) (execHdrWrite_status hf h)
  | fmtResolve fmt => exact hformat (by decide) (execFmtResolve_status h)
  | tileLookup idx =>
    obtain ⟨hl, -⟩ := exec_effect h
    obtain rfl := Host.Outcome.next.inj ((execTileLookup_live hl idx).symm.trans h)
    exact ⟨.ok, rfl, trivial⟩
  | hdrRead =>
    obtain ⟨hl, -⟩ := exec_effect h
    obtain rfl := Host.Outcome.next.inj ((execHdrRead_of_live hl).symm.trans h)
    unfold State.afterHdrRead
    dsimp only
    split
    · obtain rfl | rfl := readHeader_error ‹_›
      · exact ⟨.invalidMagic, rfl, .inl rfl⟩
      · exact ⟨.ioError, rfl, .inl rfl⟩
    · exact ⟨.ok, rfl, trivial⟩

theorem containerWrite_status {fmt : Byte} {s t : State} (h : containerWrite fmt s = .next t) (hf : t.faulted = none) :
    ∃ st : Status, t.port.status = st.code ∧ st.Sources (.containerWrite fmt) := by
  obtain ⟨hl, -⟩ := containerWrite_effect h
  cases hr : resolve fmt with
  | error st =>
    rw [containerWrite_of_error hl hr] at h
    cases h
    exact ⟨st, rfl, sources_of_containerWrite hr⟩
  | ok f =>
    obtain rfl := Host.Outcome.next.inj ((containerWrite_of_ok hl hr).symm.trans h)
    by_cases hd : 32767 < s.imgValue.w ∨ 32767 < s.imgValue.h
    · rw [State.afterContainerWrite_of_dims hd] at hf
      cases hf
    · have hw : s.imgValue.w ≤ 32767 := by omega
      have hh : s.imgValue.h ≤ 32767 := by omega
      cases he : blockEncode s.tileOrder f s.imgValue (s.freshBytes (s.imgValue.w * s.imgValue.h * bpp f)) with
      | error r =>
        rw [State.afterContainerWrite_of_error hw hh he] at hf
        cases hf
      | ok payload =>
        rw [State.afterContainerWrite_of_ok hw hh he]
        split_ifs
        · exact ⟨.ioError, rfl, .inr (.inr ⟨fmt, rfl⟩)⟩
        · exact ⟨.ok, rfl, trivial⟩

/-- The statuses of CONTAINER_READ are those of its conditions (60_exceptions.md R240). -/
theorem containerRead_status {s t : State} (h : runCommand .containerRead s = .next t) (hf : t.faulted = none) :
    ∃ st : Status, t.port.status = st.code ∧ st.Sources .containerRead := by
  obtain ⟨hl, -⟩ := runCommand_effect h
  obtain ⟨t', ht, hend⟩ := containerReadPriority s hl
  obtain rfl := Host.Outcome.next.inj (ht.symm.trans h)
  dsimp only at hend
  rw [hf, if_pos rfl] at hend
  have hio : Status.Sources .ioError .containerRead := .inr (.inl rfl)
  split_ifs at hend <;> obtain ⟨hmark, hst⟩ := Prod.mk.inj hend
  · exact ⟨.ioError, hst, hio⟩
  · exact ⟨.invalidMagic, hst, .inr rfl⟩
  · exact ⟨.ioError, hst, hio⟩
  · exact ⟨.unsupportedFormat, hst, .inr (.inr rfl)⟩
  · exact ⟨.invalidFormatId, hst, .inr (.inr rfl)⟩
  · exact ⟨.ioError, hst, hio⟩
  · cases hmark
  · cases hmark
  · exact ⟨.ok, hst, trivial⟩

/-- Every command that ends without a fault shows a status that lists it. -/
theorem runCommand_status {c : Command} {s t : State} (h : runCommand c s = .next t) (hf : t.faulted = none) :
    ∃ st : Status, t.port.status = st.code ∧ st.Sources c := by
  cases c with
  | containerWrite fmt => exact containerWrite_status h hf
  | containerRead => exact containerRead_status h hf
  | word w =>
    cases hd : decode w with
    | ok i => exact exec_status hd ((runCommand_of_decode_ok hd s).symm.trans h) hf
    | error e =>
      obtain ⟨hl, -⟩ := runCommand_effect h
      obtain rfl := Host.Outcome.next.inj ((runCommand_of_decode_error hl hd).symm.trans h)
      exact ⟨.illegalCommand, rfl, w, e, rfl, hd⟩

/-- Settles O16: no two statuses share a code, so a code tells the status, and the status lists its commands. -/
theorem statusesAreRaisedByTheListedCommands : Obligations.StatusesAreRaisedByTheListedCommands := by
  intro c s t h hf
  obtain ⟨st, hst, hsrc⟩ := runCommand_status h hf
  have listed (st' : Status) (hcode : t.port.status = st'.code) : st'.Sources c := Status.code_inj (hst.symm.trans hcode) ▸ hsrc
  refine ⟨listed .invalidMagic, listed .invalidFormatId, listed .unsupportedFormat, listed .ioError, listed .illegalCommand,
    listed .invalidOutputFormat, ?_⟩
  rw [hst]
  cases st <;> decide

/-! ### The commands that store nothing -/

/-- The ends of a command that writes nothing before it ends. -/
inductive EndsOnly (s : State) : State → Prop
  | ok (r : Result) : EndsOnly s (s.endOk r)
  | status (st : Status) : EndsOnly s (s.endStatus st)
  | fault (r : FaultReason) : EndsOnly s (s.takeFault r)

section
variable {fmt : Byte} {s t : State}

theorem pxpackCommand_endsOnly (h : pxpackCommand fmt s = .next t) : EndsOnly s t := by
  obtain ⟨hl, -⟩ := pxpackCommand_effect h
  cases hr : resolve fmt with
  | error st => exact Host.Outcome.next.inj ((pxpackCommand_of_error hl hr).symm.trans h) ▸ .status st
  | ok f => exact Host.Outcome.next.inj ((pxpackCommand_of_ok hl hr).symm.trans h) ▸ .ok _

theorem pxunpackCommand_endsOnly (h : pxunpackCommand fmt s = .next t) : EndsOnly s t := by
  obtain ⟨hl, -⟩ := pxunpackCommand_effect h
  cases hr : resolve fmt with
  | error st => exact Host.Outcome.next.inj ((pxunpackCommand_of_error hl hr).symm.trans h) ▸ .status st
  | ok f =>
    cases hu : unpack s.rgb8DecodeAlpha f s.port.ops.argBytes with
    | error r => exact Host.Outcome.next.inj ((pxunpackCommand_of_unpack_error hl hr hu).symm.trans h) ▸ .fault r
    | ok p => exact Host.Outcome.next.inj ((pxunpackCommand_of_ok hl hr hu).symm.trans h) ▸ .ok _

theorem execHdrWrite_endsOnly (h : execHdrWrite fmt s = .next t) : EndsOnly s t := by
  obtain ⟨hl, -⟩ := execHdrWrite_effect h
  cases hr : resolve fmt with
  | error st => exact Host.Outcome.next.inj ((execHdrWrite_of_error hl hr).symm.trans h) ▸ .status st
  | ok f =>
    obtain rfl := Host.Outcome.next.inj ((execHdrWrite_eq_ite hl hr).symm.trans h)
    split_ifs
    · exact .fault _
    · exact .ok _

theorem execFmtResolve_endsOnly (h : execFmtResolve fmt s = .next t) : EndsOnly s t := by
  obtain ⟨hl, -⟩ := execFmtResolve_effect h
  cases hr : resolve fmt with
  | error st => exact Host.Outcome.next.inj ((execFmtResolve_of_error hl hr).symm.trans h) ▸ .status st
  | ok f =>
    obtain rfl := id_of_resolve hr
    exact Host.Outcome.next.inj ((execFmtResolve_id hl f).symm.trans h) ▸ .ok _

end

theorem namedFormatId_id (f : PixelFormat) : namedFormatId f.id = true := by
  cases f <;> rfl

/-- A command that writes nothing before it ends changes `CMD`, `STATUS`, `RESULT` and the mark only (10_state.md R26). -/
theorem EndsOnly.frame {s t : State} (h : EndsOnly s t) : SameRest s t ∧ t.port.ops = s.port.ops ∧ t.mem = s.mem := by
  cases h <;> exact ⟨⟨rfl, rfl, rfl, rfl, rfl, rfl, rfl, rfl, rfl⟩, rfl, rfl⟩

/-- An instruction other than HDR_READ, and ENCODE and DECODE of the six formats, writes nothing before it ends. -/
theorem exec_endsOnly {i : Instr} {s t : State} (hcodec : ∀ f, i ≠ encodeInstr f ∧ i ≠ decodeInstr f) (hread : i ≠ .hdrRead)
    (hnot : ∀ fmt, i = .encodeInvalid fmt ∨ i = .decodeInvalid fmt → namedFormatId fmt = false) (h : exec i s = .next t) :
    EndsOnly s t := by
  have hunnamed (f : PixelFormat) : ¬(i = .encodeInvalid f.id ∨ i = .decodeInvalid f.id) := fun hi => by
    have hnamed := hnot f.id hi
    rw [namedFormatId_id] at hnamed
    cases hnamed
  have hrun := runs_exec i
  generalize exec i = run at hrun h
  cases hrun with
  | encode fmt hi =>
    cases hr : resolve fmt with
    | error st => exact Host.Outcome.next.inj ((encodeCommand_of_error (encodeCommand_effect h).1 hr).symm.trans h) ▸ .status st
    | ok f => exact ((hi f hr).elim (hcodec f).1 fun hinv => hunnamed f (.inl hinv)).elim
  | decode fmt hi =>
    cases hr : resolve fmt with
    | error st => exact Host.Outcome.next.inj ((decodeCommand_of_error (decodeCommand_effect h).1 hr).symm.trans h) ▸ .status st
    | ok f => exact ((hi f hr).elim (hcodec f).2 fun hinv => hunnamed f (.inr hinv)).elim
  | hdrRead hi => exact absurd hi hread
  | pxpack => exact pxpackCommand_endsOnly h
  | pxunpack => exact pxunpackCommand_endsOnly h
  | hdrWrite => exact execHdrWrite_endsOnly h
  | fmtResolve => exact execFmtResolve_endsOnly h
  | tileLookup idx =>
    obtain ⟨hl, -⟩ := execTileLookup_effect h
    exact Host.Outcome.next.inj ((execTileLookup_live hl idx).symm.trans h) ▸ .ok _

/-- Settles O50: ENCODE and DECODE of an id without a codec end at format resolution, and the other commands write nothing before they end. -/
theorem commandsThatStoreNothing : Obligations.CommandsThatStoreNothing := by
  intro i s t hcodec hread hnot h
  obtain ⟨hrest, hops, hmem⟩ := (exec_endsOnly hcodec hread hnot h).frame
  rw [hmem]
  exact ⟨hrest, hops, fun _ _ => rfl, fun _ _ => rfl, fun _ _ _ => rfl⟩

/-- Settles O51: each ending of HDR_READ counts its accesses and ends. -/
theorem hdrReadFrame : Obligations.HdrReadFrame := by
  intro s t h
  obtain ⟨hl, -⟩ := exec_effect h
  obtain rfl := Host.Outcome.next.inj ((execHdrRead_of_live hl).symm.trans h)
  rw [State.afterHdrRead_eq_ite]
  split_ifs <;> exact ⟨rfl, rfl, rfl, rfl, rfl, rfl, rfl, rfl, rfl, rfl⟩

/-! ### What ENCODE and DECODE leave -/

section
variable (s : State)

/-- A write through `BUF` of a sequence of the same length that differs below some offset only leaves every other byte, and every length. -/
theorem State.writeBuf_bufs {out : List Byte} {n : Nat} (hlen : out.length = s.bufValue.length)
    (htail : ∀ o, n ≤ o → out[o]? = s.bufValue[o]?) :
    (∀ h o, ¬(s.port.ops.buf = some h ∧ o < n) → bufByte (s.writeBuf out).mem h o = bufByte s.mem h o) ∧
      ∀ h, (Store.find? (s.writeBuf out).mem.bufs h).map List.length = (Store.find? s.mem.bufs h).map List.length := by
  cases hb : s.bufOperand with
  | none =>
    rw [State.writeBuf_of_none out hb]
    exact ⟨fun _ _ _ => rfl, fun _ => rfl⟩
  | some b =>
    obtain ⟨k, buf⟩ := b
    obtain ⟨hk, hfind⟩ := State.bufOperand_eq.1 hb
    rw [State.bufValue_of_some hb] at hlen htail
    rw [State.writeBuf_of_some out hb]
    refine ⟨fun h o hout => ?_, fun h => ?_⟩
    · simp only [bufByte, State.setBuf_mem, Store.find?_put]
      split
      case isTrue hkh =>
        subst hkh
        rw [hfind]
        exact htail o (by simpa [hk] using hout)
      case isFalse => rfl
    · simp only [State.setBuf_mem, Store.find?_put]
      split
      case isTrue hkh =>
        subst hkh
        rw [hfind]
        exact congrArg some hlen
      case isFalse => rfl

/-- A write through `IMG` of an image that differs at some places only leaves every other pixel. -/
theorem State.writeImg_pixels {out : Image} {inside : Nat → Nat → Prop} (hframe : ∀ x y, ¬inside x y → out.read x y = s.imgValue.read x y)
    {h : Handle} {x y : Nat} (hout : ¬(s.port.ops.img = some h ∧ inside x y)) :
    imgPixel (s.writeImg out).mem h x y = imgPixel s.mem h x y := by
  cases hi : s.imgOperand with
  | none => rw [State.writeImg_of_none out hi]
  | some b =>
    obtain ⟨k, img⟩ := b
    obtain ⟨hk, hfind⟩ := State.imgOperand_eq.1 hi
    rw [State.imgValue_of_some hi] at hframe
    rw [State.writeImg_of_some out hi]
    simp only [imgPixel, State.setImg_mem, Store.find?_put]
    split
    case isTrue hkh =>
      subst hkh
      rw [hfind]
      exact congrArg some (hframe x y fun hin => hout ⟨hk, hin⟩)
    case isFalse => rfl

end

/-- Settles O52: a fault writes nothing, and BlockEncode's output differs from the buffer below `need` only. -/
theorem encodeFrame : Obligations.EncodeFrame := by
  intro f s t h
  obtain ⟨hl, -⟩ := exec_effect h
  cases he : blockEncode s.tileOrder f s.imgValue s.bufValue with
  | error r =>
    obtain rfl := Host.Outcome.next.inj ((exec_encodeInstr_of_error hl he).symm.trans h)
    obtain ⟨hrest, hops, -⟩ := (EndsOnly.fault (s := s) r).frame
    exact ⟨hrest, hops, fun _ _ _ => rfl, fun _ _ => rfl, fun _ _ _ => rfl, fun _ => rfl⟩
  | ok out =>
    obtain rfl := Host.Outcome.next.inj ((exec_encodeInstr_of_ok hl he).symm.trans h)
    obtain ⟨hlen, -, htail⟩ := blockEncode_holds he
    obtain ⟨hbytes, hlens⟩ := s.writeBuf_bufs hlen htail
    obtain ⟨himgs, hfiles⟩ := s.writeBuf_imgs_files out
    refine ⟨?_, ?_, hbytes, fun h o => ?_, fun h x y => ?_, hlens⟩
    · simp [SameRest]
    · simp
    · simp only [fileByteAt, State.endOk_mem, hfiles]
    · simp only [imgPixel, State.endOk_mem, himgs]

/-- Settles O53: a fault writes nothing, and BlockDecode's output differs from the image in the visited region only. -/
theorem decodeFrame : Obligations.DecodeFrame := by
  intro f s t h
  obtain ⟨hl, -⟩ := exec_effect h
  cases hd : blockDecode s.tileOrder s.rgb8DecodeAlpha f s.bufValue s.port.ops.argW s.port.ops.argH s.imgValue with
  | error r =>
    obtain rfl := Host.Outcome.next.inj ((exec_decodeInstr_of_error hl hd).symm.trans h)
    obtain ⟨hrest, hops, -⟩ := (EndsOnly.fault (s := s) r).frame
    exact ⟨hrest, hops, fun _ _ _ _ => rfl, fun _ _ => rfl, fun _ _ => rfl⟩
  | ok out =>
    obtain rfl := Host.Outcome.next.inj ((exec_decodeInstr_of_ok hl hd).symm.trans h)
    obtain ⟨hbufs, hfiles⟩ := s.writeImg_bufs_files out
    refine ⟨?_, ?_, fun h x y hout => ?_, fun h o => ?_, fun h o => ?_⟩
    · simp [SameRest]
    · simp
    · refine s.writeImg_pixels (inside := fun x y => x < s.port.ops.argW.toNat / 8 * 8 ∧ y < s.port.ops.argH.toNat / 8 * 8) ?_ hout
      exact fun x y hin => blockDecode_frame hd ((not_and_or.1 hin).imp Nat.le_of_not_lt Nat.le_of_not_lt)
    · simp only [bufByte, State.endOk_mem, hbufs]
    · simp only [fileByteAt, State.endOk_mem, hfiles]

end Sys2Proof.Machine
end

section
/-!
SUPPORT. What the outputs of a command depend on (10_state.md R31): two states that agree on a command's own operands, on the constants and, for the
file commands, on the answers of `IO_FAIL` end alike.
-/

namespace Sys2Proof.Machine

open Sys2Proof.Claims

/-! ### Two ends alike -/

section
variable {u v : State} (hu : u.faulted = none) (hv : v.faulted = none)
include hu hv

theorem sameOutputs_endStatus (st : Status) : SameOutputs (u.endStatus st) (v.endStatus st) :=
  ⟨hv.trans hu.symm, fun _ => ⟨rfl, rfl, nofun, nofun, nofun⟩⟩

theorem sameOutputs_endOk {r : Result} (hb : ∀ h, r = .buffer (some h) → Store.find? v.mem.bufs h = Store.find? u.mem.bufs h)
    (hi : ∀ h, r = .image (some h) → Store.find? v.mem.imgs h = Store.find? u.mem.imgs h)
    (hf : ∀ h, r = .file h → Store.find? v.mem.files h = Store.find? u.mem.files h) : SameOutputs (u.endOk r) (v.endOk r) :=
  ⟨hv.trans hu.symm, fun _ => ⟨rfl, rfl, hb, hi, hf⟩⟩

end

theorem sameOutputs_takeFault (u v : State) (r : FaultReason) : SameOutputs (u.takeFault r) (v.takeFault r) :=
  ⟨rfl, nofun⟩

/-- Two ends `s'` and `t'` from `s` and `t` show the same outputs and leave the operands alike that were alike. -/
def EndsAlike (s t s' t' : State) : Prop :=
  SameOutputs s' t' ∧ (s.imgOperand = t.imgOperand → t'.imgOperand = s'.imgOperand) ∧
    (s.bufOperand = t.bufOperand → t'.bufOperand = s'.bufOperand) ∧ (s.fileOperand = t.fileOperand → t'.fileOperand = s'.fileOperand)

/-- A command answers in both states, and ends alike. -/
def RunsAlike (run : State → Host.Outcome State Fault Refusal) (s t : State) : Prop :=
  ∃ s' t', run s = .next s' ∧ run t = .next t' ∧ EndsAlike s t s' t'

/-- Two ends that have written nothing leave every operand. -/
theorem endsAlike_of_unwritten {s t s' t' : State} (hs : s'.mem = s.mem) (hso : s'.port.ops = s.port.ops) (ht : t'.mem = t.mem)
    (hto : t'.port.ops = t.port.ops) (h : SameOutputs s' t') : EndsAlike s t s' t' := by
  refine ⟨h, fun hi => ?_, fun hb => ?_, fun hf => ?_⟩
  · simpa only [State.imgOperand, hs, hso, ht, hto] using hi.symm
  · simpa only [State.bufOperand, hs, hso, ht, hto] using hb.symm
  · simpa only [State.fileOperand, hs, hso, ht, hto] using hf.symm

/-! ### Operands that are the same -/

section
variable {s t : State}

theorem State.imgValue_congr (h : SameImgOperand s t) : s.imgValue = t.imgValue := by
  obtain ⟨hfield, hop⟩ := h
  rw [State.imgValue, State.imgValue, hfield, hop]

theorem State.bufValue_congr (h : SameBufOperand s t) : s.bufValue = t.bufValue := by
  obtain ⟨hfield, hop⟩ := h
  rw [State.bufValue, State.bufValue, hfield, hop]

theorem State.fileValue_congr (h : SameFileOperand s t) : s.fileValue = t.fileValue := by
  obtain ⟨hfield, hop⟩ := h
  rw [State.fileValue, State.fileValue, hfield, hop]

/-- What a handle field names depends on the object under its handle only. -/
theorem State.bufOperand_congr_find (hp : s.port.ops.buf = t.port.ops.buf)
    (hf : ∀ k, s.port.ops.buf = some k → Store.find? t.mem.bufs k = Store.find? s.mem.bufs k) : t.bufOperand = s.bufOperand := by
  rw [State.bufOperand, State.bufOperand, ← hp]
  cases hb : s.port.ops.buf with
  | none => rfl
  | some k => rw [Option.bind_some, Option.bind_some, hf k hb]

theorem State.imgOperand_congr_find (hp : s.port.ops.img = t.port.ops.img)
    (hf : ∀ k, s.port.ops.img = some k → Store.find? t.mem.imgs k = Store.find? s.mem.imgs k) : t.imgOperand = s.imgOperand := by
  rw [State.imgOperand, State.imgOperand, ← hp]
  cases hb : s.port.ops.img with
  | none => rfl
  | some k => rw [Option.bind_some, Option.bind_some, hf k hb]

/-- A handle that names no buffer lists none. -/
theorem State.find?_of_bufOperand_none {k : Handle} (hk : s.port.ops.buf = some k) (hb : s.bufOperand = none) :
    Store.find? s.mem.bufs k = none := by
  rw [State.bufOperand, hk] at hb
  simpa using hb

theorem State.find?_of_imgOperand_none {k : Handle} (hk : s.port.ops.img = some k) (hi : s.imgOperand = none) :
    Store.find? s.mem.imgs k = none := by
  rw [State.imgOperand, hk] at hi
  simpa using hi

/-- The same write through the same `BUF` leaves the same buffer. -/
theorem State.find?_writeBuf_congr (h : SameBufOperand s t) (out : List Byte) {k : Handle} (hk : s.port.ops.buf = some k) :
    Store.find? (t.writeBuf out).mem.bufs k = Store.find? (s.writeBuf out).mem.bufs k := by
  obtain ⟨hfield, hop⟩ := h
  cases hb : s.bufOperand with
  | none =>
    have hbt : t.bufOperand = none := hop.symm.trans hb
    rw [State.writeBuf_of_none out hb, State.writeBuf_of_none out hbt, State.find?_of_bufOperand_none hk hb,
      State.find?_of_bufOperand_none (hfield.symm.trans hk) hbt]
  | some b =>
    obtain ⟨j, buf⟩ := b
    obtain rfl : k = j := Option.some.inj (hk.symm.trans (State.bufOperand_eq.1 hb).1)
    rw [State.writeBuf_of_some out hb, State.writeBuf_of_some out (hop.symm.trans hb)]
    exact (Store.find?_put_self _ _ _).trans (Store.find?_put_self _ _ _).symm

/-- The same write through the same `IMG` leaves the same image. -/
theorem State.find?_writeImg_congr (h : SameImgOperand s t) (out : Image) {k : Handle} (hk : s.port.ops.img = some k) :
    Store.find? (t.writeImg out).mem.imgs k = Store.find? (s.writeImg out).mem.imgs k := by
  obtain ⟨hfield, hop⟩ := h
  cases hi : s.imgOperand with
  | none =>
    have hit : t.imgOperand = none := hop.symm.trans hi
    rw [State.writeImg_of_none out hi, State.writeImg_of_none out hit, State.find?_of_imgOperand_none hk hi,
      State.find?_of_imgOperand_none (hfield.symm.trans hk) hit]
  | some b =>
    obtain ⟨j, img⟩ := b
    obtain rfl : k = j := Option.some.inj (hk.symm.trans (State.imgOperand_eq.1 hi).1)
    rw [State.writeImg_of_some out hi, State.writeImg_of_some out (hop.symm.trans hi)]
    exact (Store.find?_put_self _ _ _).trans (Store.find?_put_self _ _ _).symm

end

/-! ### The shared meanings -/

section
variable {s t : State} (hs : s.Live) (ht : t.Live)
include hs ht

/-- Two commands that end with one status. -/
theorem runsAlike_of_status {run : State → Host.Outcome State Fault Refusal} {st : Status}
    (h : ∀ u : State, u.Live → run u = .next (u.endStatus st)) : RunsAlike run s t :=
  ⟨_, _, h s hs, h t ht, endsAlike_of_unwritten rfl rfl rfl rfl (sameOutputs_endStatus hs.1 ht.1 st)⟩

omit hs ht in
/-- Two commands that end with one fault. -/
theorem runsAlike_of_fault {run : State → Host.Outcome State Fault Refusal} {r : FaultReason} (h : run s = .next (s.takeFault r))
    (h' : run t = .next (t.takeFault r)) : RunsAlike run s t :=
  ⟨_, _, h, h', endsAlike_of_unwritten rfl rfl rfl rfl (sameOutputs_takeFault s t r)⟩

/-- Two commands that end with OK and one output that names no object. -/
theorem runsAlike_of_output {run : State → Host.Outcome State Fault Refusal} {r : Result} (h : run s = .next (s.endOk r))
    (h' : run t = .next (t.endOk r)) (hr : (∀ h, r ≠ .buffer h) ∧ (∀ h, r ≠ .image h) ∧ ∀ h, r ≠ .file h) : RunsAlike run s t := by
  obtain ⟨hb, hi, hf⟩ := hr
  exact ⟨_, _, h, h', endsAlike_of_unwritten rfl rfl rfl rfl (sameOutputs_endOk hs.1 ht.1 (fun _ h => absurd h (hb _))
    (fun _ h => absurd h (hi _)) (fun _ h => absurd h (hf _)))⟩

theorem encodeCommand_runsAlike {fmt : Byte} (htile : s.tileOrder = t.tileOrder)
    (h : ∀ f, resolve fmt = .ok f → SameImgOperand s t ∧ SameBufOperand s t) : RunsAlike (encodeCommand fmt) s t := by
  cases hr : resolve fmt with
  | error st => exact runsAlike_of_status hs ht fun u hu => encodeCommand_of_error hu hr
  | ok f =>
    obtain ⟨himg, hbuf⟩ := h f hr
    have hrun := encodeCommand_of_ok hs hr
    have hrun' := encodeCommand_of_ok ht hr
    cases he : blockEncode s.tileOrder f s.imgValue s.bufValue with
    | error r =>
      rw [State.afterEncode_of_error he] at hrun
      rw [htile, State.imgValue_congr himg, State.bufValue_congr hbuf] at he
      rw [State.afterEncode_of_error he] at hrun'
      exact runsAlike_of_fault hrun hrun'
    | ok out =>
      rw [State.afterEncode_of_ok he] at hrun
      rw [htile, State.imgValue_congr himg, State.bufValue_congr hbuf] at he
      rw [State.afterEncode_of_ok he, ← hbuf.1] at hrun'
      have hfind : ∀ k, s.port.ops.buf = some k → Store.find? (t.writeBuf out).mem.bufs k = Store.find? (s.writeBuf out).mem.bufs k :=
        fun k hk => State.find?_writeBuf_congr hbuf out hk
      obtain ⟨hsi, hsf⟩ := s.writeBuf_imgs_files out
      obtain ⟨hti, htf⟩ := t.writeBuf_imgs_files out
      refine ⟨_, _, hrun, hrun', sameOutputs_endOk (by simp [hs.1]) (by simp [ht.1]) (fun k hk => hfind k (Result.buffer.inj hk)) nofun nofun,
        fun hi => ?_, fun hb => ?_, fun hf => ?_⟩
      · simpa [State.imgOperand, hsi, hti] using hi.symm
      · exact State.bufOperand_congr_find (by simp [hbuf.1]) fun k hk => hfind k (by simpa using hk)
      · simpa [State.fileOperand, hsf, htf] using hf.symm

theorem decodeCommand_runsAlike {fmt : Byte} (htile : s.tileOrder = t.tileOrder) (halpha : s.rgb8DecodeAlpha = t.rgb8DecodeAlpha)
    (h : ∀ f, resolve fmt = .ok f → SameBufOperand s t ∧ SameDims s t ∧ SameImgOperand s t) : RunsAlike (decodeCommand fmt) s t := by
  cases hr : resolve fmt with
  | error st => exact runsAlike_of_status hs ht fun u hu => decodeCommand_of_error hu hr
  | ok f =>
    obtain ⟨hbuf, ⟨hw, hh⟩, himg⟩ := h f hr
    have hrun := decodeCommand_of_ok hs hr
    have hrun' := decodeCommand_of_ok ht hr
    cases hd : blockDecode s.tileOrder s.rgb8DecodeAlpha f s.bufValue s.port.ops.argW s.port.ops.argH s.imgValue with
    | error r =>
      rw [State.afterDecode_of_error hd] at hrun
      rw [htile, halpha, State.imgValue_congr himg, State.bufValue_congr hbuf, hw, hh] at hd
      rw [State.afterDecode_of_error hd] at hrun'
      exact runsAlike_of_fault hrun hrun'
    | ok out =>
      rw [State.afterDecode_of_ok hd] at hrun
      rw [htile, halpha, State.imgValue_congr himg, State.bufValue_congr hbuf, hw, hh] at hd
      rw [State.afterDecode_of_ok hd, ← himg.1] at hrun'
      have hfind : ∀ k, s.port.ops.img = some k → Store.find? (t.writeImg out).mem.imgs k = Store.find? (s.writeImg out).mem.imgs k :=
        fun k hk => State.find?_writeImg_congr himg out hk
      obtain ⟨hsb, hsf⟩ := s.writeImg_bufs_files out
      obtain ⟨htb, htf⟩ := t.writeImg_bufs_files out
      refine ⟨_, _, hrun, hrun', sameOutputs_endOk (by simp [hs.1]) (by simp [ht.1]) nofun (fun k hk => hfind k (Result.image.inj hk)) nofun,
        fun hi => ?_, fun hb => ?_, fun hf => ?_⟩
      · exact State.imgOperand_congr_find (by simp [himg.1]) fun k hk => hfind k (by simpa using hk)
      · simpa [State.bufOperand, hsb, htb] using hb.symm
      · simpa [State.fileOperand, hsf, htf] using hf.symm

theorem pxpackCommand_runsAlike {fmt : Byte} (h : ∀ f, resolve fmt = .ok f → s.port.ops.argPixel = t.port.ops.argPixel) :
    RunsAlike (pxpackCommand fmt) s t := by
  cases hr : resolve fmt with
  | error st => exact runsAlike_of_status hs ht fun u hu => pxpackCommand_of_error hu hr
  | ok f => exact runsAlike_of_output hs ht (pxpackCommand_of_ok hs hr) (h f hr ▸ pxpackCommand_of_ok ht hr) ⟨nofun, nofun, nofun⟩

theorem pxunpackCommand_runsAlike {fmt : Byte} (halpha : s.rgb8DecodeAlpha = t.rgb8DecodeAlpha)
    (h : ∀ f, resolve fmt = .ok f → s.port.ops.argBytes = t.port.ops.argBytes) : RunsAlike (pxunpackCommand fmt) s t := by
  cases hr : resolve fmt with
  | error st => exact runsAlike_of_status hs ht fun u hu => pxunpackCommand_of_error hu hr
  | ok f =>
    cases hu : unpack s.rgb8DecodeAlpha f s.port.ops.argBytes with
    | error r =>
      have hu' := hu
      rw [halpha, h f hr] at hu'
      exact runsAlike_of_fault (pxunpackCommand_of_unpack_error hs hr hu) (pxunpackCommand_of_unpack_error ht hr hu')
    | ok p =>
      have hu' := hu
      rw [halpha, h f hr] at hu'
      exact runsAlike_of_output hs ht (pxunpackCommand_of_ok hs hr hu) (pxunpackCommand_of_ok ht hr hu') ⟨nofun, nofun, nofun⟩

theorem execHdrWrite_runsAlike {fmt : Byte} (h : ∀ f, resolve fmt = .ok f → SameDims s t) : RunsAlike (execHdrWrite fmt) s t := by
  cases hr : resolve fmt with
  | error st => exact runsAlike_of_status hs ht fun u hu => execHdrWrite_of_error hu hr
  | ok f =>
    obtain ⟨hw, hh⟩ := h f hr
    have hrun := execHdrWrite_eq_ite hs hr
    have hrun' := execHdrWrite_eq_ite ht hr
    dsimp only at hrun hrun'
    rw [← hw, ← hh] at hrun'
    split_ifs at hrun hrun'
    · exact runsAlike_of_fault hrun hrun'
    · exact runsAlike_of_output hs ht hrun hrun' ⟨nofun, nofun, nofun⟩

theorem execFmtResolve_runsAlike (fmt : Byte) : RunsAlike (execFmtResolve fmt) s t := by
  cases hr : resolve fmt with
  | error st => exact runsAlike_of_status hs ht fun u hu => execFmtResolve_of_error hu hr
  | ok f =>
    obtain rfl := id_of_resolve hr
    exact runsAlike_of_output hs ht (execFmtResolve_id hs f) (execFmtResolve_id ht f) ⟨nofun, nofun, nofun⟩

theorem execTileLookup_runsAlike (idx : BitVec 6) (htile : s.tileOrder = t.tileOrder) : RunsAlike (execTileLookup idx) s t :=
  runsAlike_of_output hs ht (execTileLookup_live hs idx) (htile ▸ execTileLookup_live ht idx) ⟨nofun, nofun, nofun⟩

theorem execHdrRead_runsAlike (hfile : SameFileOperand s t) (hio : SameIo s t 2) : RunsAlike execHdrRead s t := by
  have hrun := execHdrRead_of_live hs
  have hrun' := execHdrRead_of_live ht
  rw [State.afterHdrRead_eq_ite] at hrun hrun'
  rw [← State.fileValue_congr hfile, ← hio 0 (by decide), ← hio 1 (by decide)] at hrun'
  have hstatus (n : Nat) (st : Status) : EndsAlike s t ((s.afterIo n).endStatus st) ((t.afterIo n).endStatus st) :=
    endsAlike_of_unwritten rfl rfl rfl rfl (sameOutputs_endStatus (by exact hs.1) (by exact ht.1) st)
  split_ifs at hrun hrun'
  · exact ⟨_, _, hrun, hrun', hstatus 1 .ioError⟩
  · exact ⟨_, _, hrun, hrun', hstatus 1 .invalidMagic⟩
  · exact ⟨_, _, hrun, hrun', hstatus 1 .ioError⟩
  · exact ⟨_, _, hrun, hrun', hstatus 2 .ioError⟩
  · exact ⟨_, _, hrun, hrun', endsAlike_of_unwritten rfl rfl rfl rfl
      (sameOutputs_endOk (by exact hs.1) (by exact ht.1) nofun nofun nofun)⟩

/-- Every instruction ends alike in two states that agree on its own operands and on the constants (10_state.md R31). -/
theorem exec_runsAlike {i : Instr} (htile : s.tileOrder = t.tileOrder) (halpha : s.rgb8DecodeAlpha = t.rgb8DecodeAlpha)
    (hown : SameOwnOperands i s t) : RunsAlike (exec i) s t := by
  obtain ⟨hformat, hread⟩ := hown
  have hrun := runs_exec i
  generalize exec i = run at hrun ⊢
  cases hrun with
  | encode fmt hi =>
    refine encodeCommand_runsAlike hs ht htile fun f hr => ?_
    obtain ⟨henc, -⟩ := hformat f
    exact henc (hi f hr)
  | decode fmt hi =>
    refine decodeCommand_runsAlike hs ht htile halpha fun f hr => ?_
    obtain ⟨-, hdec, -⟩ := hformat f
    exact hdec (hi f hr)
  | pxpack fmt hi =>
    refine pxpackCommand_runsAlike hs ht fun f hr => ?_
    obtain ⟨-, -, hpack, -⟩ := hformat f
    exact hpack (hi f hr)
  | pxunpack fmt hi =>
    refine pxunpackCommand_runsAlike hs ht halpha fun f hr => ?_
    obtain ⟨-, -, -, hunpack, -⟩ := hformat f
    exact hunpack (hi f hr)
  | hdrWrite fmt hi =>
    refine execHdrWrite_runsAlike hs ht fun f hr => ?_
    obtain ⟨-, -, -, -, hhdr⟩ := hformat f
    exact hhdr (id_of_resolve hr ▸ hi)
  | hdrRead hi =>
    obtain ⟨hfile, hio⟩ := hread hi
    exact execHdrRead_runsAlike hs ht hfile hio
  | fmtResolve fmt => exact execFmtResolve_runsAlike hs ht fmt
  | tileLookup idx => exact execTileLookup_runsAlike hs ht idx htile

/-! ### The whole-container sequences -/

theorem containerWrite_sameOutputs {fmt : Byte} (htile : s.tileOrder = t.tileOrder) (himg : SameImgOperand s t) (hio : SameIo s t 1)
    (hfresh : s.freshFile = t.freshFile) (hbytes : ∀ n, s.freshBytes n = t.freshBytes n) :
    ∃ s' t', containerWrite fmt s = .next s' ∧ containerWrite fmt t = .next t' ∧ SameOutputs s' t' := by
  cases hr : resolve fmt with
  | error st =>
    exact ⟨_, _, containerWrite_of_error hs hr, containerWrite_of_error ht hr, sameOutputs_endStatus hs.1 ht.1 st⟩
  | ok f =>
    refine ⟨_, _, containerWrite_of_ok hs hr, containerWrite_of_ok ht hr, ?_⟩
    rw [← State.imgValue_congr himg]
    by_cases hd : 32767 < s.imgValue.w ∨ 32767 < s.imgValue.h
    · rw [State.afterContainerWrite_of_dims hd, State.afterContainerWrite_of_dims hd]
      exact sameOutputs_takeFault s t _
    · have hw : s.imgValue.w ≤ 32767 := by omega
      have hh : s.imgValue.h ≤ 32767 := by omega
      cases he : blockEncode s.tileOrder f s.imgValue (s.freshBytes (s.imgValue.w * s.imgValue.h * bpp f)) with
      | error r =>
        rw [State.afterContainerWrite_of_error hw hh he]
        rw [htile, hbytes] at he
        rw [State.afterContainerWrite_of_error hw hh he]
        exact sameOutputs_takeFault _ _ r
      | ok payload =>
        rw [State.afterContainerWrite_of_ok hw hh he]
        rw [htile, hbytes] at he
        rw [State.afterContainerWrite_of_ok hw hh he, ← hio 0 (by decide), ← hfresh]
        split_ifs
        · exact sameOutputs_endStatus (by exact hs.1) (by exact ht.1) _
        · refine sameOutputs_endOk (by exact hs.1) (by exact ht.1) nofun nofun fun k hk => ?_
          obtain rfl := Result.file.inj hk
          exact (Store.find?_put_self _ _ _).trans (Store.find?_put_self _ _ _).symm

theorem State.afterPayload_sameOutputs {file : List Byte} {d : HeaderFields} {n : Nat} (htile : s.tileOrder = t.tileOrder)
    (halpha : s.rgb8DecodeAlpha = t.rgb8DecodeAlpha) (hio : s.ioFails n = t.ioFails n) (hfresh : s.freshImage = t.freshImage) :
    SameOutputs (s.afterPayload file d n) (t.afterPayload file d n) := by
  have hstatus (m : Nat) (st : Status) : SameOutputs ((s.afterIo m).endStatus st) ((t.afterIo m).endStatus st) :=
    sameOutputs_endStatus (by exact hs.1) (by exact ht.1) st
  cases hr : resolve d.fmt with
  | error st =>
    rw [State.afterPayload_of_unresolved hr, State.afterPayload_of_unresolved hr]
    exact hstatus n st
  | ok f =>
    by_cases hlen : file.length < 0x80
    · rw [State.afterPayload_of_short hr hlen, State.afterPayload_of_short hr hlen]
      exact hstatus n .ioError
    by_cases hf : s.ioFails n = true
    · rw [State.afterPayload_of_ioFails hr hlen hf, State.afterPayload_of_ioFails hr hlen (hio ▸ hf)]
      exact hstatus (n + 1) .ioError
    have hft : ¬t.ioFails n = true := hio ▸ hf
    cases hd : blockDecode s.tileOrder s.rgb8DecodeAlpha f (file.drop 0x80) d.w d.h (Image.fresh d.w.toNat d.h.toNat) with
    | error r =>
      rw [State.afterPayload_of_error hr hlen hf hd]
      rw [htile, halpha] at hd
      rw [State.afterPayload_of_error hr hlen hft hd]
      exact sameOutputs_takeFault _ _ r
    | ok img =>
      rw [State.afterPayload_of_ok hr hlen hf hd]
      rw [htile, halpha] at hd
      rw [State.afterPayload_of_ok hr hlen hft hd, ← hfresh]
      refine sameOutputs_endOk (by exact hs.1) (by exact ht.1) nofun (fun k hk => ?_) nofun
      obtain rfl := Option.some.inj (Result.image.inj hk)
      exact (Store.find?_put_self _ _ _).trans (Store.find?_put_self _ _ _).symm

theorem containerRead_sameOutputs (htile : s.tileOrder = t.tileOrder) (halpha : s.rgb8DecodeAlpha = t.rgb8DecodeAlpha)
    (hfile : SameFileOperand s t) (hio : SameIo s t 3) (hfresh : s.freshImage = t.freshImage) :
    SameOutputs (s.afterContainerRead s.fileValue) (t.afterContainerRead t.fileValue) := by
  have hstatus (n : Nat) (st : Status) : SameOutputs ((s.afterIo n).endStatus st) ((t.afterIo n).endStatus st) :=
    sameOutputs_endStatus (by exact hs.1) (by exact ht.1) st
  rw [State.afterContainerRead_eq_ite, State.afterContainerRead_eq_ite, ← State.fileValue_congr hfile, ← hio 0 (by decide),
    ← hio 1 (by decide)]
  split_ifs
  · exact hstatus 1 .ioError
  · exact hstatus 1 .invalidMagic
  · exact hstatus 1 .ioError
  · exact hstatus 2 .ioError
  · exact State.afterPayload_sameOutputs hs ht htile halpha (hio 2 (by decide)) hfresh

end

/-- Settles O59: an instruction and each of the two sequences answer alike in the two states, and a command has one answer. -/
theorem outputsDependOnOperandsOnly : Obligations.OutputsDependOnOperandsOnly := by
  intro s t hs ht htile halpha
  refine ⟨fun i s' hown h => ?_, fun fmt s' himg hio hfresh hbytes h => ?_, fun s' hfile hio hfresh h => ?_⟩
  · obtain ⟨a, t', ha, ht', halike⟩ := exec_runsAlike hs ht htile halpha hown
    obtain rfl := Host.Outcome.next.inj (ha.symm.trans h)
    exact ⟨t', ht', halike⟩
  · obtain ⟨a, t', ha, ht', hsame⟩ := containerWrite_sameOutputs hs ht (fmt := fmt) htile himg hio hfresh hbytes
    obtain rfl := Host.Outcome.next.inj (ha.symm.trans h)
    exact ⟨t', ht', hsame⟩
  · obtain rfl := Host.Outcome.next.inj ((containerRead_of_live hs).symm.trans h)
    exact ⟨_, containerRead_of_live ht, containerRead_sameOutputs hs ht htile halpha hfile hio hfresh⟩

end Sys2Proof.Machine
end

section
/-!
SUPPORT. Two commands on disjoint operands commute (20_memory.md R60, R61): the write of one leaves every object that the other uses, so each sees
the same in both orders, and the two writes may change places.
-/

namespace Sys2Proof.Machine

open Sys2Proof.Claims

/-- No object that one of two lists of uses writes is in both (20_memory.md R61). -/
def Apart (l l' : List Access) : Prop :=
  ∀ a ∈ l, ∀ b ∈ l', a.kind = b.kind → a.writes = true ∨ b.writes = true → a.handle ≠ b.handle

theorem Apart.symm {l l' : List Access} (h : Apart l l') : Apart l' l :=
  fun b hb a ha hk hw => (h a ha b hb hk.symm hw.symm).symm

/-- Commands that do not overlap are apart. -/
theorem apart_of_not_overlaps {p q : Port} {m : Memory} (h : p.overlaps q m = false) : Apart (p.footprint m) (q.footprint m) := by
  intro a ha b hb hk hw hh
  rw [← Bool.not_eq_true] at h
  refine h (List.any_eq_true.2 ⟨a, ha, List.any_eq_true.2 ⟨b, hb, ?_⟩⟩)
  simp only [Access.conflicts, Bool.and_eq_true, Bool.or_eq_true, beq_iff_eq]
  exact ⟨⟨hk, hh⟩, hw⟩

/-! ### One write and the objects of the other command -/

/-- The uses of a command depend on the memory by the fresh handle of a whole-container sequence only. -/
theorem Port.commandFootprint_congr {q : Port} {m m' : Memory} {d : Command}
    (hfile : ⟨.file, Store.fresh q.lane m.files, true⟩ ∈ q.commandFootprint m d → Store.fresh q.lane m'.files = Store.fresh q.lane m.files)
    (himg : ⟨.image, Store.fresh q.lane m.imgs, true⟩ ∈ q.commandFootprint m d → Store.fresh q.lane m'.imgs = Store.fresh q.lane m.imgs) :
    q.commandFootprint m' d = q.commandFootprint m d := by
  cases d with
  | word w => rfl
  | containerWrite fmt =>
    cases hr : resolve fmt with
    | error st => simp only [Port.commandFootprint, hr]
    | ok f =>
      simp only [Port.commandFootprint, hr] at hfile ⊢
      rw [hfile (by simp [accessOf])]
  | containerRead =>
    simp only [Port.commandFootprint] at himg ⊢
    rw [himg (by simp [accessOf])]

/-- Writing the fresh key of a lane keeps a fresh key that differs from it. -/
theorem Store.fresh_put_of_ne {α : Type} {m : List (Nat × α)} {a b : Nat} (v : α) (h : Store.fresh a m ≠ Store.fresh b m) :
    Store.fresh b (Store.put m (Store.fresh a m) v) = Store.fresh b m :=
  Store.fresh_put_fresh v fun hab => h (hab ▸ rfl)

/-- A write of a command leaves every object that a command apart from it uses, and which objects these are. -/
theorem MemoryWrite.Fits.leaves {s : State} {c d : Command} {w : MemoryWrite} {q : Port} (hw : w.Fits s c)
    (ha : Apart (s.port.commandFootprint s.mem c) (q.commandFootprint s.mem d)) :
    q.commandFootprint (w.apply s.mem) d = q.commandFootprint s.mem d ∧
      ∀ b ∈ q.commandFootprint s.mem d, SameObject s.mem (w.apply s.mem) b := by
  cases w with
  | nothing => exact ⟨rfl, fun b _ => by unfold SameObject; split <;> rfl⟩
  | buffer h bs =>
    obtain ⟨hmem, -⟩ := hw
    refine ⟨Port.commandFootprint_congr (fun _ => rfl) (fun _ => rfl), fun b hb => ?_⟩
    unfold SameObject
    split
    case h_1 hk => exact Store.find?_put_other _ _ (ha _ hmem b hb hk.symm (.inl rfl))
    all_goals rfl
  | image h img =>
    obtain ⟨hmem, hlisted⟩ := hw
    refine ⟨Port.commandFootprint_congr (fun _ => rfl) (fun hfresh => ?_), fun b hb => ?_⟩
    · have hne : h ≠ Store.fresh q.lane s.mem.imgs := ha _ hmem _ hfresh rfl (.inl rfl)
      obtain ⟨old, hold⟩ | ⟨-, rfl⟩ := hlisted
      · exact Store.fresh_put_listed q.lane img hold
      · exact Store.fresh_put_of_ne img hne
    · unfold SameObject
      split
      case h_2 hk => exact Store.find?_put_other _ _ (ha _ hmem b hb hk.symm (.inl rfl))
      all_goals rfl
  | file h bs =>
    obtain ⟨hmem, -, rfl⟩ := hw
    refine ⟨Port.commandFootprint_congr (fun hfresh => ?_) (fun _ => rfl), fun b hb => ?_⟩
    · exact Store.fresh_put_of_ne bs (ha _ hmem _ hfresh rfl (.inl rfl))
    · unfold SameObject
      split
      case h_3 hk => exact Store.find?_put_other _ _ (ha _ hmem b hb hk.symm (.inl rfl))
      all_goals rfl

/-- The writes of two commands that are apart may change places. -/
theorem MemoryWrite.apply_comm {s s' : State} {c d : Command} {w w' : MemoryWrite} (hwf : s.mem.wf = true) (hw : w.Fits s c)
    (hw' : w'.Fits s' d) (ha : Apart (s.port.commandFootprint s.mem c) (s'.port.commandFootprint s'.mem d)) :
    w'.apply (w.apply s.mem) = w.apply (w'.apply s.mem) := by
  obtain ⟨hbufs, himgs, hfiles, -⟩ := (Memory.wf_iff _).1 hwf
  match w, w', hw, hw' with
  | .nothing, _, _, _ => rfl
  | _, .nothing, _, _ => rfl
  | .buffer h bs, .buffer h' bs', ⟨hmem, _⟩, ⟨hmem', _⟩ =>
    simp only [MemoryWrite.apply, Store.put_comm hbufs (ha _ hmem _ hmem' rfl (.inl rfl))]
  | .image h img, .image h' img', ⟨hmem, _⟩, ⟨hmem', _⟩ =>
    simp only [MemoryWrite.apply, Store.put_comm himgs (ha _ hmem _ hmem' rfl (.inl rfl))]
  | .file h bs, .file h' bs', ⟨hmem, _⟩, ⟨hmem', _⟩ =>
    simp only [MemoryWrite.apply, Store.put_comm hfiles (ha _ hmem _ hmem' rfl (.inl rfl))]
  | .buffer .., .image .., _, _ | .buffer .., .file .., _, _ | .image .., .buffer .., _, _ | .image .., .file .., _, _
  | .file .., .buffer .., _, _ | .file .., .image .., _, _ => rfl

/-! ### The other command sees the same -/

theorem SameObject.symm {m m' : Memory} {a : Access} (h : SameObject m m' a) : SameObject m' m a := by
  unfold SameObject at h ⊢
  split <;> simp_all only

theorem Alike.symm {c : Command} {s u : State} (h : Alike c s u) (hs : s.Live) : Alike c u s where
  live := hs
  port := h.port.symm
  tile := h.tile.symm
  alpha := h.alpha.symm
  foot := h.foot.symm
  same a ha := (h.same a (h.foot ▸ ha)).symm

/-- Whether a write fits a command depends on what the command sees only. -/
theorem MemoryWrite.Fits.congr {s u : State} {c : Command} {w : MemoryWrite} (h : w.Fits s c) (hu : Alike c s u) : w.Fits u c := by
  have hport := hu.port
  have hfoot := hu.foot
  cases w with
  | nothing => trivial
  | buffer h bs =>
    obtain ⟨hmem, old, hold⟩ := h
    exact ⟨hfoot ▸ hmem, old, (hu.same _ hmem).trans hold⟩
  | image h img =>
    obtain ⟨hmem, hlisted⟩ := h
    refine ⟨hfoot ▸ hmem, hlisted.imp (fun ⟨old, hold⟩ => ⟨old, (hu.same _ hmem).trans hold⟩) fun ⟨hc, hh⟩ => ⟨hc, ?_⟩⟩
    subst hc hh
    simpa [Port.commandFootprint, Port.commandOperands, accessOf, hport] using hfoot.symm
  | file h bs =>
    obtain ⟨hmem, ⟨fmt, hc⟩, hh⟩ := h
    refine ⟨hfoot ▸ hmem, ⟨fmt, hc⟩, ?_⟩
    subst hc hh
    cases hr : resolve fmt with
    | error st => simp [Port.commandFootprint, hr] at hmem
    | ok f => simpa [Port.commandFootprint, Port.commandOperands, hr, accessOf, hport] using hfoot.symm

/-- A state `v'` that shows another command the state `v`, but for a write of a command apart from it, shows it the same. -/
theorem MemoryWrite.Fits.alike {s v v' : State} {c d : Command} {w : MemoryWrite} (hw : w.Fits s c) (hv : v.mem = s.mem)
    (ha : Apart (s.port.commandFootprint s.mem c) (v.port.commandFootprint v.mem d)) (hmem : v'.mem = w.apply s.mem) (hlive : v'.Live)
    (hport : v'.port = v.port) (htile : v'.tileOrder = v.tileOrder) (halpha : v'.rgb8DecodeAlpha = v.rgb8DecodeAlpha) : Alike d v v' := by
  rw [hv] at ha
  obtain ⟨hfoot, hsame⟩ := hw.leaves ha
  exact ⟨hlive, hport, htile, halpha, by rw [hport, hmem, hv]; exact hfoot, by rw [hmem, hv]; exact hsame⟩

/-! ### The two orders -/

theorem swap_of_others {s : State} {q : Port} {qs : List Port} (h : s.others = q :: qs) : swap s = { s with port := q, others := s.port :: qs } := by
  rw [swap, h]

/-- Settles O60: the write of each command leaves what the other sees, so each runs alike in both orders, and the two writes change places. -/
theorem disjointCommandsCommute : Obligations.DisjointCommandsCommute := by
  unfold Obligations.DisjointCommandsCommute
  intro s s1 s2 q qs c d hwf hothers hc hq hno h1 h2 hf
  have hapart : Apart (s.port.commandFootprint s.mem c) (q.commandFootprint s.mem d) := by
    rw [← Port.footprint_of_cmd hc, ← Port.footprint_of_cmd hq]
    exact apart_of_not_overlaps hno
  obtain ⟨hlive, -⟩ := runCommand_effect h1
  obtain ⟨hlive1, -⟩ := runCommand_effect h2
  obtain ⟨p, r, w, rfl, hw, hrun⟩ := runCommand_runsLocally h1
  obtain ⟨p', r', w', rfl, hw', hrun'⟩ := runCommand_runsLocally h2
  obtain rfl : r' = none := hf
  have hs : swap s = { s with port := q, others := s.port :: qs } := swap_of_others hothers
  have hs1 : swap (s.done p r w) = { s with port := q, others := p :: qs, faulted := r, mem := w.apply s.mem } :=
    swap_of_others hothers
  rw [hs1] at hlive1 hw' hrun' ⊢
  rw [hs]
  obtain rfl : r = none := hlive1.1
  have hseen : Alike d { s with port := q, others := s.port :: qs }
      { s with port := q, others := p :: qs, faulted := none, mem := w.apply s.mem } :=
    hw.alike rfl hapart rfl hlive1 rfl rfl rfl
  have hback := hseen.symm hlive
  have hfits := hw'.congr hback
  refine ⟨_, hrun' _ hback, ?_⟩
  have hseen' : Alike c s (swap (State.done { s with port := q, others := s.port :: qs } p' none w')) :=
    hfits.alike rfl hapart.symm rfl ⟨rfl, hlive.2⟩ rfl rfl rfl
  rw [hrun _ hseen']
  have hcomm := MemoryWrite.apply_comm hwf hw hfits hapart
  simp only [State.done, swap, hcomm]

end Sys2Proof.Machine
end
